-- ==== Sys2Proof/Word.lean ====
section
/-! DEFINITION. The word types of the block: 16-bit words (R5, R6), the five interrupt source groups (R16), one value per
group, and sparse word memories as plain lists. -/

namespace Sys2Proof

/-- Every register, memory word, address and raw code of the block is 16 bits wide (R5, R8). -/
abbrev Word := BitVec 16

/-- The command word of the host, presented to the block as a single value (R70). -/
abbrev CommandWord := BitVec 48

/-- A word memory: pairs (word address, word), in the canonical form that `Machine.Memory.wf` states.
The smallest unit the spec addresses is the 16-bit word (R54), so a cell holds a word. -/
abbrev Cells := List (Nat × Word)

/-- The five interrupt source groups, in the order of their numbers 0 to 4 (R16). -/
inductive Group where
  | pwm
  | timer1
  | timer2
  | extio
  | diag
deriving DecidableEq, Repr, Inhabited

/-- One value for each of the five groups. -/
structure PerGroup (α : Type) where
  pwm : α
  timer1 : α
  timer2 : α
  extio : α
  diag : α
deriving DecidableEq, Repr

/-- The same value for every group. -/
def PerGroup.all {α : Type} (v : α) : PerGroup α := ⟨v, v, v, v, v⟩

/-- The value of group `g`. -/
def PerGroup.get {α : Type} (p : PerGroup α) : Group → α
  | .pwm => p.pwm
  | .timer1 => p.timer1
  | .timer2 => p.timer2
  | .extio => p.extio
  | .diag => p.diag

/-- The value of group `g` replaced, every other group's kept. -/
def PerGroup.set {α : Type} (p : PerGroup α) (g : Group) (v : α) : PerGroup α :=
  match g with
  | .pwm => { p with pwm := v }
  | .timer1 => { p with timer1 := v }
  | .timer2 => { p with timer2 := v }
  | .extio => { p with extio := v }
  | .diag => { p with diag := v }

end Sys2Proof
end

