-- ==== Sys2Proof/Syntax.lean ====
section
/-! DEFINITION. The thirty operations of the host (R72), one constructor per row of the opcode table. Operands are the
fields of R70 as they stand (R71): a group, topology or bit index is a 4-bit field, a flag is `B[0]`, addresses and
indices are 16-bit words. Whether an operand is in range is not syntax (R75): see WellFormed. -/

namespace Sys2Proof

/-- One operation of the host; `g` is a group field, `b` a bit-index field, `t` a topology field. -/
inductive Instr where
  /-- R91 -/
  | icInit
  /-- R92 -/
  | icEnable (g b : BitVec 4)
  /-- R93 -/
  | icDisable (g b : BitVec 4)
  /-- R94 -/
  | icAck (g b : BitVec 4)
  /-- R97 -/
  | icVector (g : BitVec 4)
  /-- R95 -/
  | icRdpend (g : BitVec 4)
  /-- R96 -/
  | icRdmask (g : BitVec 4)
  /-- R121 -/
  | adcInit
  /-- R122 -/
  | adcConfigure (table dest : Word)
  /-- R123 -/
  | adcStartSw (table dest : Word)
  /-- R124 -/
  | adcStartHw (table dest : Word)
  /-- R125 -/
  | adcStop
  /-- R126 -/
  | adcPowerOff
  /-- R127 -/
  | adcSelectTable (t : BitVec 4) (psd : Bool) (index : Word)
  /-- R128 -/
  | adcStart (t : BitVec 4) (index : Word)
  /-- R129 -/
  | adcEocIe (en : Bool)
  /-- R130 -/
  | adcEocAck
  /-- R131 -/
  | adcRdstat
  /-- R132 -/
  | adcRdres (address : Word)
  /-- R162 -/
  | calRails
  /-- R163 -/
  | calPins
  /-- R164 -/
  | calMeasureOffset
  /-- R165 -/
  | calValidateOffset
  /-- R166 -/
  | calSelftest
  /-- R171 -/
  | getSupplyV
  /-- R172 -/
  | getMotorV
  /-- R173 -/
  | getPhaseV
  /-- R179 -/
  | getChipTemp (first : Bool)
  /-- R175 -/
  | getCurRaw (t : BitVec 4)
  /-- R176 -/
  | getCurScaled (t : BitVec 4)
deriving DecidableEq, Repr

end Sys2Proof
end

