-- ==== Sys2Proof/Decode.lean ====
section
/-! DEFINITION. The command word: its fields (R70), the decoder (total on every 48-bit word, rejecting by name: R73,
R74 checks 1 and 2), the encoder (R72), and the pseudo-operations that are plain lists of operations (R82). -/

namespace Sys2Proof

/-- The fields of a command word: `OP`, `G`, `B`, `X`, `Y` (R70). -/
structure CwFields where
  op : BitVec 8
  g : BitVec 4
  b : BitVec 4
  x : Word
  y : Word
deriving DecidableEq, Repr

/-- `OP = cw[47:40]`, `G = cw[39:36]`, `B = cw[35:32]`, `X = cw[31:16]`, `Y = cw[15:0]` (R70). -/
def CwFields.ofWord (cw : CommandWord) : CwFields where
  op := cw.extractLsb' 40 8
  g := cw.extractLsb' 36 4
  b := cw.extractLsb' 32 4
  x := cw.extractLsb' 16 16
  y := cw.extractLsb' 0 16

/-- The command word with the given fields (R70). -/
def CwFields.toWord (f : CwFields) : CommandWord := f.op ++ f.g ++ f.b ++ f.x ++ f.y

/-- Why a command word is no operation (R73). -/
inductive DecodeError where
  /-- `OP` is not one of the thirty values of R72 -/
  | illegalOp
  /-- a field that R72 shows as 0, or `B[3:1]` of a flag operand, is not zero -/
  | reservedField
deriving DecidableEq, Repr

/-- The reserved-field check of R73: the operation, if every must-be-zero field is zero. -/
def reservedZero (zero : Bool) (i : Instr) : Except DecodeError Instr :=
  if zero then .ok i else .error .reservedField

/-- A one-bit flag operand is `B[0]` (R71). -/
def flagOf (b : BitVec 4) : Bool := b.getLsbD 0

/-- A flag operand requires `B[3:1] = 0` (R71). -/
def flagReserved (b : BitVec 4) : Bool := b.extractLsb' 1 3 == 0#3

/-- The operation map of R72 on the fields: first `OP` (R74 check 1), then the reserved fields (check 2). -/
def decodeFields (f : CwFields) : Except DecodeError Instr :=
  let g0 := f.g == 0#4
  let b0 := f.b == 0#4
  let x0 := f.x == 0#16
  let y0 := f.y == 0#16
  let bare (i : Instr) := reservedZero (g0 && b0 && x0 && y0) i
  match f.op.toNat with
  | 0x01 => bare .icInit
  | 0x02 => reservedZero (x0 && y0) (.icEnable f.g f.b)
  | 0x03 => reservedZero (x0 && y0) (.icDisable f.g f.b)
  | 0x04 => reservedZero (x0 && y0) (.icAck f.g f.b)
  | 0x05 => reservedZero (b0 && x0 && y0) (.icVector f.g)
  | 0x06 => reservedZero (b0 && x0 && y0) (.icRdpend f.g)
  | 0x07 => reservedZero (b0 && x0 && y0) (.icRdmask f.g)
  | 0x10 => bare .adcInit
  | 0x11 => reservedZero (g0 && b0) (.adcConfigure f.x f.y)
  | 0x12 => reservedZero (g0 && b0) (.adcStartSw f.x f.y)
  | 0x13 => reservedZero (g0 && b0) (.adcStartHw f.x f.y)
  | 0x14 => bare .adcStop
  | 0x15 => bare .adcPowerOff
  | 0x16 => reservedZero (flagReserved f.b && y0) (.adcSelectTable f.g (flagOf f.b) f.x)
  | 0x17 => reservedZero (b0 && y0) (.adcStart f.g f.x)
  | 0x18 => reservedZero (g0 && flagReserved f.b && x0 && y0) (.adcEocIe (flagOf f.b))
  | 0x19 => bare .adcEocAck
  | 0x1A => bare .adcRdstat
  | 0x1B => reservedZero (g0 && b0 && y0) (.adcRdres f.x)
  | 0x20 => bare .calRails
  | 0x21 => bare .calPins
  | 0x22 => bare .calMeasureOffset
  | 0x23 => bare .calValidateOffset
  | 0x24 => bare .calSelftest
  | 0x28 => bare .getSupplyV
  | 0x29 => bare .getMotorV
  | 0x2A => bare .getPhaseV
  | 0x2B => reservedZero (g0 && flagReserved f.b && x0 && y0) (.getChipTemp (flagOf f.b))
  | 0x2C => reservedZero (b0 && x0 && y0) (.getCurRaw f.g)
  | 0x2D => reservedZero (b0 && x0 && y0) (.getCurScaled f.g)
  | _ => .error .illegalOp

/-- Decoding is total: an operation, or the reason there is none. There is one length and no mode bit (R70, R83). -/
def decode (cw : CommandWord) : Except DecodeError Instr := decodeFields (CwFields.ofWord cw)

/-- The 4-bit field of a flag operand: the flag in `B[0]`, `B[3:1] = 0` (R71). -/
def flagField (v : Bool) : BitVec 4 := if v then 1#4 else 0#4

/-- The fields of an operation, by the operation map of R72. -/
def Instr.fields : Instr → CwFields
  | .icInit => ⟨0x01#8, 0#4, 0#4, 0#16, 0#16⟩
  | .icEnable g b => ⟨0x02#8, g, b, 0#16, 0#16⟩
  | .icDisable g b => ⟨0x03#8, g, b, 0#16, 0#16⟩
  | .icAck g b => ⟨0x04#8, g, b, 0#16, 0#16⟩
  | .icVector g => ⟨0x05#8, g, 0#4, 0#16, 0#16⟩
  | .icRdpend g => ⟨0x06#8, g, 0#4, 0#16, 0#16⟩
  | .icRdmask g => ⟨0x07#8, g, 0#4, 0#16, 0#16⟩
  | .adcInit => ⟨0x10#8, 0#4, 0#4, 0#16, 0#16⟩
  | .adcConfigure table dest => ⟨0x11#8, 0#4, 0#4, table, dest⟩
  | .adcStartSw table dest => ⟨0x12#8, 0#4, 0#4, table, dest⟩
  | .adcStartHw table dest => ⟨0x13#8, 0#4, 0#4, table, dest⟩
  | .adcStop => ⟨0x14#8, 0#4, 0#4, 0#16, 0#16⟩
  | .adcPowerOff => ⟨0x15#8, 0#4, 0#4, 0#16, 0#16⟩
  | .adcSelectTable t psd index => ⟨0x16#8, t, flagField psd, index, 0#16⟩
  | .adcStart t index => ⟨0x17#8, t, 0#4, index, 0#16⟩
  | .adcEocIe en => ⟨0x18#8, 0#4, flagField en, 0#16, 0#16⟩
  | .adcEocAck => ⟨0x19#8, 0#4, 0#4, 0#16, 0#16⟩
  | .adcRdstat => ⟨0x1A#8, 0#4, 0#4, 0#16, 0#16⟩
  | .adcRdres address => ⟨0x1B#8, 0#4, 0#4, address, 0#16⟩
  | .calRails => ⟨0x20#8, 0#4, 0#4, 0#16, 0#16⟩
  | .calPins => ⟨0x21#8, 0#4, 0#4, 0#16, 0#16⟩
  | .calMeasureOffset => ⟨0x22#8, 0#4, 0#4, 0#16, 0#16⟩
  | .calValidateOffset => ⟨0x23#8, 0#4, 0#4, 0#16, 0#16⟩
  | .calSelftest => ⟨0x24#8, 0#4, 0#4, 0#16, 0#16⟩
  | .getSupplyV => ⟨0x28#8, 0#4, 0#4, 0#16, 0#16⟩
  | .getMotorV => ⟨0x29#8, 0#4, 0#4, 0#16, 0#16⟩
  | .getPhaseV => ⟨0x2A#8, 0#4, 0#4, 0#16, 0#16⟩
  | .getChipTemp first => ⟨0x2B#8, 0#4, flagField first, 0#16, 0#16⟩
  | .getCurRaw t => ⟨0x2C#8, t, 0#4, 0#16, 0#16⟩
  | .getCurScaled t => ⟨0x2D#8, t, 0#4, 0#16, 0#16⟩

/-- The command word of an operation (R70, R72). -/
def encode (i : Instr) : CommandWord := i.fields.toWord

/-- The operation the decoder reads from a word numbered as spec/opcode_table.json numbers it: the table's rows are the
48-bit command word itself, bit 0 its least significant bit. Bits at and above `nbits` are zero. -/
def decodeTableWord (nbits w : Nat) : Option Instr :=
  match decode (BitVec.ofNat 48 (w % 2 ^ nbits)) with
  | .ok i => some i
  | .error _ => none

/-- A command word transported as three 16-bit words, the most significant first (R54). -/
def commandOfWords (high middle low : Word) : CommandWord := high ++ middle ++ low

/-- The three words a platform transports for a command word, the most significant first (R54). -/
def wordsOfCommand (cw : CommandWord) : List Word := [cw.extractLsb' 32 16, cw.extractLsb' 16 16, cw.extractLsb' 0 16]

/-- The mnemonic of an operation (R72, R81). -/
def Instr.mnemonic : Instr → String
  | .icInit => "IC_INIT"
  | .icEnable _ _ => "IC_ENABLE"
  | .icDisable _ _ => "IC_DISABLE"
  | .icAck _ _ => "IC_ACK"
  | .icVector _ => "IC_VECTOR"
  | .icRdpend _ => "IC_RDPEND"
  | .icRdmask _ => "IC_RDMASK"
  | .adcInit => "ADC_INIT"
  | .adcConfigure _ _ => "ADC_CONFIGURE"
  | .adcStartSw _ _ => "ADC_START_SW"
  | .adcStartHw _ _ => "ADC_START_HW"
  | .adcStop => "ADC_STOP"
  | .adcPowerOff => "ADC_POWER_OFF"
  | .adcSelectTable _ _ _ => "ADC_SELECT_TABLE"
  | .adcStart _ _ => "ADC_START"
  | .adcEocIe _ => "ADC_EOC_IE"
  | .adcEocAck => "ADC_EOC_ACK"
  | .adcRdstat => "ADC_RDSTAT"
  | .adcRdres _ => "ADC_RDRES"
  | .calRails => "CAL_RAILS"
  | .calPins => "CAL_PINS"
  | .calMeasureOffset => "CAL_MEASURE_OFFSET"
  | .calValidateOffset => "CAL_VALIDATE_OFFSET"
  | .calSelftest => "CAL_SELFTEST"
  | .getSupplyV => "GET_SUPPLY_V"
  | .getMotorV => "GET_MOTOR_V"
  | .getPhaseV => "GET_PHASE_V"
  | .getChipTemp _ => "GET_CHIP_TEMP"
  | .getCurRaw _ => "GET_CUR_RAW"
  | .getCurScaled _ => "GET_CUR_SCALED"

/-- The operands of an operation in the order G, B, X, Y, less the fields that must be zero (R81). -/
def Instr.operands : Instr → List Nat
  | .icEnable g b | .icDisable g b | .icAck g b => [g.toNat, b.toNat]
  | .icVector g | .icRdpend g | .icRdmask g => [g.toNat]
  | .adcConfigure table dest | .adcStartSw table dest | .adcStartHw table dest => [table.toNat, dest.toNat]
  | .adcSelectTable t psd index => [t.toNat, psd.toNat, index.toNat]
  | .adcStart t index => [t.toNat, index.toNat]
  | .adcEocIe v | .getChipTemp v => [v.toNat]
  | .adcRdres address => [address.toNat]
  | .getCurRaw t | .getCurScaled t => [t.toNat]
  | .icInit | .adcInit | .adcStop | .adcPowerOff | .adcEocAck | .adcRdstat | .calRails | .calPins
  | .calMeasureOffset | .calValidateOffset | .calSelftest | .getSupplyV | .getMotorV | .getPhaseV => []

/-- One line of the textual syntax, numbers in decimal (R81). -/
def Instr.text (i : Instr) : String :=
  match i.operands with
  | [] => i.mnemonic
  | vs => i.mnemonic ++ " " ++ ", ".intercalate (vs.map toString)

/-- The pseudo-operations of R82 that are sequences of operations alone. -/
inductive Pseudo where
  | critBegin
  | critEnd
  | measInit
deriving DecidableEq, Repr

/-- What a pseudo-operation abbreviates (R82). -/
def Pseudo.expand : Pseudo → List Instr
  | .critBegin => [.adcEocIe false]
  | .critEnd => [.adcEocIe true]
  | .measInit => [.adcInit, .calSelftest]

end Sys2Proof
end

