-- ==== Sys2Proof/Config.lean ====
section
/-! DEFINITION. What an implementation fixes: the parameters of 00_scope.md section 4 (R5), the read-only spaces SEQ and
BIND (R51, R18), and the free values. A `Config` is plain data and stands in the state, where no step writes it, so a
statement about every state is a statement about every configuration (R41; log 3). -/

namespace Sys2Proof

/-- An inclusive band of raw codes (R162, R163). -/
structure Band where
  lo : Word
  hi : Word
deriving DecidableEq, Repr

/-- The conversion constants `V_OFF[k]`, `V_GAIN[k]`, `V_DIV[k]` of one voltage (R170). -/
structure VoltConst where
  off : Int
  gain : Int
  div : Nat
deriving DecidableEq, Repr

/-- The constants of the temperature model and its limiter (R177, R178). -/
structure TempConst where
  anchorCode : Int
  anchorVal : Int
  hiNum : Int
  hiDen : Nat
  loNum : Int
  loDen : Nat
  jump : Nat
deriving DecidableEq, Repr

/-- How many motor coils a topology measures, 1 or 2 (D37). -/
inductive Coils where
  | one
  | two
deriving DecidableEq, Repr

/-- Which current fields the current getters read (D57). -/
inductive CurSrc where
  | unfiltered
  | filtered
deriving DecidableEq, Repr

/-- One PWM topology: `COILS(t)` and `N_PHASE(t)`. The list of topologies has `N_TOPOLOGY` elements. -/
structure Topology where
  coils : Coils
  nPhase : Nat
deriving DecidableEq, Repr

/-- One value of the table-selection function: `TABLE_ADDR(topology, psd, index) = addr` (R127). -/
structure TableRow where
  topology : Nat
  psd : Bool
  index : Nat
  addr : Word
deriving DecidableEq, Repr

/-- The output lines to the first-level dispatcher (R192). -/
inductive Line where
  | group (g : Group)
  | adc
deriving DecidableEq, Repr

/-- The configuration of the block: every parameter of 00_scope.md section 4 but the fixed ones, and one
setting for a point on which the spec disagrees with itself (log 12). -/
structure Config where
  /-- `SRC_COUNT[g]` (R15) -/
  srcCount : PerGroup Nat
  /-- `BIND[g][b]`, entry b at position b (R18); a position past the end of the list is an unconfigured entry (R226) -/
  bind : PerGroup (List Word)
  /-- `FL_PRIORITY` (R195): the order in which the first-level dispatcher serves high lines -/
  flPriority : List Line
  /-- `ADC_BITS` (R136) -/
  adcBits : Nat
  /-- `SEQ_WORDS` (R50) -/
  seqWords : Nat
  /-- `RES_WORDS` (R50) -/
  resWords : Nat
  /-- the contents of SEQ (R51) -/
  seq : Cells
  /-- `RESULTS_BASE` (R28) -/
  resultsBase : Word
  /-- `SCRATCH_BASE` (R161) -/
  scratchBase : Word
  /-- `REFOFF_TABLE` (R126) -/
  refoffTable : Word
  /-- `SELFTEST_TABLE_BASE` (R161) -/
  selftestTableBase : Word
  /-- one element for each of the `N_TOPOLOGY` topologies (R127, R174) -/
  topologies : List Topology
  /-- `PSD_EN` (R128) -/
  psdEn : Bool
  /-- `DEFAULT_PHASE` (R127) -/
  defaultPhase : Nat
  /-- the values of `TABLE_ADDR` (R127) -/
  tables : List TableRow
  /-- whether `ADC_SELECT_TABLE` is refused while a multi-step operation is in progress: R120 says so of every `OP` from 0x10
  to 0x17, R127 and R140 say the opposite of this operation; both are modelled. DESIGN CHOICE (log 12) -/
  busyRefusesSelect : Bool
  /-- `N_HWEVENT` (R77) -/
  nHwEvent : Nat
  /-- `T_SETTLE` (R138): no rule reads it -/
  tSettle : Nat
  /-- `N_GPIO` (R36) -/
  nGpio : Nat
  /-- `RAIL_LO[0]`, `RAIL_HI[0]` (R162) -/
  rail0 : Band
  /-- `RAIL_LO[1]`, `RAIL_HI[1]` (R162) -/
  rail1 : Band
  /-- `PIN_HI_LO`, `PIN_HI_HI` (R163) -/
  pinHigh : Band
  /-- `PIN_LO_LO`, `PIN_LO_HI` (R163) -/
  pinLow : Band
  /-- `DRV_ACTIVE_CFG` (R164) -/
  drvActiveCfg : Word
  /-- `CH_ZERO` (R164) -/
  chZero : BitVec 8
  /-- constants of `SUPPLY` (R170) -/
  supply : VoltConst
  /-- constants of `MOTOR` (R170) -/
  motor : VoltConst
  /-- constants of `PHASE` (R170) -/
  phase : VoltConst
  /-- `CUR_GAIN` (R176) -/
  curGain : Nat
  /-- `CUR_DIV` (R176) -/
  curDiv : Nat
  /-- `CUR_SRC` (R174) -/
  curSrc : CurSrc
  /-- `T_*` (R177, R178) -/
  temp : TempConst
  /-- `DIAG_RAIL` (R202) -/
  diagRail : Word
  /-- `DIAG_PIN(p)` at position p (R202) -/
  diagPin : List Word
deriving DecidableEq, Repr

/-- The self-test tables R161 places at the default `SELFTEST_TABLE_BASE`, for the channels `from`, `from + 1`, …: the
entry word is the channel number. The end-of-table marker in the word after it is what an unlisted word reads as. -/
def Config.selftestCells : Nat → Nat → Cells
  | _, 0 => []
  | ch, n + 1 => (0xFF00 + 2 * ch, BitVec.ofNat 16 ch) :: selftestCells (ch + 1) n

/-- SEQ as R226 requires it of the platform at the spec's default addresses, and nothing else: the self-test tables of
`CH_ZERO` (default `CH_IA_UNF` = 3), of the two rails (8, 9) and of the pins 0 to 7 (0x40 + p), and the reference-off
table (R126). DESIGN CHOICE, unsafe (log 6). -/
def Config.platformSeq : Cells :=
  Config.selftestCells 3 1 ++ Config.selftestCells 8 2 ++ Config.selftestCells 0x40 8 ++ [(0xFFF0, 0x07FF#16)]

/-- The values of `TABLE_ADDR` the spec's test configuration uses (95_test_vectors.md section 0), for one topology. -/
def Config.testTables (t : Nat) (psd : Bool) : List TableRow :=
  (List.range 4).map fun i =>
    { topology := t, psd := psd, index := i,
      addr := BitVec.ofNat 16 (0x1000 + 0x100 * t + (if psd then 0x80 else 0) + 0x10 * i) }

/-- The configuration of the reset state: the default of 00_scope.md section 4 where the spec gives one; where it gives
none, the value of the spec's test configuration. DESIGN CHOICE, unsafe (log 3): no statement rests on these values. -/
def Config.default : Config where
  srcCount := PerGroup.all 16
  bind := PerGroup.all []
  flPriority := [.group .pwm, .group .timer1, .group .timer2, .group .extio, .group .diag, .adc]
  adcBits := 16
  seqWords := 65536
  resWords := 65536
  seq := Config.platformSeq
  resultsBase := 0x0000#16
  scratchBase := 0x0010#16
  refoffTable := 0xFFF0#16
  selftestTableBase := 0xFF00#16
  topologies := [⟨.one, 4⟩, ⟨.two, 4⟩]
  psdEn := false
  defaultPhase := 0
  tables := Config.testTables 0 false ++ Config.testTables 0 true ++ Config.testTables 1 false ++ Config.testTables 1 true
  busyRefusesSelect := false
  nHwEvent := 15
  tSettle := 0
  nGpio := 8
  rail0 := ⟨400#16, 420#16⟩
  rail1 := ⟨600#16, 640#16⟩
  pinHigh := ⟨900#16, 1023#16⟩
  pinLow := ⟨0#16, 100#16⟩
  drvActiveCfg := 0x00FF#16
  chZero := 0x03#8
  supply := ⟨10, 25, 10⟩
  motor := ⟨10, 25, 10⟩
  phase := ⟨10, 25, 10⟩
  curGain := 1
  curDiv := 1
  curSrc := .unfiltered
  temp := ⟨500, 25, 1, 4, 1, 2, 5⟩
  diagRail := 0x0001#16
  diagPin := (List.range 32).map fun p => BitVec.ofNat 16 (0x0100 + p)

/-- What the outside world, or the engine at a moment it chooses, does at one step (R10, R41, R60). -/
inductive Input where
  /-- a host context issues a command word (R70) -/
  | command (cw : CommandWord)
  /-- the context whose multi-step operation is in progress takes that operation's next atomic step (R56) -/
  | proceed
  /-- the interrupt-source hardware of source (g, b) latches its condition: `SRC_EVENT(g, b)` (R101) -/
  | source (g : Group) (b : BitVec 4)
  /-- the PWM event generator produces `hw_event(n)` (R134) -/
  | hwEvent (n : BitVec 4)
  /-- the engine begins a conversion for which no hardware event is needed (R134) -/
  | engineBegin
  /-- the engine completes the conversion in flight; the environment draws this value (R135, R136) -/
  | engineComplete (draw : Word)
deriving DecidableEq, Repr, Inhabited

/-- FREE VALUE (log 1): the n-th input that no list of pending inputs names. Nothing constrains it (R41, U16, U17). -/
opaque Config.freeInput : Nat → Input

/-- FREE VALUE (log 20): `TABLE_ADDR(t, psd, i)` at a point the configuration does not list (OPEN, D38). -/
opaque Config.freeTableAddr : Nat → Bool → Nat → Word

/-- FREE VALUE (log 20): `DIAG_PIN(p)` of a pin the configuration does not list (OPEN, D50). -/
opaque Config.freeDiagPin : Nat → Word

end Sys2Proof
end

