-- ==== Sys2Proof/Machine/State.lean ====
section
/-! DEFINITION. The state of the block (R10), the reasons a step can stop, and the state after reset (R40). Plain data. -/

namespace Sys2Proof.Machine

/-- The sequencer's state: `Idle`, `Running(SoftwareSingleShot)`, `Running(HardwareLoop)` (R19, R120). -/
inductive AdcState where
  | idle
  | runSW
  | runHW
deriving DecidableEq, Repr

/-- The registers of the interrupt controller (R13, R14). -/
structure IntCtl where
  pend : PerGroup Word
  mask : PerGroup Word
deriving DecidableEq, Repr

/-- The registers, flags and hidden items of the ADC sequencer and its engine (R12, R19 to R26, R120). -/
structure Sequencer where
  /-- `adc_state` (R19) -/
  state : AdcState
  /-- `adc_ctrl`: bit 0 `HWTRIG_EN`, bit 1 `LOOP` (R20) -/
  ctrl : Word
  /-- `adc_sbase` (R21) -/
  sbase : Word
  /-- `adc_dbase` (R22) -/
  dbase : Word
  /-- `adc_idx` (R12) -/
  idx : Word
  /-- `adc_start` (R23) -/
  start : Bool
  /-- `adc_inflight` (R24) -/
  inflight : Bool
  /-- `adc_cur` (R24) -/
  cur : Word
  /-- `adc_busy_op` (R120) -/
  busyOp : Bool
  /-- `eoc_pend` (R25) -/
  eocPend : Bool
  /-- `eoc_ie` (R25) -/
  eocIe : Bool
  /-- `fe_powered` (R26) -/
  fePowered : Bool
deriving DecidableEq, Repr

/-- The calibration state and the diagnostic log (R30, R32 to R35, R37). -/
structure Calibration where
  /-- `zero_off` (R30) -/
  zeroOff : Word
  /-- `meas_off` (R34) -/
  measOff : Word
  /-- `last_temp`, 16-bit two's complement (R32) -/
  lastTemp : Word
  /-- `elec_fault` (R33) -/
  elecFault : Bool
  /-- `stored_valid`, an input (R35) -/
  storedValid : Bool
  /-- `stored_off`, an input (R35) -/
  storedOff : Word
  /-- `diag_log`, oldest code first (R37) -/
  diagLog : List Word
deriving DecidableEq, Repr

/-- The registers of external collaborators the self-test touches (R36); bit p of `gpioOe` and `gpioOut` is pin p. -/
structure Pins where
  gpioOe : BitVec 32
  gpioOut : BitVec 32
  drvCfg : Word
deriving DecidableEq, Repr

/-- The answer to a command word: `STATUS`, `RSP0`, `RSP1` (R79). -/
structure Response where
  status : BitVec 8
  rsp0 : Word
  rsp1 : Word
deriving DecidableEq, Repr

/-- The atomic step a multi-step operation takes next (R56); the labels are those of R123 to R126. -/
inductive Phase where
  /-- S2: `settle()` before a software pass -/
  | swSettle
  /-- S3: the software trigger -/
  | swTrigger
  /-- S4, P3: the wait for the end of a software pass -/
  | swWait
  /-- S5, P4: the sequencer returns to `Idle` -/
  | swFinish
  /-- H2: `settle()` before the hardware loop -/
  | hwSettle
  /-- H3: the hardware loop is armed -/
  | hwArm
  /-- T2: the final software trigger of a stop -/
  | drainTrigger
  /-- T3: the wait for the drain -/
  | drainWait
  /-- T4: the control register is cleared -/
  | stopCtrl
  /-- T5: the completion interrupt is disabled -/
  | stopEoc
  /-- T6: the sequencer returns to `Idle` -/
  | stopIdle
  /-- the next task of a power-off or of a calibration operation is due -/
  | task
deriving DecidableEq, Repr

/-- A step of `ADC_POWER_OFF` or of a calibration operation that runs while the sequencer is `Idle`. -/
inductive Task where
  /-- P2: the reference-off micro-sequence is set up and triggered (R126) -/
  | refOff
  /-- S1 of `measure(ch)` (R161) -/
  | measure (ch : BitVec 8)
  /-- the rail verdict (R162) -/
  | railsVerdict
  /-- one turn of the pin loop: the pin is checked if it is an output (R163) -/
  | pin (p : Nat)
  /-- `gpio_out[p] <- level` (R163) -/
  | drivePin (p : Nat) (level : Bool)
  /-- the verdict on pin p (R163) -/
  | pinVerdict (p : Nat)
  /-- `saved = drv_cfg; drv_cfg <- DRV_ACTIVE_CFG` (R164) -/
  | forceDriver
  /-- `drv_cfg <- saved` (R164) -/
  | restoreDriver (saved : Word)
  /-- `meas_off <- floor((s1 + s2) / 2)` (R164) -/
  | averageOffset
  /-- the validation of the offset (R165) -/
  | validateOffset
deriving DecidableEq, Repr

/-- What a multi-step operation answers when its last step is done (R79). -/
inductive Answer where
  | nothing
  /-- `CAL_MEASURE_OFFSET` answers `meas_off` (R164) -/
  | measOff
deriving DecidableEq, Repr

/-- The multi-step operation in progress: the issuing context's place in it (R56). `older` and `newer` are the results
of the last two `measure` (R161). -/
structure Operation where
  phase : Phase
  todo : List Task
  older : Word
  newer : Word
  answer : Answer
deriving DecidableEq, Repr

/-- The host side: the operation in progress, the latest answer, and the inputs still to come. -/
structure HostPort where
  /-- the operation whose steps the issuing context is in, if any (R56, R120) -/
  op : Option Operation
  /-- the answer to the command word issued or finished last; `none` while that one has no answer (R79; log 19) -/
  rsp : Option Response
  /-- pending inputs, oldest first (R41; log 1) -/
  inputs : List Input
  /-- which free input comes when none is pending (log 1) -/
  tick : Nat
deriving DecidableEq, Repr

/-- The whole state of the block (R10), with the configuration it never writes (R41). -/
structure State where
  cfg : Config
  ic : IntCtl
  adc : Sequencer
  /-- RES: the words written since reset (R28, R50) -/
  res : Cells
  cal : Calibration
  pins : Pins
  port : HostPort
deriving DecidableEq, Repr

/-- Why the machine stops. Safe: the spec gives such an access no meaning (R53), and no state that meets the model's
invariant reaches one. -/
inductive Fault where
  /-- raised by the engine's begin and complete steps: the table fetch is outside SEQ (R53); safe -/
  | seqOutside
  /-- raised by the engine's complete step, the self-test and the conversions: the RES word is outside RES (R53); safe -/
  | resOutside
deriving DecidableEq, Repr

/-- The refused outcome (R204) and its reasons. Raised by the operation's meaning (or by decoding); safe: nothing changes.
`step` presents the answer R204 gives for it, and the machine goes on (R73, R79; log 2). -/
inductive Refusal where
  /-- raised by `exec` for an instruction without a meaning; none is left; safe -/
  | notModelled (mnemonic : String)
  /-- `OP` is not in the operation map (R73); safe -/
  | illegalOp
  /-- a must-be-zero field is not zero (R73); safe -/
  | reservedField
  /-- `g > 4` (R75); safe -/
  | groupRange
  /-- `b >= SRC_COUNT[g]` (R75); safe -/
  | bitRange
  /-- the sequencer's state or `adc_busy_op` forbids the operation (R120); safe -/
  | badState
  /-- `table_ok` fails, or a required fixed table is absent (R126, R139, R161); safe -/
  | badTable
  /-- `X >= RES_WORDS` (R75, R132); safe -/
  | addrRange
  /-- `t >= N_TOPOLOGY` (R75); safe -/
  | badTopology
  /-- a result does not fit its response word (R79, R182); safe -/
  | resultRange
deriving DecidableEq, Repr

/-- The outcome of a step or of an operation. -/
abbrev Result := Host.Outcome State Fault Refusal

/-- The block right after a hardware reset (R40, R220). The items R40 leaves unspecified are zero here: DESIGN CHOICE,
unsafe (log 4, log 7); `State.AfterReset` in Safety is what every reset state has in common. -/
def State.reset : State where
  cfg := Config.default
  ic := { pend := PerGroup.all 0x0000#16, mask := PerGroup.all 0x0000#16 }
  adc :=
    { state := .idle, ctrl := 0x0000#16, sbase := 0x0000#16, dbase := 0x0000#16, idx := 0x0000#16, start := false,
      inflight := false, cur := 0x0000#16, busyOp := false, eocPend := false, eocIe := false, fePowered := false }
  res := []
  cal :=
    { zeroOff := 0x0000#16, measOff := 0x0000#16, lastTemp := 0x0000#16, elecFault := false, storedValid := false,
      storedOff := 0x0000#16, diagLog := [] }
  pins := { gpioOe := 0#32, gpioOut := 0#32, drvCfg := 0x0000#16 }
  port := { op := none, rsp := none, inputs := [], tick := 0 }

end Sys2Proof.Machine
end

