-- ==== Sys2Proof/Machine/Memory.lean ====
section
/-! DEFINITION. Word memories in canonical form, and the spaces SEQ and RES (R38, R50 to R53). -/

namespace Sys2Proof.Machine

/-- The word at address `a`; an address that is not listed reads `d`. -/
def Memory.read (d : Word) : Cells → Nat → Word
  | [], _ => d
  | (k, v) :: m, a => if a = k then v else Memory.read d m a

/-- The memory with word `w` at address `a`, in canonical form again. -/
def Memory.write (d : Word) : Cells → Nat → Word → Cells
  | [], a, w => if w = d then [] else [(a, w)]
  | (k, v) :: m, a, w =>
    if a < k then (if w = d then (k, v) :: m else (a, w) :: (k, v) :: m)
    else if a = k then (if w = d then m else (a, w) :: m)
    else (k, v) :: Memory.write d m a w

/-- The canonical form: addresses strictly rising, no entry equal to what an unlisted address reads as. -/
def Memory.wf (d : Word) : Cells → Bool
  | [] => true
  | (k, v) :: m => (v != d) && m.all (fun c => decide (k < c.1)) && Memory.wf d m

/-- What a RES word that no conversion has written reads as; R40 leaves it unspecified. DESIGN CHOICE, unsafe (log 5). -/
def Memory.resUnwritten : Word := 0x0000#16

/-- What a SEQ word that the configuration does not list reads as: the end-of-table marker, so an unlisted address holds
an empty table. DESIGN CHOICE (log 6). -/
def Memory.seqUnlisted : Word := 0x8000#16

/-- `SEQ[a]`; `none` outside SEQ (R50, R53). -/
def State.readSeq (s : State) (a : Nat) : Option Word :=
  if a < s.cfg.seqWords then some (Memory.read Memory.seqUnlisted s.cfg.seq a) else none

/-- `RES[a]`; `none` outside RES (R50, R53). -/
def State.readRes (s : State) (a : Nat) : Option Word :=
  if a < s.cfg.resWords then some (Memory.read Memory.resUnwritten s.res a) else none

/-- `RES[a] <- w`; `none` outside RES. Only the engine's complete step uses it (R52). -/
def State.writeRes (s : State) (a : Nat) (w : Word) : Option State :=
  if a < s.cfg.resWords then some { s with res := Memory.write Memory.resUnwritten s.res a w } else none

end Sys2Proof.Machine
end

