-- ==== Sys2Proof/Machine/Operands.lean ====
section
/-! DEFINITION. Operand forms: groups, bit indices, topologies and the table-selection function (R71, R75, R127); the
sequence-table entry and well-formed tables (R76 to R78, R139); the fixed tables of R126 and R161. -/

namespace Sys2Proof.Machine

/-- The group a 4-bit field names; `none` for 5 to 15 (R16, R75). -/
def groupOfField (g : BitVec 4) : Option Group :=
  match g.toNat with
  | 0 => some .pwm
  | 1 => some .timer1
  | 2 => some .timer2
  | 3 => some .extio
  | 4 => some .diag
  | _ => none

/-- The field that names a group: its number (R16). -/
def fieldOfGroup : Group → BitVec 4
  | .pwm => 0#4
  | .timer1 => 1#4
  | .timer2 => 2#4
  | .extio => 3#4
  | .diag => 4#4

/-- The pattern `bit(b) = 1 << b` (R6, R71). -/
def bitPattern (b : BitVec 4) : Word := 1#16 <<< b.toNat

/-- The bits of group `g` that are implemented: positions below `SRC_COUNT[g]` (R15). -/
def implementedBits (c : Config) (g : Group) : Word := BitVec.ofNat 16 (2 ^ c.srcCount.get g - 1)

/-- `lowest(v)`: the index of the least significant 1 bit; `none` for 0 (R7). -/
def lowestBit (v : Word) : Option (BitVec 4) :=
  ((List.range 16).find? fun b => v.getLsbD b).map (BitVec.ofNat 4)

/-- `BIND[g][b]`; an unconfigured entry is `H_DEFAULT` = 0x0000 (R18, R80, R226). -/
def handlerOf (c : Config) (g : Group) (b : BitVec 4) : Word := (c.bind.get g).getD b.toNat 0x0000#16

/-- The topology a field names; `none` when `t >= N_TOPOLOGY` (R75). -/
def topologyOf (c : Config) (t : BitVec 4) : Option Topology := c.topologies[t.toNat]?

/-- `TABLE_ADDR(t, psd, i)` (R127); free where the configuration lists none (log 20). -/
def tableAddr (c : Config) (t : Nat) (psd : Bool) (i : Nat) : Word :=
  match c.tables.find? fun r => r.topology == t && r.psd == psd && r.index == i with
  | some r => r.addr
  | none => Config.freeTableAddr t psd i

/-- The index actually used: an index outside `N_PHASE(t)` falls back to `DEFAULT_PHASE` (R127). -/
def phaseIndex (c : Config) (topo : Topology) (index : Word) : Nat :=
  if index.toNat < topo.nPhase then index.toNat else c.defaultPhase

/-- Table selection: a pure function of topology, phase-short-detection flag and index (R127, R140). -/
def selectTable (c : Config) (t : BitVec 4) (topo : Topology) (psd : Bool) (index : Word) : Word :=
  tableAddr c t.toNat psd (phaseIndex c topo index)

/-- `DIAG_PIN(p)` (R202); free where the configuration lists none (log 20). -/
def diagPinCode (c : Config) (p : Nat) : Word :=
  match c.diagPin[p]? with
  | some w => w
  | none => Config.freeDiagPin p

/-! ### Sequence-table entries (R76 to R78) -/

/-- `END = e[15]` -/
def entryEnd (e : Word) : Bool := e.getLsbD 15

/-- `TRIG = e[14:11]` -/
def entryTrig (e : Word) : BitVec 4 := e.extractLsb' 11 4

/-- `REF = e[10:8]` -/
def entryRef (e : Word) : BitVec 3 := e.extractLsb' 8 3

/-- `CH = e[7:0]` -/
def entryCh (e : Word) : BitVec 8 := e.extractLsb' 0 8

/-- `TRIG_SW` (R77) -/
def trigSw : BitVec 4 := 0#4

/-- `REF_OFF` (R77) -/
def refOff : BitVec 3 := 7#3

/-- `CH_NONE` (R78) -/
def chNone : BitVec 8 := 0xFF#8

/-- `CH_RAIL0` (R78) -/
def chRail0 : BitVec 8 := 0x08#8

/-- `CH_RAIL1` (R78) -/
def chRail1 : BitVec 8 := 0x09#8

/-- `CH_GPIO(p)` = 0x40 + p (R78) -/
def chGpio (p : Nat) : BitVec 8 := BitVec.ofNat 8 (0x40 + p)

/-- A channel selector R78 lists. -/
def channelListed (c : Config) (ch : BitVec 8) : Bool :=
  decide (ch.toNat ≤ 0x09) || (decide (0x40 ≤ ch.toNat) && decide (ch.toNat < 0x40 + c.nGpio)) || ch == chNone

/-- The three uses of a table (R139). -/
inductive TableMode where
  | sw
  | hw
  | any
deriving DecidableEq, Repr

/-- Conditions (2) and (4) of R139 on one entry. -/
def entryOk (c : Config) (mode : TableMode) (e : Word) : Bool :=
  channelListed c (entryCh e) && decide ((entryTrig e).toNat ≤ c.nHwEvent) &&
    (match mode with
      | .sw => entryTrig e == trigSw
      | .hw => true
      | .any => true)

/-- The entries from address `a` up to the first end-of-table marker, looking at no more than `fuel` words. -/
def scanTable (seq : Cells) : Nat → Nat → Option (List Word)
  | 0, _ => none
  | fuel + 1, a =>
    let e := Memory.read Memory.seqUnlisted seq a
    if entryEnd e then some [] else (scanTable seq fuel (a + 1)).map (e :: ·)

/-- The entries of the table at SEQ address `a`; `none` when no marker is found inside SEQ (R76, R139 (1)). -/
def tableEntries (c : Config) (a : Nat) : Option (List Word) := scanTable c.seq (c.seqWords - a) a

/-- `table_ok(a, d, mode)` (R139): a marker is found and the table is not empty, every entry is well-formed, and the last
result word is inside RES. -/
def tableOk (c : Config) (a d : Nat) (mode : TableMode) : Bool :=
  match tableEntries c a with
  | none => false
  | some es => decide (1 ≤ es.length) && es.all (entryOk c mode) && decide (d + es.length - 1 < c.resWords)

/-- SEQ holds the two words `e0`, `e1` at address `a`. -/
def seqHolds (c : Config) (a : Nat) (e0 e1 : Word) : Bool :=
  decide (a + 1 < c.seqWords) && Memory.read Memory.seqUnlisted c.seq a == e0 &&
    Memory.read Memory.seqUnlisted c.seq (a + 1) == e1

/-- The reference-off table stands at `REFOFF_TABLE` (R126). -/
def refoffOk (c : Config) : Bool := seqHolds c c.refoffTable.toNat 0x07FF#16 0x8000#16

/-- `ST_TABLE(ch) = SELFTEST_TABLE_BASE + 2 * ch`: R161's default placement. That it is the only placement, so that a platform
moves the tables by their base alone, is a DESIGN CHOICE (log 27). -/
def stTable (c : Config) (ch : BitVec 8) : Nat := c.selftestTableBase.toNat + 2 * ch.toNat

/-- The self-test table of channel `ch` stands at `ST_TABLE(ch)`, and S1 of `measure(ch)` accepts it (R161; log 13). -/
def stTableOk (c : Config) (ch : BitVec 8) : Bool :=
  seqHolds c (stTable c ch) (ch.setWidth 16) 0x8000#16 && tableOk c (stTable c ch) c.scratchBase.toNat .sw

end Sys2Proof.Machine
end

