-- ==== Sys2Proof/Machine/Flags.lean ====
section
/-! DEFINITION. Lines, status and arithmetic of results: the output lines (R192), the status word (R131), rounding
(R168), the response ranges (R79, R182), the sum of currents (R174), the temperature model (R177, R178). -/

namespace Sys2Proof.Machine

/-- `pend[g]` as every reader sees it: unimplemented bits read as 0 (R13, R15). -/
def State.readPend (s : State) (g : Group) : Word := s.ic.pend.get g &&& implementedBits s.cfg g

/-- `mask[g]` as every reader sees it: unimplemented bits read as 0 (R14, R15). -/
def State.readMask (s : State) (g : Group) : Word := s.ic.mask.get g &&& implementedBits s.cfg g

/-- `irq_out[g] = ((pend[g] & mask[g]) != 0)` (R192). -/
def State.irqOut (s : State) (g : Group) : Bool := s.readPend g &&& s.readMask g != 0#16

/-- `irq_adc = (eoc_pend == 1 and eoc_ie == 1)` (R192). -/
def State.irqAdc (s : State) : Bool := s.adc.eocPend && s.adc.eocIe

/-- Whether a line is high. -/
def State.lineHigh (s : State) : Line → Bool
  | .group g => s.irqOut g
  | .adc => s.irqAdc

/-- The line a first-level dispatcher with the priorities `FL_PRIORITY` serves next (R195, R197); no step reads it. -/
def State.nextLine (s : State) : Option Line := s.cfg.flPriority.find? fun l => s.lineHigh l

/-- A one-bit field of a status word. -/
def flagBit (v : Bool) (position : Nat) : Word := if v then 1#16 <<< position else 0#16

/-- `adc_state` in status reads: 0, 1, 2 (R19, R131). -/
def adcStateCode : AdcState → Word
  | .idle => 0#16
  | .runSW => 1#16
  | .runHW => 2#16

/-- `RSP0` of `ADC_RDSTAT` (R131). -/
def State.statusWord (s : State) : Word :=
  adcStateCode s.adc.state ||| flagBit s.adc.start 2 ||| flagBit s.adc.fePowered 3 ||| flagBit s.adc.eocPend 4 |||
    flagBit s.adc.eocIe 5 ||| flagBit s.cal.elecFault 6

/-- `rdiv(n, d) = floor((2 * n + d) / (2 * d))` for d > 0 (R168); `/` on integers is the floor for a positive divisor. -/
def rdiv (n : Int) (d : Nat) : Int := (2 * n + d) / (2 * d)

/-- A signed result fits its response word (R79, R182). -/
def fitsSigned (v : Int) : Bool := decide (-32768 ≤ v) && decide (v ≤ 32767)

/-- An unsigned result fits its response word (R182). -/
def fitsUnsigned (v : Nat) : Bool := decide (v ≤ 65535)

/-- `conv_v(k, raw)` (R170). -/
def convVolt (k : VoltConst) (raw : Word) : Int := rdiv ((raw.toNat - k.off) * k.gain) k.div

/-- `term(raw)`: the offset subtracted, clamped at zero (R174). -/
def currentTerm (zeroOff raw : Word) : Word := if zeroOff ≤ raw then raw - zeroOff else 0#16

/-- `cur_sum`: each term clamped, the sum wrapping mod 65536 (R174). -/
def currentSum (coils : Coils) (zeroOff rawA rawB : Word) : Word :=
  match coils with
  | .one => currentTerm zeroOff rawA
  | .two => currentTerm zeroOff rawA + currentTerm zeroOff rawB

/-- `floor(sum * CUR_GAIN / CUR_DIV)` (R176). -/
def scaledCurrent (c : Config) (sum : Word) : Nat := sum.toNat * c.curGain / c.curDiv

/-- `temp_naive(raw)`: two segments that meet at the anchor (R177). -/
def tempNaive (k : TempConst) (raw : Word) : Int :=
  let d : Int := raw.toNat - k.anchorCode
  if 0 ≤ d then k.anchorVal + rdiv (d * k.hiNum) k.hiDen else k.anchorVal + rdiv (d * k.loNum) k.loDen

/-- `limit(prev, new)`: a change above `T_JUMP` becomes one unit (R178). -/
def tempLimit (jump : Nat) (prev new : Int) : Int :=
  if (jump : Int) < new - prev then prev + 1 else if (jump : Int) < prev - new then prev - 1 else new

/-- `OFFSET_TOL` = 6 (R169). -/
def offsetTol : Nat := 6

/-- The difference of two raw codes, `abs(a - b)`. -/
def codeDistance (a b : Word) : Nat := (a.toNat - b.toNat : Int).natAbs

/-- Whether the measured offset is discarded: a stored one is available and differs by more than the tolerance (R165,
R169). -/
def offsetImplausible (k : Calibration) : Bool :=
  k.storedValid && decide (offsetTol < codeDistance k.measOff k.storedOff)

/-- A value lies in its inclusive band (R162, R163). -/
def bandHolds (b : Band) (v : Word) : Bool := decide (b.lo ≤ v) && decide (v ≤ b.hi)

/-- `floor((s1 + s2) / 2)`, without wrap (R164). -/
def averageCode (a b : Word) : Word := BitVec.ofNat 16 ((a.toNat + b.toNat) / 2)

/-- A drawn sample is a raw code of `ADC_BITS` bits (R136; log 8). -/
def sampleOf (c : Config) (draw : Word) : Word := draw &&& BitVec.ofNat 16 (2 ^ c.adcBits - 1)

end Sys2Proof.Machine
end

