-- ==== Sys2Proof/Machine/Ops.lean ====
section
/-! DEFINITION. The shared operations over the state: answers and refusals (R79, R204), the checks of R74, the interrupt
registers, the sequencer's bases, `settle()` (R138), the diagnostic log (R202), and the start, advance and end of a
multi-step operation (R56, R120). -/

namespace Sys2Proof.Machine

/-! ### Answers and refusals -/

/-- `respond(v0, v1)`: status `OK` (R7, R79). -/
def State.respond (s : State) (v0 v1 : Word) : State :=
  { s with port := { s.port with rsp := some { status := 0x00#8, rsp0 := v0, rsp1 := v1 } } }

/-- The answer to a refused command word: the reason's code, `RSP0 = RSP1 = 0`, no state changed (R204). -/
def State.answerRefusal (s : State) (code : BitVec 8) : State :=
  { s with port := { s.port with rsp := some { status := code, rsp0 := 0x0000#16, rsp1 := 0x0000#16 } } }

/-- The codes of R204; `none` for the model's own "no meaning". -/
def refusalCode : Refusal → Option (BitVec 8)
  | .illegalOp => some 0x01#8
  | .reservedField => some 0x02#8
  | .groupRange => some 0x03#8
  | .bitRange => some 0x04#8
  | .badState => some 0x05#8
  | .badTable => some 0x06#8
  | .addrRange => some 0x07#8
  | .badTopology => some 0x08#8
  | .resultRange => some 0x09#8
  | _ => none

/-- `require c else refuse r` (R74). -/
def require (c : Bool) (r : Refusal) (k : Result) : Result := if c then k else .refused r

/-- A group operand, else `GroupRange` (R75). -/
def withGroup (g : BitVec 4) (k : Group → Result) : Result :=
  match groupOfField g with
  | none => .refused .groupRange
  | some grp => k grp

/-- A source operand (g, b): the group, then `b < SRC_COUNT[g]`, else `BitRange` (R74, R75). -/
def withSource (g b : BitVec 4) (s : State) (k : Group → Result) : Result :=
  withGroup g fun grp => require (decide (b.toNat < s.cfg.srcCount.get grp)) .bitRange (k grp)

/-- A topology operand, else `BadTopology` (R75). -/
def withTopology (t : BitVec 4) (s : State) (k : Topology → Result) : Result :=
  match topologyOf s.cfg t with
  | none => .refused .badTopology
  | some topo => k topo

/-- A read of `RES[a]` by the block itself; outside RES it has no meaning (R53; log 14). -/
def withRes (s : State) (a : Nat) (k : Word → Result) : Result :=
  match s.readRes a with
  | none => .fault .resOutside
  | some w => k w

/-- The state precondition `adc_state == Idle and adc_busy_op == 0`, else `BadState` (R120). -/
def requireIdle (s : State) (k : Result) : Result :=
  require (s.adc.state == .idle && !s.adc.busyOp) .badState k

/-- The precondition of a table selection: R120 refuses it while an operation is in progress, R127 does not; the configuration
says which (log 12). -/
def requireSelectable (s : State) (k : Result) : Result :=
  require (!(s.cfg.busyRefusesSelect && s.adc.busyOp)) .badState k

/-- The state precondition of a stop: `adc_state in {Idle, RunHW}` and `adc_busy_op == 0` (R120, R125). -/
def requireStoppable (s : State) (k : Result) : Result :=
  require (s.adc.state != .runSW && !s.adc.busyOp) .badState k

/-! ### Interrupt registers -/

/-- `pend[g] <- pend[g] | bit(b)` (R92, R101). -/
def State.latch (s : State) (g : Group) (b : BitVec 4) : State :=
  { s with ic := { s.ic with pend := s.ic.pend.set g (s.ic.pend.get g ||| bitPattern b) } }

/-- `pend[g] <- pend[g] & ~bit(b)` (R94). -/
def State.unlatch (s : State) (g : Group) (b : BitVec 4) : State :=
  { s with ic := { s.ic with pend := s.ic.pend.set g (s.ic.pend.get g &&& ~~~ bitPattern b) } }

/-- `mask[g] <- mask[g] | bit(b)` (R92). -/
def State.allow (s : State) (g : Group) (b : BitVec 4) : State :=
  { s with ic := { s.ic with mask := s.ic.mask.set g (s.ic.mask.get g ||| bitPattern b) } }

/-- `mask[g] <- mask[g] & ~bit(b)` (R93). -/
def State.disallow (s : State) (g : Group) (b : BitVec 4) : State :=
  { s with ic := { s.ic with mask := s.ic.mask.set g (s.ic.mask.get g &&& ~~~ bitPattern b) } }

/-! ### Sequencer, log and pins -/

/-- `adc_sbase <- a; adc_dbase <- d; adc_idx <- 0` (R122 to R124). -/
def State.loadBases (s : State) (a d : Word) : State :=
  { s with adc := { s.adc with sbase := a, dbase := d, idx := 0x0000#16 } }

/-- S1 less its checks and `adc_busy_op`: bases, pointer, `adc_ctrl <- 0`, `adc_state <- RunSW` (R123, R161). -/
def State.startPass (s : State) (a d : Word) : State :=
  { s with adc := { s.adc with sbase := a, dbase := d, idx := 0x0000#16, ctrl := 0x0000#16, state := .runSW } }

/-- The effect of `settle()`: when it is done the front end is powered; a no-op when it was (R138). -/
def State.settle (s : State) : State := { s with adc := { s.adc with fePowered := true } }

/-- H3 less its answer: `adc_ctrl <- 0x0003; eoc_ie <- 1` (R124). -/
def State.armLoop (s : State) : State := { s with adc := { s.adc with ctrl := 0x0003#16, eocIe := true } }

/-- T4: `adc_ctrl <- 0x0000` (R125). -/
def State.clearCtrl (s : State) : State := { s with adc := { s.adc with ctrl := 0x0000#16 } }

/-- `adc_start <- 1`: a software trigger (R123 S3, R125 T2). -/
def State.trigger (s : State) : State := { s with adc := { s.adc with start := true } }

/-- `log(c)`: the code is appended to `diag_log` (R7, R37). -/
def State.logDiag (s : State) (code : Word) : State :=
  { s with cal := { s.cal with diagLog := s.cal.diagLog ++ [code] } }

/-- One bit of a pin register. -/
def setPin (v : BitVec 32) (p : Nat) (level : Bool) : BitVec 32 :=
  if level then v ||| (1#32 <<< p) else v &&& ~~~ (1#32 <<< p)

/-- `gpio_out[p] <- level` (R163). -/
def State.drivePin (s : State) (p : Nat) (level : Bool) : State :=
  { s with pins := { s.pins with gpioOut := setPin s.pins.gpioOut p level } }

/-- `if bad == 1: elec_fault <- 1; log(DIAG_RAIL)` (R162). -/
def State.recordRails (s : State) (v0 v1 : Word) : State :=
  if bandHolds s.cfg.rail0 v0 && bandHolds s.cfg.rail1 v1 then s
  else State.logDiag { s with cal := { s.cal with elecFault := true } } s.cfg.diagRail

/-- `if not ok: gpio_oe[p] <- 0; log(DIAG_PIN(p))` (R163). -/
def State.recordPin (s : State) (p : Nat) (vh vl : Word) : State :=
  if bandHolds s.cfg.pinHigh vh && bandHolds s.cfg.pinLow vl then s
  else State.logDiag { s with pins := { s.pins with gpioOe := setPin s.pins.gpioOe p false } } (diagPinCode s.cfg p)

/-- `zero_off <- stored_off` when the measurement is implausible, else `zero_off <- meas_off` (R165). -/
def State.validateOffset (s : State) : State :=
  { s with cal := { s.cal with
      zeroOff := if offsetImplausible s.cal then s.cal.storedOff else s.cal.measOff } }

/-! ### Multi-step operations -/

/-- The operation's last step: `adc_busy_op <- 0` and the answer (R79, R120). -/
def State.finishOp (s : State) (o : Operation) : State :=
  State.respond { s with adc := { s.adc with busyOp := false }, port := { s.port with op := none } }
    (match o.answer with
      | .nothing => 0x0000#16
      | .measOff => s.cal.measOff) 0x0000#16

/-- The operation goes on with phase `p`. -/
def State.advance (s : State) (p : Phase) (o : Operation) : State :=
  { s with port := { s.port with op := some { o with phase := p } } }

/-- The operation goes on with its next task, or ends when none is left. -/
def State.nextTask (s : State) (o : Operation) : State :=
  match o.todo with
  | [] => s.finishOp o
  | _ :: _ => s.advance .task o

/-- The operation as its first step leaves it. -/
def Operation.fresh (p : Phase) (todo : List Task) (answer : Answer) : Operation where
  phase := p
  todo := todo
  older := 0x0000#16
  newer := 0x0000#16
  answer := answer

/-- The first step of a multi-step operation: `adc_busy_op <- 1`; its command word has no answer yet (R79, R120). -/
def State.issueOp (s : State) (o : Operation) : State :=
  { s with adc := { s.adc with busyOp := true }, port := { s.port with op := some o, rsp := none } }

/-- A calibration operation begins with its first task; without any task it is done at once. -/
def State.issueTasks (s : State) (todo : List Task) (answer : Answer) : State :=
  (s.issueOp (Operation.fresh .task todo answer)).nextTask (Operation.fresh .task todo answer)

/-! ### Inputs -/

/-- The input this step takes: the oldest pending one, or a free one (R41; log 1). -/
def State.nextInput (s : State) : Input :=
  match s.port.inputs with
  | [] => Config.freeInput s.port.tick
  | x :: _ => x

/-- The state with that input taken. -/
def State.dropInput (s : State) : State :=
  match s.port.inputs with
  | [] => { s with port := { s.port with tick := s.port.tick + 1 } }
  | _ :: rest => { s with port := { s.port with inputs := rest } }

end Sys2Proof.Machine
end

