-- ==== Sys2Proof/Machine/Calibration.lean ====
section
/-! DEFINITION. The self-test and zero-offset operations (R160 to R166): what each does in its first step; its tasks are
carried out in Operation. -/

namespace Sys2Proof.Machine

/-- The tasks of `CAL_RAILS`: both rails are measured, rail 0 first, then the verdict (R162). -/
def railsTasks : List Task := [.measure chRail0, .measure chRail1, .railsVerdict]

/-- The tasks of `CAL_PINS`: one turn of the loop for each pin, ascending (R163). -/
def pinsTasks (c : Config) : List Task := (List.range c.nGpio).map Task.pin

/-- What one turn does for a pin configured as an output, whose driven level was `orig` (R163). -/
def pinCheck (p : Nat) (orig : Bool) : List Task :=
  [.drivePin p true, .measure (chGpio p), .drivePin p orig, .drivePin p false, .measure (chGpio p), .drivePin p orig,
    .pinVerdict p]

/-- The tasks of `CAL_MEASURE_OFFSET` (R164). -/
def offsetTasks : List Task := [.forceDriver]

/-- What follows the forcing of the driver stage, whose configuration was `saved` (R164). -/
def offsetMeasure (c : Config) (saved : Word) : List Task :=
  [.measure c.chZero, .measure c.chZero, .restoreDriver saved, .averageOffset]

/-- The self-test tables of both rails are present (R161, R162). -/
def railTablesOk (s : State) : Bool := stTableOk s.cfg chRail0 && stTableOk s.cfg chRail1

/-- The self-test table of every pin configured as an output is present (R161, R163). -/
def pinTablesOk (s : State) : Bool :=
  (List.range s.cfg.nGpio).all fun p => !s.pins.gpioOe.getLsbD p || stTableOk s.cfg (chGpio p)

/-- The self-test table of `CH_ZERO` is present (R161, R164). -/
def zeroTableOk (s : State) : Bool := stTableOk s.cfg s.cfg.chZero

/-- `CAL_RAILS` (R162), its first step. -/
def execCalRails (s : State) : Result :=
  requireIdle s <| require (railTablesOk s) .badTable <| .next (s.issueTasks railsTasks .nothing)

/-- `CAL_PINS` (R163), its first step. -/
def execCalPins (s : State) : Result :=
  requireIdle s <| require (pinTablesOk s) .badTable <| .next (s.issueTasks (pinsTasks s.cfg) .nothing)

/-- `CAL_MEASURE_OFFSET` (R164), its first step. -/
def execCalMeasureOffset (s : State) : Result :=
  requireIdle s <| require (zeroTableOk s) .badTable <| .next (s.issueTasks offsetTasks .measOff)

/-- `CAL_VALIDATE_OFFSET` (R165): one atomic step. -/
def execCalValidateOffset (s : State) : Result :=
  requireIdle s <| .next (s.validateOffset.respond s.validateOffset.cal.zeroOff 0)

/-- `CAL_SELFTEST` (R166): the four operations in order, `adc_busy_op` held throughout; its first step. -/
def execCalSelftest (s : State) : Result :=
  requireIdle s <| require (railTablesOk s && pinTablesOk s && zeroTableOk s) .badTable <|
    .next (s.issueTasks (railsTasks ++ pinsTasks s.cfg ++ offsetTasks ++ [.validateOffset]) .nothing)

end Sys2Proof.Machine
end

