-- ==== Sys2Proof/Machine/Conversion.lean ====
section
/-! DEFINITION. The conversion operations (R170 to R180): each converts what the Results Record holds (R28) and starts no
conversion. -/

namespace Sys2Proof.Machine

/-- The word `RES[RESULTS_BASE + offset]` of the Results Record (R28). -/
def withField (s : State) (offset : Nat) (k : Word → Result) : Result := withRes s (s.cfg.resultsBase.toNat + offset) k

/-- A signed result in 16-bit two's complement, or `ResultRange` (R79, R182). -/
def respondSigned (s : State) (v : Int) : Result :=
  require (fitsSigned v) .resultRange <| .next (s.respond (BitVec.ofInt 16 v) 0)

/-- `GET_SUPPLY_V` (R171): field `R_VS_F`. -/
def execGetSupplyV (s : State) : Result := withField s 0 fun raw => respondSigned s (convVolt s.cfg.supply raw)

/-- `GET_MOTOR_V` (R172): field `R_VDRV_F`. -/
def execGetMotorV (s : State) : Result := withField s 1 fun raw => respondSigned s (convVolt s.cfg.motor raw)

/-- `GET_PHASE_V` (R173): field `R_VPH_UNF`. -/
def execGetPhaseV (s : State) : Result := withField s 7 fun raw => respondSigned s (convVolt s.cfg.phase raw)

/-- The temperature reported for a raw code: the naive value on a first call, else the limited one (R179). -/
def reportedTemp (s : State) (first : Bool) (raw : Word) : Int :=
  if first then tempNaive s.cfg.temp raw
  else tempLimit s.cfg.temp.jump s.cal.lastTemp.toInt (tempNaive s.cfg.temp raw)

/-- `GET_CHIP_TEMP first` (R179): field `R_TEMP`; the reported value becomes `last_temp`. -/
def execGetChipTemp (first : Bool) (s : State) : Result :=
  withField s 2 fun raw =>
    respondSigned
      { s with cal := { s.cal with lastTemp := BitVec.ofInt 16 (reportedTemp s first raw) } } (reportedTemp s first raw)

/-- The record offset of coil A's current field (R28, R174). -/
def coilAField (c : Config) : Nat :=
  match c.curSrc with
  | .unfiltered => 3
  | .filtered => 4

/-- The record offset of coil B's current field (R28, R174). -/
def coilBField (c : Config) : Nat :=
  match c.curSrc with
  | .unfiltered => 5
  | .filtered => 6

/-- `cur_sum(t)`: both fields read in one atomic step (R65, R174). -/
def withCurrentSum (t : BitVec 4) (s : State) (k : Word → Result) : Result :=
  withTopology t s fun topo =>
    withField s (coilAField s.cfg) fun rawA =>
      withField s (coilBField s.cfg) fun rawB =>
        k (currentSum topo.coils s.cal.zeroOff rawA rawB)

/-- `GET_CUR_RAW t` (R175). -/
def execGetCurRaw (t : BitVec 4) (s : State) : Result := withCurrentSum t s fun sum => .next (s.respond sum 0)

/-- `GET_CUR_SCALED t` (R176). -/
def execGetCurScaled (t : BitVec 4) (s : State) : Result :=
  withCurrentSum t s fun sum =>
    require (fitsUnsigned (scaledCurrent s.cfg sum)) .resultRange <|
      .next (s.respond (BitVec.ofNat 16 (scaledCurrent s.cfg sum)) 0)

end Sys2Proof.Machine
end

