-- ==== Sys2Proof/Machine/Interrupt.lean ====
section
/-! DEFINITION. The operations of the interrupt controller (R91 to R97) and the source event (R101). -/

namespace Sys2Proof.Machine

/-- `IC_INIT` (R91): every mask and every pending register becomes 0x0000. -/
def execIcInit (s : State) : Result :=
  .next (State.respond { s with ic := { mask := PerGroup.all 0x0000#16, pend := PerGroup.all 0x0000#16 } } 0 0)

/-- `IC_ENABLE g, b` (R92): sets the source's pending bit and its mask bit. -/
def execIcEnable (g b : BitVec 4) (s : State) : Result :=
  withSource g b s fun grp => .next (((s.latch grp b).allow grp b).respond 0 0)

/-- `IC_DISABLE g, b` (R93): clears the mask bit only. -/
def execIcDisable (g b : BitVec 4) (s : State) : Result :=
  withSource g b s fun grp => .next ((s.disallow grp b).respond 0 0)

/-- `IC_ACK g, b` (R94): clears the pending bit only. -/
def execIcAck (g b : BitVec 4) (s : State) : Result :=
  withSource g b s fun grp => .next ((s.unlatch grp b).respond 0 0)

/-- The answer of the dispatch lookup: valid bit, bit index and handler id of the lowest pending and enabled source
(R79, R97). -/
def vectorAnswer (s : State) (g : Group) : Word × Word :=
  match lowestBit (s.readPend g &&& s.readMask g) with
  | none => (0x0000#16, 0x0000#16)
  | some b => (0x8000#16 ||| b.setWidth 16, handlerOf s.cfg g b)

/-- `IC_VECTOR g` (R97): the dispatch lookup; it acknowledges nothing and masks nothing. -/
def execIcVector (g : BitVec 4) (s : State) : Result :=
  withGroup g fun grp => .next (s.respond (vectorAnswer s grp).1 (vectorAnswer s grp).2)

/-- `IC_RDPEND g` (R95). -/
def execIcRdpend (g : BitVec 4) (s : State) : Result :=
  withGroup g fun grp => .next (s.respond (s.readPend grp) 0)

/-- `IC_RDMASK g` (R96). -/
def execIcRdmask (g : BitVec 4) (s : State) : Result :=
  withGroup g fun grp => .next (s.respond (s.readMask grp) 0)

/-- `SRC_EVENT(g, b)` (R101): the condition is latched whether or not the source is enabled. There is no source at an
unimplemented position (R15), so nothing happens there. -/
def sourceEvent (g : Group) (b : BitVec 4) (s : State) : State :=
  if b.toNat < s.cfg.srcCount.get g then s.latch g b else s

end Sys2Proof.Machine
end

