-- ==== Sys2Proof/Machine/Sequencer.lean ====
section
/-! DEFINITION. The operations of the ADC sequencer (R121 to R132): what each does in its first step; the steps after
the first are in Operation. -/

namespace Sys2Proof.Machine

/-- `ADC_INIT` (R121). -/
def execAdcInit (s : State) : Result :=
  requireIdle s <| .next <| State.respond
    { s with
      adc := { s.adc with
        ctrl := 0x0000#16, sbase := 0x0000#16, dbase := 0x0000#16, idx := 0x0000#16, start := false, inflight := false,
        eocPend := false, eocIe := false, fePowered := false }
      cal := { s.cal with
        zeroOff := if s.cal.storedValid then s.cal.storedOff else 0x0000#16
        measOff := 0x0000#16, lastTemp := 0x0000#16, elecFault := false, diagLog := [] } } 0 0

/-- `ADC_CONFIGURE table, dest` (R122). -/
def execAdcConfigure (table dest : Word) (s : State) : Result :=
  requireIdle s <| require (tableOk s.cfg table.toNat dest.toNat .any) .badTable <|
    .next ((s.loadBases table dest).respond 0 0)

/-- `ADC_START_SW table, dest` (R123), step S1; S2 to S5 follow as the operation in progress. -/
def execAdcStartSw (table dest : Word) (s : State) : Result :=
  requireIdle s <| require (tableOk s.cfg table.toNat dest.toNat .sw) .badTable <|
    .next ((s.startPass table dest).issueOp (Operation.fresh .swSettle [] .nothing))

/-- `ADC_START_HW` (R124): with the front end powered there is nothing to wait for and the operation is one atomic step
(R56; log 11); otherwise this is H1, and `settle()` and H3 follow. -/
def startLoop (table dest : Word) (s : State) : Result :=
  requireIdle s <| require (tableOk s.cfg table.toNat dest.toNat .hw) .badTable <|
    let s1 := s.loadBases table dest
    let s2 : State := { s1 with adc := { s1.adc with state := .runHW } }
    if s.adc.fePowered then .next (s2.armLoop.respond 0 0)
    else .next (s2.issueOp (Operation.fresh .hwSettle [] .nothing))

/-- `ADC_START_HW table, dest` (R124). -/
def execAdcStartHw (table dest : Word) (s : State) : Result := startLoop table dest s

/-- The first step of a stop (R125): from `RunHW` T1, which disables hardware triggering; from `Idle` T4, since there is
nothing to drain. `todo` is what follows T6. -/
def stopFirst (todo : List Task) (s : State) : State :=
  if s.adc.state == .runHW then
    State.issueOp { s with adc := { s.adc with ctrl := s.adc.ctrl &&& ~~~ 0x0001#16 } }
      (Operation.fresh .drainTrigger todo .nothing)
  else s.clearCtrl.issueOp (Operation.fresh .stopEoc todo .nothing)

/-- `ADC_STOP` (R125), its first step. -/
def execAdcStop (s : State) : Result := requireStoppable s <| .next (stopFirst [] s)

/-- `ADC_POWER_OFF` (R126): P1 is the stop, then the reference-off micro-sequence; its table must stand at
`REFOFF_TABLE`. -/
def execAdcPowerOff (s : State) : Result :=
  requireStoppable s <| require (refoffOk s.cfg) .badTable <| .next (stopFirst [.refOff] s)

/-- `ADC_SELECT_TABLE t, psd, index` (R127, R140): writes nothing, and needs no state of the sequencer. Whether an operation in
progress refuses it (R120) is a parameter, since the spec's sentences disagree (log 12). -/
def execAdcSelectTable (t : BitVec 4) (psd : Bool) (index : Word) (s : State) : Result :=
  withTopology t s fun topo => requireSelectable s <| .next (s.respond (selectTable s.cfg t topo psd index) 0)

/-- `ADC_START t, index` (R128): the table of `PSD_EN`, then `ADC_START_HW` into the Results Record. -/
def execAdcStart (t : BitVec 4) (index : Word) (s : State) : Result :=
  withTopology t s fun topo => startLoop (selectTable s.cfg t topo s.cfg.psdEn index) s.cfg.resultsBase s

/-- `ADC_EOC_IE en` (R129). -/
def execAdcEocIe (en : Bool) (s : State) : Result :=
  .next (State.respond { s with adc := { s.adc with eocIe := en } } 0 0)

/-- `ADC_EOC_ACK` (R130). -/
def execAdcEocAck (s : State) : Result :=
  .next (State.respond { s with adc := { s.adc with eocPend := false } } 0 0)

/-- `ADC_RDSTAT` (R131). -/
def execAdcRdstat (s : State) : Result := .next (s.respond s.statusWord s.adc.ctrl)

/-- `ADC_RDRES address` (R132): outside RES the operation is refused. -/
def execAdcRdres (address : Word) (s : State) : Result :=
  match s.readRes address.toNat with
  | none => .refused .addrRange
  | some w => .next (s.respond w 0)

end Sys2Proof.Machine
end

