-- ==== Sys2Proof/Machine/Dispatch.lean ====
section
/-! DEFINITION. One arm per operation: what a command word that decodes to it does in its first atomic step (R56, R72). -/

namespace Sys2Proof.Machine

def exec (i : Instr) (s : State) : Host.Outcome State Fault Refusal :=
  match i with
  -- interrupt controller
  | .icInit => Sys2Proof.Machine.execIcInit s
  | .icEnable g b => Sys2Proof.Machine.execIcEnable g b s
  | .icDisable g b => Sys2Proof.Machine.execIcDisable g b s
  | .icAck g b => Sys2Proof.Machine.execIcAck g b s
  | .icVector g => Sys2Proof.Machine.execIcVector g s
  | .icRdpend g => Sys2Proof.Machine.execIcRdpend g s
  | .icRdmask g => Sys2Proof.Machine.execIcRdmask g s
  -- ADC sequencer
  | .adcInit => Sys2Proof.Machine.execAdcInit s
  | .adcConfigure table dest => Sys2Proof.Machine.execAdcConfigure table dest s
  | .adcStartSw table dest => Sys2Proof.Machine.execAdcStartSw table dest s
  | .adcStartHw table dest => Sys2Proof.Machine.execAdcStartHw table dest s
  | .adcStop => Sys2Proof.Machine.execAdcStop s
  | .adcPowerOff => Sys2Proof.Machine.execAdcPowerOff s
  | .adcSelectTable t psd index => Sys2Proof.Machine.execAdcSelectTable t psd index s
  | .adcStart t index => Sys2Proof.Machine.execAdcStart t index s
  | .adcEocIe en => Sys2Proof.Machine.execAdcEocIe en s
  | .adcEocAck => Sys2Proof.Machine.execAdcEocAck s
  | .adcRdstat => Sys2Proof.Machine.execAdcRdstat s
  | .adcRdres address => Sys2Proof.Machine.execAdcRdres address s
  -- calibration
  | .calRails => Sys2Proof.Machine.execCalRails s
  | .calPins => Sys2Proof.Machine.execCalPins s
  | .calMeasureOffset => Sys2Proof.Machine.execCalMeasureOffset s
  | .calValidateOffset => Sys2Proof.Machine.execCalValidateOffset s
  | .calSelftest => Sys2Proof.Machine.execCalSelftest s
  -- conversion
  | .getSupplyV => Sys2Proof.Machine.execGetSupplyV s
  | .getMotorV => Sys2Proof.Machine.execGetMotorV s
  | .getPhaseV => Sys2Proof.Machine.execGetPhaseV s
  | .getChipTemp first => Sys2Proof.Machine.execGetChipTemp first s
  | .getCurRaw t => Sys2Proof.Machine.execGetCurRaw t s
  | .getCurScaled t => Sys2Proof.Machine.execGetCurScaled t s

end Sys2Proof.Machine
end

