-- ==== Sys2Proof/Machine/Engine.lean ====
section
/-! DEFINITION. The conversion engine: its begin step, its complete step and the end of a pass (R133 to R137). -/

namespace Sys2Proof.Machine

/-- `adc_ctrl[0]`, `HWTRIG_EN` (R20). -/
def Sequencer.hwTrigEn (q : Sequencer) : Bool := q.ctrl.getLsbD 0

/-- `adc_ctrl[1]`, `LOOP` (R20). -/
def Sequencer.loops (q : Sequencer) : Bool := q.ctrl.getLsbD 1

/-- `drain` (R133). -/
def Sequencer.drain (q : Sequencer) : Bool := q.state == .runHW && !q.hwTrigEn && q.start

/-- `armed` (R133). -/
def Sequencer.armed (q : Sequencer) : Bool := q.start || (q.state == .runHW && q.hwTrigEn)

/-- `entry(k) = SEQ[u16(adc_sbase + k)]`; `none` outside SEQ (R53, R133). -/
def State.entry (s : State) (k : Word) : Option Word := s.readSeq (s.adc.sbase + k).toNat

/-- The entry's trigger condition holds (R134). `event` is the hardware event produced at this step, if any; an event
begins only an entry that waits for it (log 16). -/
def triggerHolds (s : State) (e : Word) (event : Option (BitVec 4)) : Bool :=
  match event with
  | none => entryTrig e == trigSw || s.adc.drain
  | some n => n != trigSw && decide (n.toNat ≤ s.cfg.nHwEvent) && entryTrig e == n && s.adc.hwTrigEn

/-- The engine may begin a conversion as far as its own state goes (R134). -/
def Sequencer.mayBegin (q : Sequencer) : Bool := q.state != .idle && !q.inflight && q.armed

/-- `ADC_BEGIN` (R134): where the step is not enabled nothing happens, and an event is not remembered. -/
def engineBegin (event : Option (BitVec 4)) (s : State) : Result :=
  if s.adc.mayBegin then
    match s.entry s.adc.idx with
    | none => .fault .seqOutside
    | some e =>
      if !entryEnd e && triggerHolds s e event then
        .next { s with adc := { s.adc with cur := e, inflight := true } }
      else .next s
  else .next s

/-- `end_of_pass()` (R137). -/
def Sequencer.endOfPass (q : Sequencer) : Sequencer :=
  { q with
    eocPend := true
    start := if q.state == .runSW then false else q.start
    idx := if q.loops then 0x0000#16 else q.idx }

/-- The result store of a complete step: no word for `CH_NONE` (R135). -/
def State.storeSample (s : State) (w : Word) : Option State :=
  if entryCh s.adc.cur == chNone then some s else s.writeRes (s.adc.dbase + s.adc.idx).toNat w

/-- The sequencer after a complete step; `lastEntry` says the next entry is the end-of-table marker (R135). -/
def Sequencer.completed (q : Sequencer) (lastEntry : Bool) : Sequencer :=
  let q1 := { q with
    fePowered := if entryRef q.cur == refOff then false else q.fePowered
    inflight := false
    idx := q.idx + 1 }
  let q2 := if lastEntry then q1.endOfPass else q1
  { q2 with start := if q.state == .runHW && !q.hwTrigEn then false else q2.start }

/-- `ADC_COMPLETE` (R135): enabled iff a conversion is in flight; `draw` is the environment's choice (R136). -/
def engineComplete (draw : Word) (s : State) : Result :=
  if s.adc.inflight then
    match s.storeSample (sampleOf s.cfg draw) with
    | none => .fault .resOutside
    | some s1 =>
      match s.entry (s.adc.idx + 1) with
      | none => .fault .seqOutside
      | some e => .next { s1 with adc := s.adc.completed (entryEnd e) }
  else .next s

end Sys2Proof.Machine
end

