-- ==== Sys2Proof/Machine/Operation.lean ====
section
/-! DEFINITION. The steps of a multi-step operation after its first (R56): S2 to S5, H2 and H3, T2 to T6, P2 to P4, and
the tasks of the calibration operations. -/

namespace Sys2Proof.Machine

/-- The end of a software pass (S5, P4): `adc_state <- Idle`. A pass of `measure` hands its result `RES[SCRATCH_BASE]` to
the task after it (R161); any other pass was the operation's last. -/
def passDone (o : Operation) (s : State) : Result :=
  let s1 : State := { s with adc := { s.adc with state := .idle } }
  match o.todo with
  | [] => .next (s1.finishOp o)
  | _ :: _ =>
    withRes s s.cfg.scratchBase.toNat fun v => .next (s1.advance .task { o with older := o.newer, newer := v })

/-- T6: `adc_state <- Idle; adc_idx <- 0` (R125). -/
def stopDone (o : Operation) (s : State) : State :=
  State.nextTask { s with adc := { s.adc with state := .idle, idx := 0x0000#16 } } o

/-- P2: bases, pointer, `adc_state <- RunSW; adc_start <- 1`, no `settle()` (R126). -/
def State.startRefOff (s : State) : State :=
  { s with adc := { s.adc with
      sbase := s.cfg.refoffTable, dbase := 0x0000#16, idx := 0x0000#16, state := .runSW, start := true } }

/-- One task of an operation; `o` is the operation with that task taken off its list. -/
def runTask (t : Task) (o : Operation) (s : State) : State :=
  match t with
  | .refOff => s.startRefOff.advance .swWait o
  | .measure ch => (s.startPass (BitVec.ofNat 16 (stTable s.cfg ch)) s.cfg.scratchBase).advance .swSettle o
  | .railsVerdict => (s.recordRails o.older o.newer).nextTask o
  | .pin p =>
    s.nextTask { o with
      todo := (if s.pins.gpioOe.getLsbD p then pinCheck p (s.pins.gpioOut.getLsbD p) else []) ++ o.todo }
  | .drivePin p level => (s.drivePin p level).nextTask o
  | .pinVerdict p => (s.recordPin p o.older o.newer).nextTask o
  | .forceDriver =>
    State.nextTask { s with pins := { s.pins with drvCfg := s.cfg.drvActiveCfg } }
      { o with todo := offsetMeasure s.cfg s.pins.drvCfg ++ o.todo }
  | .restoreDriver saved => State.nextTask { s with pins := { s.pins with drvCfg := saved } } o
  | .averageOffset => State.nextTask { s with cal := { s.cal with measOff := averageCode o.older o.newer } } o
  | .validateOffset => s.validateOffset.nextTask o

/-- The next step of the operation `o`. A wait whose flag is still set changes nothing, and has no other exit (R142). -/
def runPhase (o : Operation) (s : State) : Result :=
  match o.phase with
  | .swSettle => .next (s.settle.advance .swTrigger o)
  | .swTrigger => .next (s.trigger.advance .swWait o)
  | .swWait => .next (if s.adc.start then s else s.advance .swFinish o)
  | .swFinish => passDone o s
  | .hwSettle => .next (s.settle.advance .hwArm o)
  | .hwArm => .next (s.armLoop.finishOp o)
  | .drainTrigger => .next (s.trigger.advance .drainWait o)
  | .drainWait => .next (if s.adc.start then s else s.advance .stopCtrl o)
  | .stopCtrl => .next (s.clearCtrl.advance .stopEoc o)
  | .stopEoc => .next (State.advance { s with adc := { s.adc with eocIe := false } } .stopIdle o)
  | .stopIdle => .next (stopDone o s)
  | .task =>
    match o.todo with
    | [] => .next (s.finishOp o)
    | t :: rest => .next (runTask t { o with todo := rest } s)

/-- The context whose operation is in progress takes the operation's next step; without one there is no such step. -/
def proceed (s : State) : Result :=
  match s.port.op with
  | none => .next s
  | some o => runPhase o s

end Sys2Proof.Machine
end

