-- ==== Sys2Proof/Machine/Command.lean ====
section
/-! DEFINITION. A command word presented to the block (R70, R73, R79), and what each input does, one
after another too. -/

namespace Sys2Proof.Machine

/-- The refusal a decoding error is (R73). -/
def refusalOfDecode : DecodeError → Refusal
  | .illegalOp => .illegalOp
  | .reservedField => .reservedField

/-- A refused command word is answered and changes nothing; the machine goes on (R73, R79, R204; log 2). -/
def answerRefused (r : Refusal) (s : State) : Result :=
  match refusalCode r with
  | some code => .next (s.answerRefusal code)
  | none => .refused r

/-- One command word: decoded, carried out, and answered when it is refused (R74). -/
def runCommand (cw : CommandWord) (s : State) : Result :=
  match decode cw with
  | .error e => answerRefused (refusalOfDecode e) s
  | .ok i =>
    match exec i s with
    | .next t => .next t
    | .fault f => .fault f
    | .refused r => answerRefused r s

/-- One atomic step of the agent the input names (R10, R60). -/
def runInput (x : Input) (s : State) : Result :=
  match x with
  | .command cw => runCommand cw s
  | .proceed => proceed s
  | .source g b => .next (sourceEvent g b s)
  | .hwEvent n => engineBegin (some n) s
  | .engineBegin => engineBegin none s
  | .engineComplete draw => engineComplete draw s

/-- The block takes the inputs `xs` one after another, one atomic step each. -/
def runInputs (s : State) (xs : List Input) : Result :=
  match xs with
  | [] => .next s
  | x :: rest =>
    match runInput x s with
    | .next t => runInputs t rest
    | .fault f => .fault f
    | .refused r => .refused r

/-- The state with a command word as its next input (R70). -/
def State.pushCommand (s : State) (cw : CommandWord) : State :=
  { s with port := { s.port with inputs := .command cw :: s.port.inputs } }

end Sys2Proof.Machine
end

