-- ==== Sys2Proof/Machine/Step.lean ====
section
/-! DEFINITION. One step of the block: the next input is taken, and the agent it names makes its atomic step (R60). -/

namespace Sys2Proof.Machine

/-- One atomic step (R60; log 1). -/
def step (s : State) : Host.Outcome State Fault Refusal := runInput s.nextInput s.dropInput

/-- `s` with the command word of an opcode-table row as its next input, so that the next step is that operation's first.
The table numbers a row's bits as the 48-bit command word does; bits at and above `nbits` are zero. -/
def State.withFetchWord (s : State) (nbits w : Nat) : State := s.pushCommand (BitVec.ofNat 48 (w % 2 ^ nbits))

end Sys2Proof.Machine
end

