-- ==== Sys2Proof/Machine/Dispatcher.lean ====
section
/-! DEFINITION. The first-level dispatcher's service of one group line, the pseudo-operation `DISPATCH g` (R82, R98), and of
the completion line (R197), as procedures over the operations, with what the handlers owe (R198). The dispatcher and the
handlers are outside the block and act on it only by issuing command words (R10), so no step of the block calls these; they
are here so that statements about dispatch can be made. -/

namespace Sys2Proof.Machine

/-- What happens while a handler runs, given the state it is invoked in: the inputs from its invocation to its return, oldest
first, which are its own command words, the later steps of its own multi-step operations, and whatever other agents do
meanwhile; `none` for a handler that does not return (R205). DESIGN CHOICE (log 21): handler bodies are outside the spec, so
this is a parameter of a statement, never a part of the state. -/
abbrev HandlerRun := State → Option (List Input)

/-- The handler issues `x` whenever it returns. -/
def HandlerRun.issues (r : HandlerRun) (x : Input) : Prop := ∀ s xs, r s = some xs → x ∈ xs

/-- The state a handler leaves when it returns; `none` when it does not return or the machine stops. -/
def HandlerRun.result (r : HandlerRun) (s : State) : Option State :=
  match r s with
  | none => none
  | some xs =>
    match runInputs s xs with
    | .next t => some t
    | .fault _ => none
    | .refused _ => none

/-- The handlers of the group lines: one for each id and source (R17, R197). -/
abbrev Handlers := Word → Group → BitVec 4 → HandlerRun

/-- The default handler performs no state change, whatever the other handlers do (R100). -/
def Handlers.withDefault (h : Handlers) : Handlers := fun id g b s => if id = 0x0000#16 then some [] else h id g b s

/-- The command word every handler of source (g, b) owes: its acknowledge (R198). -/
def acknowledgeWord (g : Group) (b : BitVec 4) : Input := .command (encode (.icAck (fieldOfGroup g) b))

/-- Every handler of a group line that returns has issued its acknowledge (R198); it may issue any other operation besides. -/
def Handlers.fulfilObligation (h : Handlers) : Prop := ∀ id g b, (h id g b).issues (acknowledgeWord g b)

/-- The command word the one completion handler owes (R130, R198). -/
def completionAcknowledgeWord : Input := .command (encode .adcEocAck)

/-- The completion handler that returns has issued `ADC_EOC_ACK` (R198); it may issue any other operation besides. -/
def HandlerRun.fulfilsCompletionObligation (r : HandlerRun) : Prop := r.issues completionAcknowledgeWord

/-- The completion handler issues the one acknowledge it owes and nothing else, and no other agent steps meanwhile (R198). -/
def HandlerRun.acknowledgingCompletion : HandlerRun := fun _ => some [completionAcknowledgeWord]

/-- Every handler issues the one acknowledge it owes and nothing else, and no other agent steps meanwhile (R198). -/
def Handlers.acknowledging : Handlers := fun _ g b _ => some [acknowledgeWord g b]

/-- The inputs of one context that issues the operations `ops` in turn, each multi-step one carried to its answer before
the next is issued (R56, R79); `own` says that the operation in progress is this context's. `env` gives each input that
comes while it waits: its own next step (`proceed`), the engine's, or another agent's. An operation in progress that is not
its own (the preempted context's) is not waited for, and refuses what R120 says it refuses. `none` when `fuel` inputs are
not enough (a hang, R205) or the machine stops. DESIGN CHOICE (log 21). -/
def carryThrough (env : State → Input) : (fuel : Nat) → (own : Bool) → List Instr → State → Option (List Input)
  | 0, _, _, _ => none
  | fuel + 1, own, ops, s =>
    if own && s.port.op.isSome then
      match runInput (env s) s with
      | .next t => (carryThrough env fuel true ops t).map (env s :: ·)
      | .fault _ => none
      | .refused _ => none
    else
      match ops with
      | [] => some []
      | i :: rest =>
        match runInput (.command (encode i)) s with
        | .next t => (carryThrough env fuel s.port.op.isNone rest t).map (.command (encode i) :: ·)
        | .fault _ => none
        | .refused _ => none

/-- A handler that is the program `ops`, carried through (R198). -/
def HandlerRun.ofProgram (env : State → Input) (fuel : Nat) (ops : List Instr) : HandlerRun :=
  fun s => carryThrough env fuel false ops s

/-- Handlers that are programs: the operations `ops` gives each, carried through (R198). -/
def Handlers.ofPrograms (env : State → Input) (fuel : Nat) (ops : Word → Group → BitVec 4 → List Instr) : Handlers :=
  fun id g b => HandlerRun.ofProgram env fuel (ops id g b)

/-- How a service of a line ends: the handlers invoked, in order, each with its bit index, and the state the dispatcher
leaves behind; `none` when the turns allowed are used up, a handler does not return, or the machine stops, before the line
is quiet. -/
structure Service where
  invoked : List (Word × BitVec 4)
  final : Option State

/-- `DISPATCH g` with at most `turns` turns: look up (R97); stop when the answer is not valid; else invoke the handler
returned with (g, b) and look up again when it has returned (R98). DESIGN CHOICE (log 21): other agents step while a handler
runs, as `Handlers` says, and not between its return and the next lookup. -/
def dispatch (h : Handlers) (g : Group) : Nat → State → Service
  | 0, _ => { invoked := [], final := none }
  | turns + 1, s =>
    let a := vectorAnswer s g
    let s1 := s.respond a.1 a.2
    if a.1.getLsbD 15 then
      let b := a.1.extractLsb' 0 4
      match (h.withDefault a.2 g b).result s1 with
      | none => { invoked := [(a.2, b)], final := none }
      | some t =>
        let r := dispatch h g turns t
        { invoked := (a.2, b) :: r.invoked, final := r.final }
    else { invoked := [], final := some s1 }

/-- How a service of the completion line ends: how often its handler was invoked, and the state left behind, as in
`Service`. -/
structure CompletionService where
  invoked : Nat
  final : Option State

/-- The service of `irq_adc` with at most `turns` turns: the line is level-sensitive and needs no lookup, so while it is high
the one completion handler is invoked, and invoked again if it has returned with the line still high (R130, R192, R197,
R199). DESIGN CHOICE (log 21): as for `dispatch`. -/
def serveCompletion (r : HandlerRun) : Nat → State → CompletionService
  | 0, _ => { invoked := 0, final := none }
  | turns + 1, s =>
    if s.irqAdc then
      match r.result s with
      | none => { invoked := 1, final := none }
      | some t =>
        let after := serveCompletion r turns t
        { invoked := after.invoked + 1, final := after.final }
    else { invoked := 0, final := some s }

end Sys2Proof.Machine
end

