-- ==== Sys2Proof/WellFormed.lean ====
section
/-! DEFINITION. The operand ranges of R75 as a check on an operation under a configuration: check (3) of R74. An
operation that fails it is a real command word (it decodes), which the block refuses under the name found here. -/

namespace Sys2Proof

/-- Why an operand is out of range (R75). -/
inductive OperandError where
  | groupRange
  | bitRange
  | badTopology
  | addrRange
deriving DecidableEq, Repr

/-- The source count of the group a field names, if it names one (R15, R16). -/
def Config.srcCountOfField (c : Config) (g : BitVec 4) : Option Nat :=
  match g.toNat with
  | 0 => some c.srcCount.pwm
  | 1 => some c.srcCount.timer1
  | 2 => some c.srcCount.timer2
  | 3 => some c.srcCount.extio
  | 4 => some c.srcCount.diag
  | _ => none

/-- A group operand must satisfy `g <= 4` (R75). -/
def Config.groupError (c : Config) (g : BitVec 4) : Option OperandError :=
  match c.srcCountOfField g with
  | none => some .groupRange
  | some _ => none

/-- A source operand: the group first, then `b < SRC_COUNT[g]` (R74, R75). -/
def Config.sourceError (c : Config) (g b : BitVec 4) : Option OperandError :=
  match c.srcCountOfField g with
  | none => some .groupRange
  | some n => if b.toNat < n then none else some .bitRange

/-- A topology operand must satisfy `t < N_TOPOLOGY` (R75). -/
def Config.topologyError (c : Config) (t : BitVec 4) : Option OperandError :=
  if t.toNat < c.topologies.length then none else some .badTopology

/-- The first operand of `i` that is out of range, in the order of R74; `none` when all are in range. -/
def Instr.operandError (c : Config) : Instr → Option OperandError
  | .icInit => none
  | .icEnable g b => c.sourceError g b
  | .icDisable g b => c.sourceError g b
  | .icAck g b => c.sourceError g b
  | .icVector g => c.groupError g
  | .icRdpend g => c.groupError g
  | .icRdmask g => c.groupError g
  | .adcInit => none
  | .adcConfigure _ _ => none
  | .adcStartSw _ _ => none
  | .adcStartHw _ _ => none
  | .adcStop => none
  | .adcPowerOff => none
  | .adcSelectTable t _ _ => c.topologyError t
  | .adcStart t _ => c.topologyError t
  | .adcEocIe _ => none
  | .adcEocAck => none
  | .adcRdstat => none
  | .adcRdres a => if a.toNat < c.resWords then none else some .addrRange
  | .calRails => none
  | .calPins => none
  | .calMeasureOffset => none
  | .calValidateOffset => none
  | .calSelftest => none
  | .getSupplyV => none
  | .getMotorV => none
  | .getPhaseV => none
  | .getChipTemp _ => none
  | .getCurRaw t => c.topologyError t
  | .getCurScaled t => c.topologyError t

/-- Every operand of `i` is in the range R75 gives it. -/
def Instr.wellFormed (c : Config) (i : Instr) : Bool := i.operandError c == none

end Sys2Proof
end

