-- ==== Sys2Proof/Safety.lean ====
section
/-! DEFINITION. What claims are made of: a configuration inside the ranges of 00_scope.md section 4, the invariant of the
block (R15, R20, R24, R120), what every reset state has in common (R40), quiet engines, and the histories of R102. -/

namespace Sys2Proof

/-- The ranges 00_scope.md section 4 gives the parameters (R5): source counts 1 to 16, widths, sizes, counts, positive
divisors; the Results Record and the scratch words lie inside RES; SEQ is in canonical form (log 15). -/
def Config.wf (c : Config) : Bool :=
  [c.srcCount.pwm, c.srcCount.timer1, c.srcCount.timer2, c.srcCount.extio, c.srcCount.diag].all
      (fun n => decide (1 ≤ n) && decide (n ≤ 16)) &&
    decide (1 ≤ c.adcBits) && decide (c.adcBits ≤ 16) &&
    decide (c.seqWords ≤ 65536) && decide (c.resWords ≤ 65536) &&
    decide (c.resultsBase.toNat + 8 ≤ c.resWords) && decide (c.scratchBase.toNat + 2 ≤ c.resWords) &&
    decide (c.nHwEvent ≤ 15) && decide (c.nGpio ≤ 32) &&
    decide (0 < c.supply.div) && decide (0 < c.motor.div) && decide (0 < c.phase.div) && decide (0 < c.curDiv) &&
    decide (0 < c.temp.hiDen) && decide (0 < c.temp.loDen) &&
    Machine.Memory.wf Machine.Memory.seqUnlisted c.seq && c.seq.all (fun k => decide (k.1 < c.seqWords))

/-- The input is a command word that decodes to `i`. -/
def Input.isCommand (x : Input) (i : Instr) : Prop := ∃ cw, x = .command cw ∧ decode cw = .ok i

end Sys2Proof

namespace Sys2Proof.Machine

/-- RES is in canonical form and lists words of RES only. -/
def State.resWf (s : State) : Bool :=
  Memory.wf Memory.resUnwritten s.res && s.res.all fun k => decide (k.1 < s.cfg.resWords)

/-- Nothing is in flight and no software trigger is outstanding. -/
def Sequencer.quiet (q : Sequencer) : Prop := q.inflight = false ∧ q.start = false

/-- Where the sequencer stands while an operation is at the given step (R123 to R126). -/
def Phase.holds (p : Phase) (q : Sequencer) : Prop :=
  match p with
  | .swSettle => q.state = .runSW ∧ q.ctrl = 0#16 ∧ q.quiet
  | .swTrigger => q.state = .runSW ∧ q.ctrl = 0#16 ∧ q.quiet
  | .swWait => q.state = .runSW ∧ q.ctrl = 0#16 ∧ (q.start = false → q.inflight = false)
  | .swFinish => q.state = .runSW ∧ q.ctrl = 0#16 ∧ q.quiet
  | .hwSettle => q.state = .runHW ∧ q.ctrl = 0#16 ∧ q.quiet
  | .hwArm => q.state = .runHW ∧ q.ctrl = 0#16 ∧ q.quiet
  | .drainTrigger => q.state = .runHW ∧ q.ctrl = 2#16 ∧ q.start = false
  | .drainWait => q.state = .runHW ∧ q.ctrl = 2#16 ∧ (q.start = false → q.inflight = false)
  | .stopCtrl => q.state = .runHW ∧ q.ctrl = 2#16 ∧ q.quiet
  | .stopEoc => q.state ≠ .runSW ∧ q.ctrl = 0#16 ∧ q.quiet
  | .stopIdle => q.state ≠ .runSW ∧ q.ctrl = 0#16 ∧ q.quiet
  | .task => q.state = .idle ∧ q.ctrl = 0#16 ∧ q.quiet

/-- The fixed table a task needs is present in SEQ (R126, R161). -/
def Task.tableReady (t : Task) (s : State) : Prop :=
  match t with
  | .refOff => refoffOk s.cfg = true
  | .measure ch => stTableOk s.cfg ch = true
  | .railsVerdict => True
  | .pin p => s.pins.gpioOe.getLsbD p = true → stTableOk s.cfg (chGpio p) = true
  | .drivePin _ _ => True
  | .pinVerdict _ => True
  | .forceDriver => stTableOk s.cfg s.cfg.chZero = true
  | .restoreDriver _ => True
  | .averageOffset => True
  | .validateOffset => True

/-- The operation in progress and the sequencer agree; between operations the sequencer is `Idle` with everything quiet, or
in the hardware loop with both control bits set (R20, R120). -/
def State.opHolds (s : State) : Prop :=
  match s.port.op with
  | none => (s.adc.state = .idle ∧ s.adc.ctrl = 0#16 ∧ s.adc.quiet) ∨
      (s.adc.state = .runHW ∧ s.adc.ctrl = 3#16 ∧ s.adc.start = false)
  | some o => o.phase.holds s.adc ∧ ∀ t ∈ o.todo, t.tableReady s

/-- A running sequencer has a whole table at its source base, its pointer inside it (in a software pass it may stand on the
marker), and every result word in RES (R53, R137, R139). -/
def State.tableHolds (s : State) : Prop :=
  s.adc.state ≠ .idle →
    ∃ es, tableEntries s.cfg s.adc.sbase.toNat = some es ∧ 1 ≤ es.length ∧ s.adc.idx.toNat ≤ es.length ∧
      (s.adc.inflight = true ∨ s.adc.state = .runHW → s.adc.idx.toNat < es.length) ∧ s.adc.dbase.toNat + es.length - 1 < s.cfg.resWords

/-- THE INVARIANT of the block. Every reset state with a legal configuration meets it, and every step keeps it. -/
structure State.Inv (s : State) : Prop where
  /-- the configuration is in range (R5) -/
  cfg : s.cfg.wf = true
  /-- RES is in canonical form -/
  res : s.resWf = true
  /-- unimplemented bits of `pend` and `mask` are 0 (R15) -/
  unimplemented : ∀ g, s.ic.pend.get g &&& ~~~ implementedBits s.cfg g = 0#16 ∧
    s.ic.mask.get g &&& ~~~ implementedBits s.cfg g = 0#16
  /-- `adc_ctrl[15:2]` is 0 (R20) -/
  ctrlReserved : s.adc.ctrl &&& 0xFFFC#16 = 0#16
  /-- `adc_state = Idle ⇒ adc_inflight = 0 ∧ adc_start = 0 ∧ adc_ctrl = 0x0000` (R120) -/
  idleQuiet : s.adc.state = .idle → s.adc.inflight = false ∧ s.adc.start = false ∧ s.adc.ctrl = 0#16
  /-- `adc_busy_op` is 1 exactly while a multi-step operation is in progress (R120) -/
  busy : s.adc.busyOp = s.port.op.isSome
  /-- the operation in progress and the sequencer agree -/
  op : s.opHolds
  /-- the active table is whole -/
  table : s.tableHolds

/-- What R40 and R220 fix of the state after a hardware reset; every other item may hold any value of its range. -/
structure State.AfterReset (s : State) : Prop where
  state : s.adc.state = .idle
  ctrl : s.adc.ctrl = 0#16
  start : s.adc.start = false
  inflight : s.adc.inflight = false
  busyOp : s.adc.busyOp = false
  eocPend : s.adc.eocPend = false
  eocIe : s.adc.eocIe = false
  fePowered : s.adc.fePowered = false
  elecFault : s.cal.elecFault = false
  diagLog : s.cal.diagLog = []
  op : s.port.op = none

/-- No step of the engine has an effect, whatever the PWM event generator does (R134, R135). -/
def State.engineQuiet (s : State) : Prop :=
  (∀ event, engineBegin event s = .next s) ∧ ∀ draw, engineComplete draw s = .next s

/-- The pending bit of source (g, b) after one input, as R102 counts it: an enable or an event of this source sets it, an
acknowledge of it or `IC_INIT` clears it, nothing else touches it. `g` is the group's number, `grp` its name. -/
def pendHistory (g : BitVec 4) (grp : Group) (b : BitVec 4) (before : Bool) (x : Input) : Bool :=
  match x with
  | .command cw =>
    match decode cw with
    | .ok .icInit => false
    | .ok (.icEnable g' b') => if g' = g ∧ b' = b then true else before
    | .ok (.icAck g' b') => if g' = g ∧ b' = b then false else before
    | _ => before
  | .source grp' b' => if grp' = grp ∧ b' = b then true else before
  | _ => before

/-- The mask bit of source (g, b) after one input, as R102 counts it. -/
def maskHistory (g b : BitVec 4) (before : Bool) (x : Input) : Bool :=
  match x with
  | .command cw =>
    match decode cw with
    | .ok .icInit => false
    | .ok (.icEnable g' b') => if g' = g ∧ b' = b then true else before
    | .ok (.icDisable g' b') => if g' = g ∧ b' = b then false else before
    | _ => before
  | _ => before

/-- The state with these inputs pending, oldest first. -/
def State.withInputs (s : State) (xs : List Input) : State := { s with port := { s.port with inputs := xs } }

end Sys2Proof.Machine
end

