-- ==== Sys2Proof/Certificates/Slice0/Obligations.lean ====
section
/-! DEFINITION. The statements for the provers. Statements about runs take the inputs one after another, one atomic step
each (`runInputs`). Every statement holds for every configuration unless it says otherwise. -/

open Sys2Proof Sys2Proof.Machine

/-! ### Words the statements use -/

/-- The operation map of R72: each `OP` value, and the bits of the command word that must be zero for it. -/
def Sys2Proof.Claims.operationMap : List (BitVec 8 × CommandWord) :=
  [(0x01, 0x00FFFFFFFFFF), (0x02, 0x0000FFFFFFFF), (0x03, 0x0000FFFFFFFF), (0x04, 0x0000FFFFFFFF),
    (0x05, 0x000FFFFFFFFF), (0x06, 0x000FFFFFFFFF), (0x07, 0x000FFFFFFFFF)] ++
  [(0x10, 0x00FFFFFFFFFF), (0x11, 0x00FF00000000), (0x12, 0x00FF00000000), (0x13, 0x00FF00000000),
    (0x14, 0x00FFFFFFFFFF), (0x15, 0x00FFFFFFFFFF), (0x16, 0x000E0000FFFF), (0x17, 0x000F0000FFFF),
    (0x18, 0x00FEFFFFFFFF), (0x19, 0x00FFFFFFFFFF), (0x1A, 0x00FFFFFFFFFF), (0x1B, 0x00FF0000FFFF)] ++
  [(0x20, 0x00FFFFFFFFFF), (0x21, 0x00FFFFFFFFFF), (0x22, 0x00FFFFFFFFFF), (0x23, 0x00FFFFFFFFFF),
    (0x24, 0x00FFFFFFFFFF)] ++
  [(0x28, 0x00FFFFFFFFFF), (0x29, 0x00FFFFFFFFFF), (0x2A, 0x00FFFFFFFFFF), (0x2B, 0x00FEFFFFFFFF),
    (0x2C, 0x000FFFFFFFFF), (0x2D, 0x000FFFFFFFFF)]

/-- The `OP` field of a command word (R70). -/
def Sys2Proof.Claims.opOf (cw : CommandWord) : BitVec 8 := cw.extractLsb' 40 8

/-- The state with an answer presented, and nothing else changed. -/
def Sys2Proof.Claims.answered (s : State) (status : BitVec 8) (rsp0 rsp1 : Word) : State :=
  { s with port := { s.port with rsp := some ⟨status, rsp0, rsp1⟩ } }

/-- The reasons of R204 an operation itself can be refused with, their codes, and which operations each may refuse; to these
`ADC_SELECT_TABLE` is added under the configuration that follows R120 there (log 12). -/
def Sys2Proof.Claims.mayRefuse (c : Config) (r : Refusal) (code : BitVec 8) (i : Instr) : Prop :=
  match r with
  | .groupRange => code = 0x03 ∧ i.mnemonic ∈ ["IC_ENABLE", "IC_DISABLE", "IC_ACK", "IC_VECTOR", "IC_RDPEND", "IC_RDMASK"]
  | .bitRange => code = 0x04 ∧ i.mnemonic ∈ ["IC_ENABLE", "IC_DISABLE", "IC_ACK"]
  | .badState => code = 0x05 ∧ (i.mnemonic ∈
      ["ADC_INIT", "ADC_CONFIGURE", "ADC_START_SW", "ADC_START_HW", "ADC_START", "ADC_STOP", "ADC_POWER_OFF",
        "CAL_RAILS", "CAL_PINS", "CAL_MEASURE_OFFSET", "CAL_VALIDATE_OFFSET", "CAL_SELFTEST"] ∨
      (i.mnemonic = "ADC_SELECT_TABLE" ∧ c.busyRefusesSelect = true))
  | .badTable => code = 0x06 ∧ i.mnemonic ∈
      ["ADC_CONFIGURE", "ADC_START_SW", "ADC_START_HW", "ADC_START", "ADC_POWER_OFF",
        "CAL_RAILS", "CAL_PINS", "CAL_MEASURE_OFFSET", "CAL_SELFTEST"]
  | .addrRange => code = 0x07 ∧ i.mnemonic = "ADC_RDRES"
  | .badTopology => code = 0x08 ∧ i.mnemonic ∈ ["ADC_SELECT_TABLE", "ADC_START", "GET_CUR_RAW", "GET_CUR_SCALED"]
  | .resultRange => code = 0x09 ∧ i.mnemonic ∈
      ["GET_SUPPLY_V", "GET_MOTOR_V", "GET_PHASE_V", "GET_CHIP_TEMP", "GET_CUR_SCALED"]
  | .illegalOp => False
  | .reservedField => False
  | .notModelled _ => False

/-- The refusal an operand out of range is answered with (R75). -/
def Sys2Proof.Claims.refusalOfOperand : OperandError → Refusal
  | .groupRange => .groupRange
  | .bitRange => .bitRange
  | .badTopology => .badTopology
  | .addrRange => .addrRange

/-- The operations that need `Idle` and no operation in progress (R120). -/
def Sys2Proof.Claims.needsIdle : Instr → Bool
  | .adcInit | .adcConfigure _ _ | .adcStartSw _ _ | .adcStartHw _ _ | .adcStart _ _ | .calRails | .calPins
  | .calMeasureOffset | .calValidateOffset | .calSelftest => true
  | _ => false

/-- The operations without any effect but their answer (R57). -/
def Sys2Proof.Claims.isRead : Instr → Bool
  | .icRdpend _ | .icRdmask _ | .icVector _ | .adcRdstat | .adcRdres _ | .adcSelectTable _ _ _
  | .getSupplyV | .getMotorV | .getPhaseV | .getCurRaw _ | .getCurScaled _ => true
  | _ => false

/-- The word at SEQ address `a` (R50). -/
def Sys2Proof.Claims.seqWord (c : Config) (a : Nat) : Word := Memory.read Memory.seqUnlisted c.seq a

/-- Begin and complete of one conversion for each drawn value. -/
def Sys2Proof.Claims.passInputs (draws : List Word) : List Input :=
  draws.flatMap fun d => [.engineBegin, .engineComplete d]

/-- The steps of one `measure(ch)` whose conversion draws `d`, the engine moving whenever it can (R161). -/
def Sys2Proof.Claims.measureInputs (d : Word) : List Input :=
  [.proceed, .proceed, .proceed, .engineBegin, .engineComplete d, .proceed, .proceed]

/-- The next step of the operation in progress is the task `t`. -/
def Sys2Proof.Claims.dueTask (s : State) (t : Task) : Prop :=
  ∃ o rest, s.port.op = some o ∧ o.phase = .task ∧ o.todo = t :: rest

/-- The next step of the operation in progress has this phase. -/
def Sys2Proof.Claims.duePhase (s : State) (p : Phase) : Prop := ∃ o, s.port.op = some o ∧ o.phase = p

open Sys2Proof.Claims

/-! ### Encoding -/

/-- Decoding the command word of any operation gives the operation back, every operand at every value (R70 to R72). -/
def Obligations.DecodeOfEncodeIsTheOperation : Prop := ∀ i : Instr, decode (encode i) = .ok i

/-- A command word that decodes is the one word of its operation: no bit of it is ignored (R72, R73). -/
def Obligations.EncodeOfDecodeIsTheWord : Prop := ∀ (cw : CommandWord) (i : Instr), decode cw = .ok i → encode i = cw

/-- R73: an unknown `OP` is answered `IllegalOp`, a nonzero must-be-zero field `ReservedField`, and neither changes the
state; every other word is an operation. -/
def Obligations.IllegalAndReservedWordsAreRefused : Prop :=
  ∀ (s : State) (cw : CommandWord) (rest : List Input), s.port.inputs = .command cw :: rest →
    ((∀ row ∈ operationMap, opOf cw ≠ row.1) → step s = .next (answered (s.withInputs rest) 0x01 0 0)) ∧
    (∀ row ∈ operationMap, opOf cw = row.1 →
      (cw &&& row.2 ≠ 0 → step s = .next (answered (s.withInputs rest) 0x02 0 0)) ∧
      (cw &&& row.2 = 0 → ∃ i, decode cw = .ok i))

/-- The example words of R81, and one word of each other family, decode to the operations they stand for. -/
def Obligations.WordsOfTheManualDecode : Prop :=
  decode 0x020200000000 = .ok (.icEnable 0 2) ∧
  decode 0x130001000000 = .ok (.adcStartHw 0x0100 0x0000) ∧
  decode 0x2B0100000000 = .ok (.getChipTemp true) ∧
  decode 0x161100030000 = .ok (.adcSelectTable 1 true 3) ∧
  decode 0x240000000000 = .ok .calSelftest ∧
  decode 0x2C1000000000 = .ok (.getCurRaw 1)

/-! ### Steps and refusals -/

/-- When the next input is a command word that decodes to `i`, the step is `exec i` on the state with that input taken; a
refusal of `i` is answered with its code, and the machine goes on. -/
def Obligations.StepRunsTheDecodedOperation : Prop :=
  ∀ (s : State) (cw : CommandWord) (rest : List Input) (i : Instr),
    s.port.inputs = .command cw :: rest → decode cw = .ok i →
    (∀ t, exec i (s.withInputs rest) = .next t → step s = .next t) ∧
    (∀ f, exec i (s.withInputs rest) = .fault f → step s = .fault f) ∧
    (∀ r code, exec i (s.withInputs rest) = .refused r → refusalCode r = some code →
      step s = .next (answered (s.withInputs rest) code 0 0))

/-- A run of the machine from a state with pending inputs is the run over those inputs: no step but the taking of an input
reads or changes the list (R41). The list is the model's own field (log 1). -/
def Obligations.RunTakesPendingInputs : Prop :=
  ∀ (s t : State) (xs : List Input), runInputs s xs = .next t →
    Host.Core.run core xs.length (s.withInputs xs) = .next (t.withInputs [])

/-- An operation is refused only for a reason the table gives it, the command word is answered with that reason's
code, and no state changes (R204; the answer is the step's, log 2; `ADC_SELECT_TABLE` is log 12). -/
def Obligations.RefusalsAnswerAndChangeNothing : Prop :=
  ∀ (i : Instr) (s : State) (r : Refusal), exec i s = .refused r →
    ∃ code, mayRefuse s.cfg r code i ∧ runCommand (encode i) s = .next (answered s code 0 0)

/-- An operand out of range is refused under the name of its range (R75), before anything else is looked at (R74), and an
operation whose operands are in range is never refused for them; the index of a table selection has no illegal value (R75,
R127). Whether an operation in progress refuses a table selection is a parameter of the model (log 12, DESIGN CHOICE). -/
def Obligations.OperandRangesAreChecked : Prop :=
  ∀ (i : Instr) (s : State),
    (∀ e, i.operandError s.cfg = some e → exec i s = .refused (refusalOfOperand e)) ∧
    (i.wellFormed s.cfg = true → ∀ e, exec i s ≠ .refused (refusalOfOperand e)) ∧
    (∀ t psd index, t.toNat < s.cfg.topologies.length → (s.cfg.busyRefusesSelect = false ∨ s.adc.busyOp = false) →
      ∃ u, exec (.adcSelectTable t psd index) s = .next u)

/-- No step of the machine is refused: every refusal is answered (R73, R79). -/
def Obligations.NoStepIsRefused : Prop := ∀ (s : State) (r : Refusal), step s ≠ .refused r

/-! ### Interrupt controller -/

/-- R91: in every state `IC_INIT` leaves every pending and every mask register 0 and every group line low, and touches
nothing else. -/
def Obligations.IcInitClearsEveryGroup : Prop :=
  encode .icInit = 0x010000000000 ∧
  ∀ s : State, ∃ t, exec .icInit s = .next t ∧
    t = answered { s with ic := { pend := PerGroup.all 0, mask := PerGroup.all 0 } } 0 0 0 ∧
    ∀ g, t.irqOut g = false

/-- R92: `IC_ENABLE` sets the pending and the mask bit of its source and no other, the line is high, and nothing else
changes; a group or a bit index out of range is refused. -/
def Obligations.IcEnableSetsBothBits : Prop :=
  ∀ (s : State) (g b : BitVec 4),
    encode (.icEnable g b) = 0x02#8 ++ g ++ b ++ 0#16 ++ 0#16 ∧
    (4 < g.toNat → exec (.icEnable g b) s = .refused .groupRange) ∧
    ∀ grp, g = fieldOfGroup grp →
      (s.cfg.srcCount.get grp ≤ b.toNat → exec (.icEnable g b) s = .refused .bitRange) ∧
      (b.toNat < s.cfg.srcCount.get grp → ∃ t, exec (.icEnable g b) s = .next t ∧
        (∀ g' (b' : BitVec 4), (t.readPend g').getLsbD b'.toNat =
          (decide (g' = grp ∧ b' = b) || (s.readPend g').getLsbD b'.toNat)) ∧
        (∀ g' (b' : BitVec 4), (t.readMask g').getLsbD b'.toNat =
          (decide (g' = grp ∧ b' = b) || (s.readMask g').getLsbD b'.toNat)) ∧
        t.irqOut grp = true ∧
        t = answered { s with ic := t.ic } 0 0 0)

/-- R93: `IC_DISABLE` clears the mask bit of its source and no other, and touches nothing else, the pending registers
included; a group or a bit index out of range is refused. -/
def Obligations.IcDisableClearsTheMaskBit : Prop :=
  ∀ (s : State) (g b : BitVec 4),
    encode (.icDisable g b) = 0x03#8 ++ g ++ b ++ 0#16 ++ 0#16 ∧
    (4 < g.toNat → exec (.icDisable g b) s = .refused .groupRange) ∧
    ∀ grp, g = fieldOfGroup grp →
      (s.cfg.srcCount.get grp ≤ b.toNat → exec (.icDisable g b) s = .refused .bitRange) ∧
      (b.toNat < s.cfg.srcCount.get grp → ∃ t, exec (.icDisable g b) s = .next t ∧
        (∀ g' (b' : BitVec 4), (t.readMask g').getLsbD b'.toNat =
          (!decide (g' = grp ∧ b' = b) && (s.readMask g').getLsbD b'.toNat)) ∧
        t = answered { s with ic := { s.ic with mask := t.ic.mask } } 0 0 0)

/-- R94: `IC_ACK` clears the pending bit of its source and no other, and touches nothing else, the mask registers
included; a group or a bit index out of range is refused. -/
def Obligations.IcAckClearsThePendingBit : Prop :=
  ∀ (s : State) (g b : BitVec 4),
    encode (.icAck g b) = 0x04#8 ++ g ++ b ++ 0#16 ++ 0#16 ∧
    (4 < g.toNat → exec (.icAck g b) s = .refused .groupRange) ∧
    ∀ grp, g = fieldOfGroup grp →
      (s.cfg.srcCount.get grp ≤ b.toNat → exec (.icAck g b) s = .refused .bitRange) ∧
      (b.toNat < s.cfg.srcCount.get grp → ∃ t, exec (.icAck g b) s = .next t ∧
        (∀ g' (b' : BitVec 4), (t.readPend g').getLsbD b'.toNat =
          (!decide (g' = grp ∧ b' = b) && (s.readPend g').getLsbD b'.toNat)) ∧
        t = answered { s with ic := { s.ic with pend := t.ic.pend } } 0 0 0)

/-- R95, R96: the read-back operations answer the raw register, the bits of unimplemented sources 0, and write nothing; a
group out of range is refused. -/
def Obligations.IcReadsAnswerTheRegisters : Prop :=
  ∀ (s : State) (g : BitVec 4),
    encode (.icRdpend g) = 0x06#8 ++ g ++ 0#4 ++ 0#16 ++ 0#16 ∧ encode (.icRdmask g) = 0x07#8 ++ g ++ 0#4 ++ 0#16 ++ 0#16 ∧
    (4 < g.toNat → exec (.icRdpend g) s = .refused .groupRange ∧ exec (.icRdmask g) s = .refused .groupRange) ∧
    ∀ grp, g = fieldOfGroup grp → ∃ p m : Word,
      exec (.icRdpend g) s = .next (answered s 0 p 0) ∧ exec (.icRdmask g) s = .next (answered s 0 m 0) ∧
      ∀ b : BitVec 4,
        p.getLsbD b.toNat = (decide (b.toNat < s.cfg.srcCount.get grp) && (s.ic.pend.get grp).getLsbD b.toNat) ∧
        m.getLsbD b.toNat = (decide (b.toNat < s.cfg.srcCount.get grp) && (s.ic.mask.get grp).getLsbD b.toNat)

/-- R97: the dispatch lookup answers the lowest pending and enabled source with its handler, or "not valid" when there is
none; it writes nothing; a group out of range is refused. -/
def Obligations.IcVectorAnswersTheLowestSource : Prop :=
  ∀ (s : State) (g : BitVec 4),
    encode (.icVector g) = 0x05#8 ++ g ++ 0#4 ++ 0#16 ++ 0#16 ∧
    (4 < g.toNat → exec (.icVector g) s = .refused .groupRange) ∧
    ∀ grp, g = fieldOfGroup grp →
      (s.readPend grp &&& s.readMask grp = 0 → exec (.icVector g) s = .next (answered s 0 0x0000 0x0000)) ∧
      ∀ b : BitVec 4, (s.readPend grp &&& s.readMask grp).getLsbD b.toNat = true →
        (∀ b' : BitVec 4, b' < b → (s.readPend grp &&& s.readMask grp).getLsbD b'.toNat = false) →
        exec (.icVector g) s =
          .next (answered s 0 (0x8000 ||| b.setWidth 16) ((s.cfg.bind.get grp).getD b.toNat 0x0000))

/-- R103: after any `IC_ENABLE(g, b)` the line is high and the next lookup is valid with an index not above b. -/
def Obligations.EnableForcesADispatch : Prop :=
  ∀ (s : State) (grp : Group) (b : BitVec 4), b.toNat < s.cfg.srcCount.get grp →
    ∃ t, exec (.icEnable (fieldOfGroup grp) b) s = .next t ∧ t.irqOut grp = true ∧
      (t.readPend grp &&& t.readMask grp).getLsbD b.toNat = true ∧
      ∃ (b' : BitVec 4) (h : Word), b' ≤ b ∧
        exec (.icVector (fieldOfGroup grp)) t = .next (answered t 0 (0x8000 ||| b'.setWidth 16) h)

/-- R101: a source event sets its pending bit, whether or not the source is enabled, changes nothing else, and a second
event changes nothing. -/
def Obligations.SourceEventLatches : Prop :=
  ∀ (s : State) (grp : Group) (b : BitVec 4), b.toNat < s.cfg.srcCount.get grp →
    ∃ t, runInput (.source grp b) s = .next t ∧
      (∀ g' (b' : BitVec 4), (t.readPend g').getLsbD b'.toNat =
        (decide (g' = grp ∧ b' = b) || (s.readPend g').getLsbD b'.toNat)) ∧
      t = { s with ic := { s.ic with pend := t.ic.pend } } ∧
      runInput (.source grp b) t = .next t

/-- R102: over any sequence of inputs of any agents, the pending bit and the mask bit of a source are exactly what their
two independent histories give. -/
def Obligations.PendAndMaskFollowTheirHistories : Prop :=
  ∀ (xs : List Input) (s t : State) (grp : Group) (b : BitVec 4), b.toNat < s.cfg.srcCount.get grp →
    runInputs s xs = .next t →
    (t.readPend grp).getLsbD b.toNat =
      xs.foldl (pendHistory (fieldOfGroup grp) grp b) ((s.readPend grp).getLsbD b.toNat) ∧
    (t.readMask grp).getLsbD b.toNat =
      xs.foldl (maskHistory (fieldOfGroup grp) b) ((s.readMask grp).getLsbD b.toNat)

/-- R192: a group line is high exactly while some implemented source of the group is pending and enabled; the completion
line exactly while the completion is pending and enabled. -/
def Obligations.LinesFollowPendingAndEnabled : Prop :=
  ∀ s : State,
    (∀ grp, s.irqOut grp = true ↔ ∃ b : BitVec 4, b.toNat < s.cfg.srcCount.get grp ∧
      (s.ic.pend.get grp).getLsbD b.toNat = true ∧ (s.ic.mask.get grp).getLsbD b.toNat = true) ∧
    (s.irqAdc = true ↔ s.adc.eocPend = true ∧ s.adc.eocIe = true)

/-- When every pending and enabled source of a group is bound and every handler acknowledges, `DISPATCH` invokes each of
them once, in ascending order of bit index, and returns with the line low (R98, R99, R198). A high completion line whose handler
issues its `ADC_EOC_ACK` is served by one invocation, which leaves it low (R130, R197, R198). The dispatcher is a procedure of
the host; its loop shape, the handlers as a parameter and that no other agent steps here are the model's choice (log 21). -/
def Obligations.DispatchServesEverySourceInOrder : Prop :=
  ∀ s : State,
    (∀ grp : Group,
      (∀ b : BitVec 4, (s.readPend grp &&& s.readMask grp).getLsbD b.toNat = true → handlerOf s.cfg grp b ≠ 0) →
      ∃ t, (dispatch Handlers.acknowledging grp 17 s).final = some t ∧ t.irqOut grp = false ∧
        ((dispatch Handlers.acknowledging grp 17 s).invoked.map (fun p => p.2.toNat)).Pairwise (· < ·) ∧
        (∀ b : BitVec 4, b ∈ (dispatch Handlers.acknowledging grp 17 s).invoked.map Prod.snd ↔
          (s.readPend grp &&& s.readMask grp).getLsbD b.toNat = true) ∧
        t.ic.mask = s.ic.mask ∧ t.adc = s.adc ∧ t.res = s.res ∧ t.cal = s.cal ∧ t.pins = s.pins) ∧
    (s.irqAdc = true →
      ∃ t, serveCompletion HandlerRun.acknowledgingCompletion 2 s = { invoked := 1, final := some t } ∧
        t = answered { s with adc := { s.adc with eocPend := false } } 0 0 0 ∧ t.irqAdc = false)

/-- When the lowest pending and enabled source is unbound, the default handler is selected at every turn, whatever
the other handlers do, and the dispatcher never returns (R100). The dispatcher is a procedure of the host; its loop shape,
the handlers as a parameter and that no other agent steps during the default handler are the model's choice (log 21). -/
def Obligations.UnboundSourceIsDispatchedForEver : Prop :=
  ∀ (s : State) (grp : Group) (b : BitVec 4) (h : Handlers) (turns : Nat),
    (s.readPend grp &&& s.readMask grp).getLsbD b.toNat = true →
    (∀ b' : BitVec 4, b' < b → (s.readPend grp &&& s.readMask grp).getLsbD b'.toNat = false) →
    handlerOf s.cfg grp b = 0 →
    (dispatch h grp turns s).invoked = List.replicate turns (0, b) ∧ (dispatch h grp turns s).final = none

/-! ### ADC sequencer -/

/-- R121, R122: `ADC_INIT` and `ADC_CONFIGURE` are refused unless the sequencer is `Idle` and no operation is in progress,
the latter also for a table that is not well-formed (R139); what they write when they are accepted, and nothing else. -/
def Obligations.InitAndConfigureResults : Prop :=
  encode .adcInit = 0x100000000000 ∧
  (∀ table dest, encode (.adcConfigure table dest) = 0x11#8 ++ 0#4 ++ 0#4 ++ table ++ dest) ∧
  ∀ s : State,
    (s.adc.state ≠ .idle ∨ s.adc.busyOp = true → exec .adcInit s = .refused .badState ∧
      ∀ table dest, exec (.adcConfigure table dest) s = .refused .badState) ∧
    (s.adc.state = .idle → s.adc.busyOp = false →
    exec .adcInit s = .next (answered
      { s with
        adc := { s.adc with
          ctrl := 0, sbase := 0, dbase := 0, idx := 0, start := false, inflight := false, eocPend := false,
          eocIe := false, fePowered := false }
        cal := { s.cal with
          zeroOff := if s.cal.storedValid = true then s.cal.storedOff else 0
          measOff := 0, lastTemp := 0, elecFault := false, diagLog := [] } } 0 0 0) ∧
    ∀ table dest : Word,
      (tableOk s.cfg table.toNat dest.toNat .any = true →
        exec (.adcConfigure table dest) s = .next (answered
          { s with adc := { s.adc with sbase := table, dbase := dest, idx := 0 } } 0 0 0)) ∧
      (tableOk s.cfg table.toNat dest.toNat .any = false → exec (.adcConfigure table dest) s = .refused .badTable))

/-- R139: the table check, in the rule's own terms. -/
def Obligations.TableCheckIsTheRule : Prop :=
  ∀ (c : Config) (a d : Nat) (mode : TableMode), tableOk c a d mode = true ↔
    ∃ len, 1 ≤ len ∧ a + len < c.seqWords ∧ (seqWord c (a + len)).getLsbD 15 = true ∧
      (∀ k, k < len → (seqWord c (a + k)).getLsbD 15 = false) ∧
      (∀ k, k < len →
        ((entryCh (seqWord c (a + k))).toNat ≤ 0x09 ∨
          (0x40 ≤ (entryCh (seqWord c (a + k))).toNat ∧ (entryCh (seqWord c (a + k))).toNat < 0x40 + c.nGpio) ∨
          entryCh (seqWord c (a + k)) = 0xFF) ∧
        (entryTrig (seqWord c (a + k))).toNat ≤ c.nHwEvent ∧
        (mode = .sw → entryTrig (seqWord c (a + k)) = 0)) ∧
      d + len - 1 < c.resWords

/-- `ADC_START_SW` carried through (R123), the engine converting each entry once: every result word holds its sample, no
other word of RES changes, the completion is pending, and the sequencer is `Idle` again. -/
def Obligations.StartSwRunsOnePass : Prop :=
  ∀ (s : State) (table dest : Word) (es draws : List Word),
    s.Inv → s.adc.state = .idle → s.adc.busyOp = false →
    tableOk s.cfg table.toNat dest.toNat .sw = true → tableEntries s.cfg table.toNat = some es →
    draws.length = es.length →
    ∃ u t, exec (.adcStartSw table dest) s = .next u ∧
      u.adc = { s.adc with state := .runSW, ctrl := 0, sbase := table, dbase := dest, idx := 0, busyOp := true } ∧
      runInputs u ([.proceed, .proceed] ++ passInputs draws ++ [.proceed, .proceed]) = .next t ∧
      t.adc = { s.adc with
        state := .idle, ctrl := 0, sbase := table, dbase := dest, idx := BitVec.ofNat 16 es.length, start := false,
        inflight := false, cur := es.getLastD 0, busyOp := false, eocPend := true,
        fePowered := es.all fun e => entryRef e != refOff } ∧
      (∀ k e d, es[k]? = some e → draws[k]? = some d → t.readRes (dest.toNat + k) =
        if entryCh e = chNone then s.readRes (dest.toNat + k) else some (sampleOf s.cfg d)) ∧
      (∀ a, a < dest.toNat ∨ dest.toNat + es.length ≤ a → t.readRes a = s.readRes a) ∧
      t.cfg = s.cfg ∧ t.ic = s.ic ∧ t.cal = s.cal ∧ t.pins = s.pins ∧
      t.port.op = none ∧ t.port.rsp = some ⟨0, 0, 0⟩

/-- `ADC_START_HW` arms the hardware loop (R124): in one step when the front end is powered (log 11), after `settle()` and
H3 when it is not; it sets no start flag and waits for no conversion. -/
def Obligations.StartHwArmsTheLoop : Prop :=
  ∀ (s : State) (table dest : Word), s.adc.state = .idle → s.adc.busyOp = false →
    tableOk s.cfg table.toNat dest.toNat .hw = true →
    ∃ u, exec (.adcStartHw table dest) s = .next u ∧
      (s.adc.fePowered = true → u = answered
        { s with adc := { s.adc with
          state := .runHW, sbase := table, dbase := dest, idx := 0, ctrl := 3, eocIe := true } } 0 0 0) ∧
      (s.adc.fePowered = false →
        u.adc = { s.adc with state := .runHW, sbase := table, dbase := dest, idx := 0, busyOp := true } ∧
        ∃ t, runInputs u [.proceed, .proceed] = .next t ∧
          t.adc = { s.adc with
            state := .runHW, sbase := table, dbase := dest, idx := 0, ctrl := 3, eocIe := true, fePowered := true,
            busyOp := false } ∧
          t.cfg = s.cfg ∧ t.ic = s.ic ∧ t.res = s.res ∧ t.cal = s.cal ∧ t.pins = s.pins ∧
          t.port.op = none ∧ t.port.rsp = some ⟨0, 0, 0⟩)

/-- R128: `ADC_START` is `ADC_START_HW` of the table selected with `PSD_EN` into the Results Record, its refusals among
it, and completes where that does; a topology out of range is refused. -/
def Obligations.StartSelectsThenArmsTheLoop : Prop :=
  ∀ (s : State) (t : BitVec 4) (index : Word),
    encode (.adcStart t index) = 0x17#8 ++ t ++ 0#4 ++ index ++ 0#16 ∧
    (s.cfg.topologies.length ≤ t.toNat → exec (.adcStart t index) s = .refused .badTopology) ∧
    ∀ topo, s.cfg.topologies[t.toNat]? = some topo →
    exec (.adcStart t index) s =
      exec (.adcStartHw (tableAddr s.cfg t.toNat s.cfg.psdEn
        (if index.toNat < topo.nPhase then index.toNat else s.cfg.defaultPhase)) s.cfg.resultsBase) s ∧
    (s.adc.state = .idle → s.adc.busyOp = false →
      tableOk s.cfg (tableAddr s.cfg t.toNat s.cfg.psdEn
        (if index.toNat < topo.nPhase then index.toNat else s.cfg.defaultPhase)).toNat s.cfg.resultsBase.toNat .hw = true →
      ∃ u, exec (.adcStart t index) s = .next u)

/-- `ADC_STOP` carried through (R125; its steps are those of log 10): from `Idle` only the registers are cleared; from the
hardware loop the drain completes the conversion in flight, or one fresh conversion of the current entry, and its sample is
stored; either way the sequencer ends `Idle` with its control register 0 and the completion interrupt disabled. -/
def Obligations.StopDrainsOneConversion : Prop :=
  ∀ (s : State) (d : Word), s.Inv → s.port.op = none →
    (s.adc.state = .idle → ∃ u t, exec .adcStop s = .next u ∧ runInputs u [.proceed, .proceed] = .next t ∧
      t = answered { s with adc := { s.adc with eocIe := false, idx := 0 } } 0 0 0) ∧
    (s.adc.state = .runHW → ∃ u t e next, exec .adcStop s = .next u ∧ u.adc.ctrl = 2 ∧ u.adc.start = false ∧
      runInputs u ([.proceed] ++ (if s.adc.inflight = true then [] else [.engineBegin]) ++
        [.engineComplete d, .proceed, .proceed, .proceed, .proceed]) = .next t ∧
      (if s.adc.inflight = true then s.adc.cur = e else s.entry s.adc.idx = some e) ∧
      s.entry (s.adc.idx + 1) = some next ∧
      t.adc = { s.adc with
        state := .idle, ctrl := 0, idx := 0, start := false, inflight := false, cur := e, eocIe := false,
        eocPend := s.adc.eocPend || entryEnd next,
        fePowered := if entryRef e = refOff then false else s.adc.fePowered } ∧
      (∀ a, t.readRes a = if a = (s.adc.dbase + s.adc.idx).toNat ∧ entryCh e ≠ chNone then some (sampleOf s.cfg d)
        else s.readRes a) ∧
      t.cfg = s.cfg ∧ t.ic = s.ic ∧ t.cal = s.cal ∧ t.pins = s.pins ∧
      t.port.op = none ∧ t.port.rsp = some ⟨0, 0, 0⟩)

/-- When the last step of a stop is taken, the sequencer is `Idle`, nothing is outstanding, and no step of the engine has
an effect, whatever hardware events come (R141). -/
def Obligations.StopLeavesTheEngineQuiet : Prop :=
  ∀ (s : State) (o : Operation), s.Inv → s.port.op = some o → o.phase = .stopIdle → o.todo = [] →
    ∃ t, runInput .proceed s = .next t ∧ t.adc.state = .idle ∧ t.adc.ctrl = 0 ∧ t.adc.start = false ∧
      t.adc.inflight = false ∧ t.adc.idx = 0 ∧ t.adc.busyOp = false ∧ t.engineQuiet

/-- While a stop waits for its drain, one complete step ends the wait, one is always possible, and after it the engine is
quiet: exactly one complete step lies between T2 and T6 (R125, R141). -/
def Obligations.DrainIsExactlyOneCompletion : Prop :=
  ∀ (s : State) (o : Operation), s.Inv → s.port.op = some o → o.phase = .drainWait →
    (s.adc.start = true → s.adc.inflight = false → ∃ t, runInput .engineBegin s = .next t ∧ t.adc.inflight = true) ∧
    (s.adc.start = true → s.adc.inflight = true → ∀ d, ∃ t, runInput (.engineComplete d) s = .next t ∧
      t.adc.start = false ∧ t.adc.inflight = false) ∧
    (s.adc.start = false → s.engineQuiet)

/-- `ADC_POWER_OFF` carried through (R126): from the hardware loop first the stop with its drain (log 10), then, and from
`Idle` at once, the reference-off pass, which runs without settling, writes no result word, and leaves the front end off. -/
def Obligations.PowerOffSwitchesTheFrontEndOff : Prop :=
  ∀ (s : State) (d d' : Word), s.Inv → s.port.op = none → refoffOk s.cfg = true →
    (s.adc.state = .idle → ∃ u t, exec .adcPowerOff s = .next u ∧
      runInputs u [.proceed, .proceed, .proceed, .engineBegin, .engineComplete d, .proceed, .proceed] = .next t ∧
      t.adc = { s.adc with
        sbase := s.cfg.refoffTable, dbase := 0, idx := 1, cur := 0x07FF, eocPend := true, eocIe := false,
        fePowered := false } ∧
      t = answered { s with adc := t.adc } 0 0 0) ∧
    (s.adc.state = .runHW → ∃ u t e, exec .adcPowerOff s = .next u ∧
      runInputs u ([.proceed] ++ (if s.adc.inflight = true then [] else [.engineBegin]) ++
        [.engineComplete d', .proceed, .proceed, .proceed, .proceed, .proceed, .engineBegin, .engineComplete d, .proceed,
          .proceed]) = .next t ∧
      (if s.adc.inflight = true then s.adc.cur = e else s.entry s.adc.idx = some e) ∧
      t.adc = { s.adc with
        state := .idle, ctrl := 0, sbase := s.cfg.refoffTable, dbase := 0, idx := 1, start := false, inflight := false,
        cur := 0x07FF, eocPend := true, eocIe := false, fePowered := false } ∧
      (∀ a, t.readRes a = if a = (s.adc.dbase + s.adc.idx).toNat ∧ entryCh e ≠ chNone then some (sampleOf s.cfg d')
        else s.readRes a) ∧
      t = answered { s with adc := t.adc, res := t.res } 0 0 0)

/-- R127, R140: table selection answers the address of the table for the topology, the flag and the index, an index out of
range replaced by the default, in every state of the sequencer; it writes nothing and its answer depends on its operands
and the configuration only. Where R120 (refused while an operation is in progress) and R127 (valid in every state) disagree,
the configuration says which holds, and both are stated (log 12, DESIGN CHOICE). -/
def Obligations.TableSelectionIsPure : Prop :=
  ∀ (s : State) (t : BitVec 4) (psd : Bool) (index : Word),
    encode (.adcSelectTable t psd index) = 0x16#8 ++ t ++ 0#3 ++ BitVec.ofBool psd ++ index ++ 0#16 ∧
    (∀ topo, s.cfg.topologies[t.toNat]? = some topo →
      (s.cfg.busyRefusesSelect = false ∨ s.adc.busyOp = false →
        exec (.adcSelectTable t psd index) s = .next (answered s 0 (tableAddr s.cfg t.toNat psd
          (if index.toNat < topo.nPhase then index.toNat else s.cfg.defaultPhase)) 0)) ∧
      (s.cfg.busyRefusesSelect = true → s.adc.busyOp = true →
        exec (.adcSelectTable t psd index) s = .refused .badState)) ∧
    (s.cfg.topologies.length ≤ t.toNat → exec (.adcSelectTable t psd index) s = .refused .badTopology)

/-- R129, R130, R132: the completion-enable flag, the completion acknowledge and the read of a RES word, in every state;
the completion line follows at once. -/
def Obligations.CompletionControlAndResultRead : Prop :=
  ∀ s : State,
    (∀ en, encode (.adcEocIe en) = 0x18#8 ++ 0#4 ++ 0#3 ++ BitVec.ofBool en ++ 0#16 ++ 0#16 ∧
      ∃ t, exec (.adcEocIe en) s = .next t ∧ t = answered { s with adc := { s.adc with eocIe := en } } 0 0 0 ∧
        t.irqAdc = (s.adc.eocPend && en)) ∧
    encode .adcEocAck = 0x190000000000 ∧
    (∃ t, exec .adcEocAck s = .next t ∧ t = answered { s with adc := { s.adc with eocPend := false } } 0 0 0 ∧
      t.irqAdc = false) ∧
    ∀ x : Word, encode (.adcRdres x) = 0x1B#8 ++ 0#4 ++ 0#4 ++ x ++ 0#16 ∧
      (x.toNat < s.cfg.resWords →
        exec (.adcRdres x) s = .next (answered s 0 (Memory.read Memory.resUnwritten s.res x.toNat) 0)) ∧
      (s.cfg.resWords ≤ x.toNat → exec (.adcRdres x) s = .refused .addrRange)

/-- R131: the status word, bit by bit, in every state; it writes nothing. -/
def Obligations.StatusWordBits : Prop :=
  encode .adcRdstat = 0x1A0000000000 ∧
  ∀ s : State, ∃ w : Word, exec .adcRdstat s = .next (answered s 0 w s.adc.ctrl) ∧
    w.extractLsb' 0 2 = (match s.adc.state with | .idle => 0#2 | .runSW => 1#2 | .runHW => 2#2) ∧
    w.getLsbD 2 = s.adc.start ∧ w.getLsbD 3 = s.adc.fePowered ∧ w.getLsbD 4 = s.adc.eocPend ∧
    w.getLsbD 5 = s.adc.eocIe ∧ w.getLsbD 6 = s.cal.elecFault ∧ w.extractLsb' 7 9 = 0#9

/-- The state preconditions (R120): an operation that needs `Idle` is refused while the sequencer runs or an operation is
in progress, a stop or power-off while a software pass runs or an operation is in progress, and, under the configuration that
follows R120 there, a table selection while an operation is in progress, in every state of the sequencer (log 12). -/
def Obligations.WrongStateIsRefused : Prop :=
  ∀ (s : State) (i : Instr), i.wellFormed s.cfg = true →
    (needsIdle i = true → s.adc.state ≠ .idle ∨ s.adc.busyOp = true → exec i s = .refused .badState) ∧
    (i = .adcStop ∨ i = .adcPowerOff → s.adc.state = .runSW ∨ s.adc.busyOp = true → exec i s = .refused .badState) ∧
    (∀ t psd index, i = .adcSelectTable t psd index → s.cfg.busyRefusesSelect = true → s.adc.busyOp = true →
      exec i s = .refused .badState)

/-- A table that is not well-formed, and a fixed table that is absent, refuse the operation (R126, R139, R161), the state
allowing it; nothing is then changed. What a present self-test table is, is log 13. -/
def Obligations.MissingTablesAreRefused : Prop :=
  ∀ s : State, s.adc.busyOp = false →
    (s.adc.state ≠ .runSW → refoffOk s.cfg = false → exec .adcPowerOff s = .refused .badTable) ∧
    (s.adc.state = .idle →
      (∀ table dest : Word,
        (tableOk s.cfg table.toNat dest.toNat .sw = false → exec (.adcStartSw table dest) s = .refused .badTable) ∧
        (tableOk s.cfg table.toNat dest.toNat .hw = false → exec (.adcStartHw table dest) s = .refused .badTable)) ∧
      (∀ ch, ch = 0x08 ∨ ch = 0x09 → stTableOk s.cfg ch = false →
        exec .calRails s = .refused .badTable ∧ exec .calSelftest s = .refused .badTable) ∧
      (∀ p, p < s.cfg.nGpio → s.pins.gpioOe.getLsbD p = true → stTableOk s.cfg (chGpio p) = false →
        exec .calPins s = .refused .badTable ∧ exec .calSelftest s = .refused .badTable) ∧
      (stTableOk s.cfg s.cfg.chZero = false →
        exec .calMeasureOffset s = .refused .badTable ∧ exec .calSelftest s = .refused .badTable))

/-- The transitions of the sequencer's state machine are exactly those R120 lists: from a state that meets the invariant,
a step changes `adc_state` only as a start, the end of a pass, or the last step of a stop. -/
def Obligations.SequencerTransitionsAreExactly : Prop :=
  ∀ (s t : State), s.Inv → step s = .next t → t.adc.state ≠ s.adc.state →
    (s.adc.state = .idle ∧ t.adc.state = .runSW ∧
      ((∃ table dest, s.nextInput.isCommand (.adcStartSw table dest)) ∨
        (s.nextInput = .proceed ∧ (dueTask s .refOff ∨ ∃ ch, dueTask s (.measure ch))))) ∨
    (s.adc.state = .runSW ∧ t.adc.state = .idle ∧ s.nextInput = .proceed ∧ duePhase s .swFinish) ∨
    (s.adc.state = .idle ∧ t.adc.state = .runHW ∧
      ((∃ table dest, s.nextInput.isCommand (.adcStartHw table dest)) ∨
        ∃ top index, s.nextInput.isCommand (.adcStart top index))) ∨
    (s.adc.state = .runHW ∧ t.adc.state = .idle ∧ s.nextInput = .proceed ∧ duePhase s .stopIdle)

/-! ### The engine -/

/-- R134, with the terms of R133: without an event the begin step happens exactly when the sequencer runs, nothing is in
flight, it is armed, the entry is no marker, and its trigger condition holds; with the event `n` it also happens when the
entry waits for `n`; an event when the step is not enabled does nothing and is not remembered. -/
def Obligations.BeginStepIsTheRule : Prop :=
  ∀ (s : State) (e : Word), s.entry s.adc.idx = some e →
    let ready := s.adc.state ≠ .idle ∧ s.adc.inflight = false ∧
      (s.adc.start = true ∨ (s.adc.state = .runHW ∧ s.adc.ctrl.getLsbD 0 = true)) ∧ entryEnd e = false
    let drain := s.adc.state = .runHW ∧ s.adc.ctrl.getLsbD 0 = false ∧ s.adc.start = true
    let begun : State := { s with adc := { s.adc with cur := e, inflight := true } }
    (ready ∧ (entryTrig e = 0 ∨ drain) → runInput .engineBegin s = .next begun) ∧
    (¬ (ready ∧ (entryTrig e = 0 ∨ drain)) → runInput .engineBegin s = .next s) ∧
    ∀ n : BitVec 4, 1 ≤ n.toNat → n.toNat ≤ s.cfg.nHwEvent →
      (ready ∧ entryTrig e = n ∧ s.adc.ctrl.getLsbD 0 = true → runInput (.hwEvent n) s = .next begun) ∧
      (¬ (ready ∧ (entryTrig e = 0 ∨ drain ∨ (entryTrig e = n ∧ s.adc.ctrl.getLsbD 0 = true))) →
        runInput (.hwEvent n) s = .next s)

/-- R135, R137: without a conversion in flight the complete step does nothing; with one it stores one word (none for `CH_NONE`), switches the front end off for `REF_OFF`, moves the
pointer, and at the end of a pass raises the completion, releases the wait of a software pass and wraps the loop; a drain
clears the start flag; nothing else changes. -/
def Obligations.CompleteStepIsTheRule : Prop :=
  ∀ (s : State) (d : Word), (s.adc.inflight = false → runInput (.engineComplete d) s = .next s) ∧
    ∀ next, s.Inv → s.adc.inflight = true → s.entry (s.adc.idx + 1) = some next →
    ∃ t, runInput (.engineComplete d) s = .next t ∧
      (∀ a, t.readRes a = if a = (s.adc.dbase + s.adc.idx).toNat ∧ entryCh s.adc.cur ≠ chNone then
        some (sampleOf s.cfg d) else s.readRes a) ∧
      t.adc = { s.adc with
        fePowered := if entryRef s.adc.cur = refOff then false else s.adc.fePowered
        inflight := false
        idx := if entryEnd next = true ∧ s.adc.ctrl.getLsbD 1 = true then 0 else s.adc.idx + 1
        eocPend := s.adc.eocPend || entryEnd next
        start := if (s.adc.state = .runHW ∧ s.adc.ctrl.getLsbD 0 = false) ∨
          (entryEnd next = true ∧ s.adc.state = .runSW) then false else s.adc.start } ∧
      t = { s with adc := t.adc, res := t.res }

/-- Every sample is a raw code of `ADC_BITS` bits, and every raw code can be drawn (R136; how a draw is taken from an
input is log 8). -/
def Obligations.SamplesAreExactlyTheRawCodes : Prop :=
  ∀ c : Config, c.wf = true →
    (∀ d, (sampleOf c d).toNat ≤ 2 ^ c.adcBits - 1) ∧
    ∀ v : Word, v.toNat ≤ 2 ^ c.adcBits - 1 → sampleOf c v = v

/-- R52: only the engine's complete step writes RES, and it writes no word but `RES[u16(adc_dbase + adc_idx)]`. -/
def Obligations.ResIsWrittenByCompletionsOnly : Prop :=
  ∀ (s t : State), s.resWf = true → step s = .next t →
    ((∀ d, s.nextInput ≠ .engineComplete d) → t.res = s.res) ∧
    ∀ a, a ≠ (s.adc.dbase + s.adc.idx).toNat → t.readRes a = s.readRes a

/-- No step writes the configuration, SEQ and BIND among it, or the stored offset (R18, R35, R51). -/
def Obligations.ConfigurationAndStoredOffsetAreConstant : Prop :=
  ∀ (s t : State), step s = .next t →
    t.cfg = s.cfg ∧ t.cal.storedValid = s.cal.storedValid ∧ t.cal.storedOff = s.cal.storedOff

/-- R57: the reads change no state; `GET_CHIP_TEMP` writes `last_temp` only. The answer is not state. -/
def Obligations.ReadsHaveNoSideEffect : Prop :=
  ∀ (i : Instr) (s t : State), exec i s = .next t →
    (isRead i = true → ∃ v0 v1, t = answered s 0 v0 v1) ∧
    (∀ first, i = .getChipTemp first → ∃ v0,
      t = answered { s with cal := { s.cal with lastTemp := t.cal.lastTemp } } 0 v0 0)

/-- Who writes the calibration state, over every step of every agent (R30, R32, R33, R34, R37): the fault flag is cleared by
`ADC_INIT` only, the log only grows until `ADC_INIT` empties it, and each value has the writers its rule names. -/
def Obligations.CalibrationStateHasItsWriters : Prop :=
  ∀ (s t : State), step s = .next t →
    (s.cal.elecFault = true → t.cal.elecFault = false → s.nextInput.isCommand .adcInit) ∧
    (¬ s.cal.diagLog <+: t.cal.diagLog → s.nextInput.isCommand .adcInit) ∧
    (t.cal.lastTemp ≠ s.cal.lastTemp →
      s.nextInput.isCommand .adcInit ∨ ∃ first, s.nextInput.isCommand (.getChipTemp first)) ∧
    (t.cal.zeroOff ≠ s.cal.zeroOff → s.nextInput.isCommand .adcInit ∨ s.nextInput.isCommand .calValidateOffset ∨
      (s.nextInput = .proceed ∧ dueTask s .validateOffset)) ∧
    (t.cal.measOff ≠ s.cal.measOff → s.nextInput.isCommand .adcInit ∨
      (s.nextInput = .proceed ∧ dueTask s .averageOffset))

/-- Who moves the completion flag and its enable, over every step of every agent (R25, R193): the flag is set by a complete
step only and cleared by `ADC_EOC_ACK` and `ADC_INIT` only; the enable is set by a loop start and `ADC_EOC_IE 1`, cleared by
a stop, `ADC_EOC_IE 0` and `ADC_INIT`. -/
def Obligations.CompletionFlagHasItsWriters : Prop :=
  ∀ (s t : State), step s = .next t →
    (s.adc.eocPend = false → t.adc.eocPend = true → ∃ d, s.nextInput = .engineComplete d) ∧
    (s.adc.eocPend = true → t.adc.eocPend = false →
      s.nextInput.isCommand .adcEocAck ∨ s.nextInput.isCommand .adcInit) ∧
    (s.adc.eocIe = false → t.adc.eocIe = true → s.nextInput.isCommand (.adcEocIe true) ∨
      (∃ table dest, s.nextInput.isCommand (.adcStartHw table dest)) ∨
      (∃ top index, s.nextInput.isCommand (.adcStart top index)) ∨
      (s.nextInput = .proceed ∧ duePhase s .hwArm)) ∧
    (s.adc.eocIe = true → t.adc.eocIe = false → s.nextInput.isCommand (.adcEocIe false) ∨
      s.nextInput.isCommand .adcInit ∨ (s.nextInput = .proceed ∧ duePhase s .stopEoc))

/-! ### Self-test and calibration -/

/-- `measure(ch)` carried through (R161): one conversion of the channel into `RES[SCRATCH_BASE]`, whose value the calling
operation gets; the front end is powered, the completion is pending, the sequencer is `Idle` again and the operation still
in progress. -/
def Obligations.MeasureTakesOneSample : Prop :=
  ∀ (s : State) (o : Operation) (ch : BitVec 8) (x : Task) (rest : List Task) (d : Word), s.Inv →
    s.port.op = some o → o.phase = .task → o.todo = .measure ch :: x :: rest →
    ∃ t v, runInputs s (measureInputs d) = .next t ∧
      t.readRes s.cfg.scratchBase.toNat = some v ∧
      (if ch = chNone then s.readRes s.cfg.scratchBase.toNat = some v else v = sampleOf s.cfg d) ∧
      (∀ a, a ≠ s.cfg.scratchBase.toNat → t.readRes a = s.readRes a) ∧
      t.adc = { s.adc with
        sbase := BitVec.ofNat 16 (stTable s.cfg ch), dbase := s.cfg.scratchBase, idx := 1, cur := ch.setWidth 16,
        eocPend := true, fePowered := true } ∧
      t.port = { s.port with op := some { o with todo := x :: rest, older := o.newer, newer := v } } ∧
      t.cfg = s.cfg ∧ t.ic = s.ic ∧ t.cal = s.cal ∧ t.pins = s.pins

/-- `CAL_RAILS` carried through (R162): both rails are measured, and a sample outside its band sets the fault flag and logs
one code; the flag is never cleared. The cut into steps (a first step of checks only, one step for the verdict) is log 10. -/
def Obligations.CalRailsChecksBothRails : Prop :=
  ∀ (s : State) (d0 d1 : Word), s.Inv → s.adc.state = .idle → s.adc.busyOp = false →
    stTableOk s.cfg 0x08 = true → stTableOk s.cfg 0x09 = true →
    ∃ u t, exec .calRails s = .next u ∧
      runInputs u (measureInputs d0 ++ measureInputs d1 ++ [.proceed]) = .next t ∧
      t.cal = (if (s.cfg.rail0.lo ≤ sampleOf s.cfg d0 ∧ sampleOf s.cfg d0 ≤ s.cfg.rail0.hi) ∧
          (s.cfg.rail1.lo ≤ sampleOf s.cfg d1 ∧ sampleOf s.cfg d1 ≤ s.cfg.rail1.hi) then s.cal
        else { s.cal with elecFault := true, diagLog := s.cal.diagLog ++ [s.cfg.diagRail] }) ∧
      t.readRes s.cfg.scratchBase.toNat = some (sampleOf s.cfg d1) ∧
      (∀ a, a ≠ s.cfg.scratchBase.toNat → t.readRes a = s.readRes a) ∧
      t.adc = { s.adc with
        sbase := BitVec.ofNat 16 (stTable s.cfg 0x09), dbase := s.cfg.scratchBase, idx := 1, cur := 0x0009,
        eocPend := true, fePowered := true } ∧
      t.cfg = s.cfg ∧ t.ic = s.ic ∧ t.pins = s.pins ∧ t.port.op = none ∧ t.port.rsp = some ⟨0, 0, 0⟩

/-- One turn of the pin loop (R163): a pin that is an output is driven to both levels, measured at each, and has its own
level again after each check and at the end; on a mismatch it leaves output mode and its code is logged; a pin that is no
output is left alone. The cut into steps is log 10. -/
def Obligations.PinTurnChecksAndRestores : Prop :=
  ∀ (s : State) (o : Operation) (p : Nat) (rest : List Task) (dh dl : Word), s.Inv → p < s.cfg.nGpio →
    s.port.op = some o → o.phase = .task → o.todo = .pin p :: rest →
    (s.pins.gpioOe.getLsbD p = false → ∃ t, runInput .proceed s = .next t ∧ t.pins = s.pins ∧ t.cal = s.cal ∧
      t.res = s.res ∧ t.ic = s.ic ∧ t.cfg = s.cfg ∧ t.adc = { s.adc with busyOp := decide (rest ≠ []) } ∧
      (rest = [] → t.port.op = none) ∧ (rest ≠ [] → t.port.op = some { o with todo := rest })) ∧
    (s.pins.gpioOe.getLsbD p = true → ∃ h m l t,
      runInputs s [.proceed, .proceed] = .next h ∧ h.pins.gpioOut.getLsbD p = true ∧
      runInputs h (measureInputs dh ++ [.proceed]) = .next m ∧ m.pins = s.pins ∧
      runInputs m [.proceed] = .next l ∧ l.pins.gpioOut.getLsbD p = false ∧
      runInputs l (measureInputs dl ++ [.proceed, .proceed]) = .next t ∧
      t.pins.gpioOut = s.pins.gpioOut ∧ t.pins.drvCfg = s.pins.drvCfg ∧ t.ic = s.ic ∧ t.cfg = s.cfg ∧
      (if (s.cfg.pinHigh.lo ≤ sampleOf s.cfg dh ∧ sampleOf s.cfg dh ≤ s.cfg.pinHigh.hi) ∧
          (s.cfg.pinLow.lo ≤ sampleOf s.cfg dl ∧ sampleOf s.cfg dl ≤ s.cfg.pinLow.hi) then
        t.pins.gpioOe = s.pins.gpioOe ∧ t.cal = s.cal
      else
        (∀ q, t.pins.gpioOe.getLsbD q = (!decide (q = p) && s.pins.gpioOe.getLsbD q)) ∧
        t.cal = { s.cal with diagLog := s.cal.diagLog ++ [diagPinCode s.cfg p] }) ∧
      (∀ a, a ≠ s.cfg.scratchBase.toNat → t.readRes a = s.readRes a) ∧
      t.adc = { s.adc with
        sbase := BitVec.ofNat 16 (stTable s.cfg (chGpio p)), dbase := s.cfg.scratchBase, idx := 1,
        cur := (chGpio p).setWidth 16, eocPend := true, fePowered := true, busyOp := decide (rest ≠ []) } ∧
      (rest = [] → t.port.op = none ∧ t.port.rsp.isSome) ∧
      (rest ≠ [] → ∃ o', t.port.op = some o' ∧ o'.phase = .task ∧ o'.todo = rest ∧ o'.answer = o.answer))

/-- `CAL_MEASURE_OFFSET` carried through (R164): two samples with the driver stage forced active, the driver configuration
restored, the average rounded down kept and answered. With `CH_ZERO = CH_NONE` a measurement stores nothing (R135), and
both samples are the word that stood in the scratch area. The cut into steps is log 10. -/
def Obligations.CalMeasureOffsetAveragesTwoSamples : Prop :=
  ∀ (s : State) (d1 d2 : Word), s.Inv → s.adc.state = .idle → s.adc.busyOp = false →
    stTableOk s.cfg s.cfg.chZero = true →
    ∃ u v t x1 x2, exec .calMeasureOffset s = .next u ∧ runInputs u [.proceed] = .next v ∧
      v.pins.drvCfg = s.cfg.drvActiveCfg ∧
      runInputs v (measureInputs d1 ++ measureInputs d2 ++ [.proceed, .proceed]) = .next t ∧
      (s.cfg.chZero ≠ chNone → x1 = sampleOf s.cfg d1 ∧ x2 = sampleOf s.cfg d2) ∧
      (s.cfg.chZero = chNone → s.readRes s.cfg.scratchBase.toNat = some x1 ∧ x2 = x1) ∧
      t.cal.measOff.toNat = (x1.toNat + x2.toNat) / 2 ∧
      t.port.rsp = some ⟨0, t.cal.measOff, 0⟩ ∧ t.cal = { s.cal with measOff := t.cal.measOff } ∧
      t.pins = s.pins ∧ (∀ a, a ≠ s.cfg.scratchBase.toNat → t.readRes a = s.readRes a) ∧
      t.adc = { s.adc with
        sbase := BitVec.ofNat 16 (stTable s.cfg s.cfg.chZero), dbase := s.cfg.scratchBase, idx := 1,
        cur := s.cfg.chZero.setWidth 16, eocPend := true, fePowered := true } ∧
      t.cfg = s.cfg ∧ t.ic = s.ic ∧ t.port.op = none

/-- R165, R169: the offset is validated in one step: a difference above 6 from an available stored offset puts the stored
one in its place, any other measurement is used; the offset is answered and nothing else changes. The validation that ends
`CAL_SELFTEST` (R166) does the same to the offset, and then the operation is over and answered with zero words; that it is
the last task of a list is the model's form (log 10). -/
def Obligations.CalValidateOffsetIsStrict : Prop :=
  ∀ s : State, ∃ z : Word,
    (s.adc.state = .idle → s.adc.busyOp = false →
      exec .calValidateOffset s = .next (answered { s with cal := { s.cal with zeroOff := z } } 0 z 0)) ∧
    (∀ o, s.Inv → s.port.op = some o → o.phase = .task → o.todo = [.validateOffset] → o.answer = .nothing →
      runInput .proceed s = .next (answered
        { s with
          adc := { s.adc with busyOp := false }
          cal := { s.cal with zeroOff := z }
          port := { s.port with op := none } } 0 0 0)) ∧
    (s.cal.storedValid = true → s.cal.measOff.toNat > s.cal.storedOff.toNat + 6 → z = s.cal.storedOff) ∧
    (s.cal.storedValid = true → s.cal.storedOff.toNat > s.cal.measOff.toNat + 6 → z = s.cal.storedOff) ∧
    (s.cal.storedValid = true → s.cal.measOff.toNat ≤ s.cal.storedOff.toNat + 6 →
      s.cal.storedOff.toNat ≤ s.cal.measOff.toNat + 6 → z = s.cal.measOff) ∧
    (s.cal.storedValid = false → z = s.cal.measOff)

/-- `CAL_PINS` and `CAL_SELFTEST` begin (R163, R166): with the tables present the operation is in progress with its
tasks in the order of the rule, `adc_busy_op` is 1, and nothing else has changed; without any pin `CAL_PINS` is done at
once. -/
def Obligations.CalPinsAndSelftestBegin : Prop :=
  ∀ s : State, s.adc.state = .idle → s.adc.busyOp = false →
    (∀ p, p < s.cfg.nGpio → s.pins.gpioOe.getLsbD p = true → stTableOk s.cfg (chGpio p) = true) →
    (s.cfg.nGpio = 0 → exec .calPins s = .next (answered { s with port := { s.port with op := none } } 0 0 0)) ∧
    (1 ≤ s.cfg.nGpio → exec .calPins s = .next { s with
      adc := { s.adc with busyOp := true }
      port := { s.port with
        op := some ⟨.task, (List.range s.cfg.nGpio).map Task.pin, 0, 0, .nothing⟩, rsp := none } }) ∧
    (stTableOk s.cfg 0x08 = true → stTableOk s.cfg 0x09 = true → stTableOk s.cfg s.cfg.chZero = true →
      exec .calSelftest s = .next { s with
        adc := { s.adc with busyOp := true }
        port := { s.port with
          op := some ⟨.task, [.measure 0x08, .measure 0x09, .railsVerdict] ++ (List.range s.cfg.nGpio).map Task.pin ++
            [.forceDriver, .validateOffset], 0, 0, .nothing⟩, rsp := none } })

/-! ### Conversion -/

/-- R168: `rdiv(n, d)` is the integer q with q - 1/2 <= n/d < q + 1/2, so ties go up. -/
def Obligations.RoundingIsHalfUp : Prop :=
  ∀ (n : Int) (d : Nat), 0 < d → 2 * (d : Int) * rdiv n d ≤ 2 * n + d ∧ 2 * n + d < 2 * (d : Int) * (rdiv n d + 1)

/-- R171 to R173 with R170: each voltage getter answers its own field converted with its own constants, in 16-bit two's
complement, or is refused when the result does not fit; it writes nothing. -/
def Obligations.VoltageGettersConvertTheirField : Prop :=
  ∀ (s : State) (i : Instr) (word : CommandWord) (k : VoltConst) (offset : Nat),
    (i, word, k, offset) ∈ [(Instr.getSupplyV, 0x280000000000, s.cfg.supply, 0),
      (.getMotorV, 0x290000000000, s.cfg.motor, 1), (.getPhaseV, 0x2A0000000000, s.cfg.phase, 7)] →
    encode i = word ∧
    ∀ raw, s.readRes (s.cfg.resultsBase.toNat + offset) = some raw →
      (-32768 ≤ rdiv ((raw.toNat - k.off) * k.gain) k.div ∧ rdiv ((raw.toNat - k.off) * k.gain) k.div ≤ 32767 →
        ∃ r : Word, exec i s = .next (answered s 0 r 0) ∧ r.toInt = rdiv ((raw.toNat - k.off) * k.gain) k.div) ∧
      (¬ (-32768 ≤ rdiv ((raw.toNat - k.off) * k.gain) k.div ∧ rdiv ((raw.toNat - k.off) * k.gain) k.div ≤ 32767) →
        exec i s = .refused .resultRange)

/-- R175, R176 with R174: each coil's current is its raw code less the offset, never below zero; the sum wraps mod 65536;
the scaled current is the sum times the gain divided down, refused when it does not fit; a topology out of range is
refused. Nothing is written. -/
def Obligations.CurrentGettersClampEachCoil : Prop :=
  ∀ (s : State) (t : BitVec 4),
    encode (.getCurRaw t) = 0x2C#8 ++ t ++ 0#4 ++ 0#16 ++ 0#16 ∧
    encode (.getCurScaled t) = 0x2D#8 ++ t ++ 0#4 ++ 0#16 ++ 0#16 ∧
    (s.cfg.topologies.length ≤ t.toNat →
      exec (.getCurRaw t) s = .refused .badTopology ∧ exec (.getCurScaled t) s = .refused .badTopology) ∧
    ∀ (topo : Topology) (rawA rawB sum : Word),
      s.cfg.topologies[t.toNat]? = some topo →
      s.readRes (s.cfg.resultsBase.toNat + (if s.cfg.curSrc = .unfiltered then 3 else 4)) = some rawA →
      s.readRes (s.cfg.resultsBase.toNat + (if s.cfg.curSrc = .unfiltered then 5 else 6)) = some rawB →
      sum.toNat = (if topo.coils = .one then rawA.toNat - s.cal.zeroOff.toNat
        else (rawA.toNat - s.cal.zeroOff.toNat) + (rawB.toNat - s.cal.zeroOff.toNat)) % 65536 →
      exec (.getCurRaw t) s = .next (answered s 0 sum 0) ∧
      (sum.toNat * s.cfg.curGain / s.cfg.curDiv ≤ 65535 →
        exec (.getCurScaled t) s =
          .next (answered s 0 (BitVec.ofNat 16 (sum.toNat * s.cfg.curGain / s.cfg.curDiv)) 0)) ∧
      (65535 < sum.toNat * s.cfg.curGain / s.cfg.curDiv → exec (.getCurScaled t) s = .refused .resultRange)

/-- R178: a change not above `T_JUMP` is applied in full, a larger one becomes one unit in its direction. -/
def Obligations.LimiterMovesOneUnit : Prop :=
  ∀ (jump : Nat) (prev new : Int),
    ((new - prev).natAbs ≤ jump → tempLimit jump prev new = new) ∧
    ((new - prev).natAbs > jump → prev < new → tempLimit jump prev new = prev + 1) ∧
    ((new - prev).natAbs > jump → new < prev → tempLimit jump prev new = prev - 1)

/-- R179 with R177: the first call reports the naive temperature, a later one the limited one; the reported value is
answered in 16-bit two's complement and becomes `last_temp`; a value that does not fit is refused. -/
def Obligations.ChipTempReportsAndRemembers : Prop :=
  ∀ (s : State) (first : Bool),
    encode (.getChipTemp first) = 0x2B#8 ++ 0#4 ++ 0#3 ++ BitVec.ofBool first ++ 0#16 ++ 0#16 ∧
    ∀ (raw : Word) (naive r : Int),
      s.readRes (s.cfg.resultsBase.toNat + 2) = some raw →
      naive = s.cfg.temp.anchorVal + (if s.cfg.temp.anchorCode ≤ raw.toNat
        then rdiv ((raw.toNat - s.cfg.temp.anchorCode) * s.cfg.temp.hiNum) s.cfg.temp.hiDen
        else rdiv ((raw.toNat - s.cfg.temp.anchorCode) * s.cfg.temp.loNum) s.cfg.temp.loDen) →
      r = (if first = true then naive else tempLimit s.cfg.temp.jump s.cal.lastTemp.toInt naive) →
      (-32768 ≤ r ∧ r ≤ 32767 → ∃ w : Word, w.toInt = r ∧
        exec (.getChipTemp first) s = .next (answered { s with cal := { s.cal with lastTemp := w } } 0 w 0)) ∧
      (¬ (-32768 ≤ r ∧ r ≤ 32767) → exec (.getChipTemp first) s = .refused .resultRange)

/-! ### Reset, invariant, hangs -/

/-- The reset state (the model's choice where R40 leaves an item unspecified: logs 3 to 7) meets the invariant, and is one
of the states R40 allows after a hardware reset. -/
def Obligations.ResetMeetsTheInvariant : Prop := State.reset.Inv ∧ State.reset.AfterReset

/-- In every state R40 and R220 allow after a hardware reset the completion line is low and no step of the engine has an
effect. -/
def Obligations.EngineIsQuietAfterReset : Prop :=
  ∀ s : State, s.AfterReset → s.irqAdc = false ∧ s.engineQuiet

/-- Every step of every agent keeps the invariant, from every state that meets it: RES stays canonical, the unimplemented
and reserved bits stay 0, `Idle` stays quiet, the operation in progress and the sequencer agree, the active table stays
whole (R15, R20, R53, R120). -/
def Obligations.StepKeepsTheInvariant : Prop := ∀ (s t : State), s.Inv → step s = .next t → t.Inv

/-- From a state that meets the invariant no step faults: the engine and the conversions never leave SEQ or RES (R53). -/
def Obligations.NoStepFaults : Prop := ∀ (s : State) (f : Fault), s.Inv → step s ≠ .fault f

/-- R142: a wait has no exit but the engine's complete step: as long as none comes, whatever else any agent does, the
operation stays at its wait, the start flag stays set, and the sequencer stays busy. -/
def Obligations.WaitsHaveNoTimeout : Prop :=
  ∀ (xs : List Input) (s t : State) (o : Operation), s.Inv → s.port.op = some o →
    o.phase = .swWait ∨ o.phase = .drainWait → s.adc.start = true →
    (∀ d, Input.engineComplete d ∉ xs) → runInputs s xs = .next t →
    t.port.op = some o ∧ t.adc.start = true ∧ t.adc.busyOp = true
end

