-- ==== Sys2Proof/Laws/Dispatcher.lean ====
section
/-! SUPPORT. Runs over inputs, one turn of `DISPATCH`, and what a handler's program does (R98, R198), said once. -/

namespace Sys2Proof.Machine

@[simp] theorem runInputs_nil (s : State) : runInputs s [] = .next s := rfl

theorem runInputs_cons {s t : State} {x : Input} (h : runInput x s = .next t) (xs : List Input) :
    runInputs s (x :: xs) = runInputs t xs := by
  simp only [runInputs, h]

/-- A run over two lists of inputs is a run over the first and then over the second. -/
theorem runInputs_append {s t : State} {xs : List Input} (h : runInputs s xs = .next t) (ys : List Input) :
    runInputs s (xs ++ ys) = runInputs t ys := by
  induction xs generalizing s with
  | nil =>
    simp only [runInputs_nil, Host.Outcome.next.injEq] at h
    subst h
    rfl
  | cons x xs ih =>
    simp only [runInputs] at h
    split at h
    · rename_i u hu
      rw [List.cons_append, runInputs_cons hu, ih h]
    · cases h
    · cases h

/-- With no pending and enabled source the service ends at its first lookup (R98). -/
theorem dispatch_quiet {h : Handlers} {g : Group} {s : State} (turns : Nat)
    (hv : (vectorAnswer s g).1.getLsbD 15 = false) :
    dispatch h g (turns + 1) s =
      { invoked := [], final := some (s.respond (vectorAnswer s g).1 (vectorAnswer s g).2) } := by
  simp only [dispatch, hv, Bool.false_eq_true, if_false]

/-- The state left by a handler that returns is the end of its run. -/
theorem HandlerRun.result_some {r : HandlerRun} {s t : State} :
    r.result s = some t ↔ ∃ xs, r s = some xs ∧ runInputs s xs = .next t := by
  unfold HandlerRun.result
  split
  · rename_i h
    simp [h]
  · rename_i xs h
    split <;> rename_i h' <;> simp [h, h']

/-- A turn whose handler returns: the handler is invoked with its bit index, and the service goes on from there (R98). -/
theorem dispatch_turn {h : Handlers} {g : Group} {s t : State} (turns : Nat)
    (hv : (vectorAnswer s g).1.getLsbD 15 = true)
    (hr : (h.withDefault (vectorAnswer s g).2 g ((vectorAnswer s g).1.extractLsb' 0 4)).result
      (s.respond (vectorAnswer s g).1 (vectorAnswer s g).2) = some t) :
    dispatch h g (turns + 1) s =
      { invoked := ((vectorAnswer s g).2, (vectorAnswer s g).1.extractLsb' 0 4) :: (dispatch h g turns t).invoked,
        final := (dispatch h g turns t).final } := by
  simp only [dispatch, hv, if_true, hr]

/-- With the completion line low the service ends without an invocation (R192). -/
theorem serveCompletion_quiet {r : HandlerRun} {s : State} (turns : Nat) (h : s.irqAdc = false) :
    serveCompletion r (turns + 1) s = { invoked := 0, final := some s } := by
  simp only [serveCompletion, h, Bool.false_eq_true, if_false]

/-- With the line high and a handler that returns, the service goes on from the state it leaves (R197). -/
theorem serveCompletion_turn {r : HandlerRun} {s t : State} (turns : Nat) (h : s.irqAdc = true) (hr : r.result s = some t) :
    serveCompletion r (turns + 1) s =
      { invoked := (serveCompletion r turns t).invoked + 1, final := (serveCompletion r turns t).final } := by
  simp only [serveCompletion, h, if_true, hr]

/-- A completion handler that changes nothing, its acknowledge forgotten, is entered at every turn (R130, R199). -/
theorem serveCompletion_storm {s : State} (turns : Nat) (h : s.irqAdc = true) :
    serveCompletion (fun _ => some []) turns s = { invoked := turns, final := none } := by
  induction turns with
  | zero => rfl
  | succ n ih => rw [serveCompletion_turn n h (HandlerRun.result_some.mpr ⟨[], rfl, rfl⟩), ih]

/-- A program that is carried through is a run, and every operation of it is issued in that run (R56, R198). -/
theorem carryThrough_runs {env : State → Input} {fuel : Nat} {own : Bool} {ops : List Instr} {s : State} {xs : List Input}
    (h : carryThrough env fuel own ops s = some xs) :
    (∃ t, runInputs s xs = .next t) ∧ ∀ i ∈ ops, Input.command (encode i) ∈ xs := by
  induction fuel generalizing own ops s xs with
  | zero => cases h
  | succ fuel ih =>
    simp only [carryThrough] at h
    split at h
    · split at h
      · rename_i t ht
        obtain ⟨ys, hy, rfl⟩ := Option.map_eq_some_iff.mp h
        obtain ⟨⟨u, hu⟩, hi⟩ := ih hy
        exact ⟨⟨u, by rw [runInputs_cons ht, hu]⟩, fun i hm => List.mem_cons_of_mem _ (hi i hm)⟩
      · cases h
      · cases h
    · cases ops with
      | nil =>
        cases h
        exact ⟨⟨s, rfl⟩, fun _ hm => nomatch hm⟩
      | cons i rest =>
        simp only at h
        split at h
        · rename_i t ht
          obtain ⟨ys, hy, rfl⟩ := Option.map_eq_some_iff.mp h
          obtain ⟨⟨u, hu⟩, hi⟩ := ih hy
          refine ⟨⟨u, by rw [runInputs_cons ht, hu]⟩, fun j hm => ?_⟩
          rcases List.mem_cons.mp hm with rfl | hm
          · exact List.mem_cons_self
          · exact List.mem_cons_of_mem _ (hi j hm)
        · cases h
        · cases h

/-- A handler that is a program issues every operation of it (R198). -/
theorem HandlerRun.ofProgram_issues {env : State → Input} {fuel : Nat} {ops : List Instr} {i : Instr} (h : i ∈ ops) :
    (HandlerRun.ofProgram env fuel ops).issues (.command (encode i)) :=
  fun _ _ hx => (carryThrough_runs hx).2 _ h

/-- Handlers that are programs fulfil their obligation when each program holds the acknowledge of its source (R198). -/
theorem ofPrograms_fulfilObligation {env : State → Input} {fuel : Nat} {ops : Word → Group → BitVec 4 → List Instr}
    (h : ∀ id g b, Instr.icAck (fieldOfGroup g) b ∈ ops id g b) : (Handlers.ofPrograms env fuel ops).fulfilObligation :=
  fun id g b => HandlerRun.ofProgram_issues (h id g b)

/-- The completion handler that is a program fulfils its obligation when the program holds `ADC_EOC_ACK` (R198). -/
theorem ofProgram_fulfilsCompletionObligation {env : State → Input} {fuel : Nat} {ops : List Instr}
    (h : Instr.adcEocAck ∈ ops) : (HandlerRun.ofProgram env fuel ops).fulfilsCompletionObligation :=
  HandlerRun.ofProgram_issues h

/-- The handlers that only acknowledge fulfil their obligation (R198). -/
theorem acknowledging_fulfilObligation : Handlers.acknowledging.fulfilObligation := by
  intro id g b s xs h
  cases h
  exact List.mem_cons_self

/-- The completion handler that only acknowledges fulfils its obligation (R198). -/
theorem acknowledgingCompletion_fulfils : HandlerRun.acknowledgingCompletion.fulfilsCompletionObligation := by
  intro s xs h
  cases h
  exact List.mem_cons_self

end Sys2Proof.Machine
end

