-- ==== Sys2Proof/Laws/Encoding.lean ====
section
/-! SUPPORT. The fields of a command word: reading them from a word built of them, and building the word from them. -/

namespace Sys2Proof

/-- The fields of a word built of fields are those fields (R70). -/
theorem CwFields.ofWord_toWord (f : CwFields) : CwFields.ofWord f.toWord = f := by
  obtain ⟨op, g, b, x, y⟩ := f
  simp only [CwFields.ofWord, CwFields.toWord, CwFields.mk.injEq]
  refine ⟨?_, ?_, ?_, ?_, ?_⟩ <;>
  · apply BitVec.eq_of_getLsbD_eq
    intro i hi
    simp only [BitVec.getLsbD_extractLsb', BitVec.getLsbD_append]
    grind

/-- A word is built of its fields (R70). -/
theorem CwFields.toWord_ofWord (cw : CommandWord) : (CwFields.ofWord cw).toWord = cw := by
  apply BitVec.eq_of_getLsbD_eq
  intro i hi
  simp only [CwFields.ofWord, CwFields.toWord, BitVec.getLsbD_extractLsb', BitVec.getLsbD_append]
  grind

end Sys2Proof
end

