-- ==== Sys2Proof/Laws/Memory.lean ====
section
/-! SUPPORT. Memory laws: a read after a write, and that a write keeps the canonical form. -/

namespace Sys2Proof.Machine

/-- What canonical form says of a memory's first cell. -/
theorem Memory.wf_cons {d : Word} {k : Nat} {v : Word} {m : Cells} :
    Memory.wf d ((k, v) :: m) = true ↔ v ≠ d ∧ (∀ c ∈ m, k < c.1) ∧ Memory.wf d m = true := by
  simp [Memory.wf, and_assoc]

/-- An address below every listed one reads as unlisted. -/
theorem Memory.read_below {d : Word} {m : Cells} {a : Nat} (h : ∀ c ∈ m, a < c.1) : Memory.read d m a = d := by
  induction m with
  | nil => rfl
  | cons c m ih =>
    have hc : a < c.1 := h c (by simp)
    have hne : a ≠ c.1 := by omega
    simp only [Memory.read, hne, if_false]
    exact ih fun c' hc' => h c' (by simp [hc'])

/-- Every cell of a written memory is the written one or an old one. -/
theorem Memory.mem_write {d : Word} {m : Cells} {a : Nat} {w : Word} {c : Nat × Word}
    (h : c ∈ Memory.write d m a w) : c = (a, w) ∨ c ∈ m := by
  induction m with
  | nil =>
    by_cases hw : w = d <;> simp_all [Memory.write]
  | cons e m ih =>
    obtain ⟨k, v⟩ := e
    simp only [Memory.write] at h
    split at h
    · split at h
      · exact Or.inr h
      · simpa using h
    · split at h
      · split at h
        · exact Or.inr (by simp [h])
        · rcases List.mem_cons.mp h with h | h
          · exact Or.inl h
          · exact Or.inr (by simp [h])
      · rcases List.mem_cons.mp h with h | h
        · exact Or.inr (by simp [h])
        · rcases ih h with h | h
          · exact Or.inl h
          · exact Or.inr (by simp [h])

/-- A write keeps the canonical form. -/
theorem Memory.wf_write {d : Word} {m : Cells} (a : Nat) (w : Word) (h : Memory.wf d m = true) :
    Memory.wf d (Memory.write d m a w) = true := by
  induction m with
  | nil =>
    by_cases hw : w = d <;> simp [Memory.write, Memory.wf, hw]
  | cons e m ih =>
    obtain ⟨k, v⟩ := e
    obtain ⟨hv, hk, hm⟩ := Memory.wf_cons.mp h
    simp only [Memory.write]
    split
    · rename_i hlt
      split
      · exact h
      · rename_i hw
        refine Memory.wf_cons.mpr ⟨hw, ?_, h⟩
        intro c hc
        rcases List.mem_cons.mp hc with hc | hc
        · subst hc; exact hlt
        · exact lt_trans hlt (hk c hc)
    · split
      · split
        · exact hm
        · rename_i _ he hw
          exact Memory.wf_cons.mpr ⟨hw, he ▸ hk, hm⟩
      · rename_i hlt hne
        refine Memory.wf_cons.mpr ⟨hv, ?_, ih hm⟩
        intro c hc
        rcases Memory.mem_write hc with hc | hc
        · subst hc; show k < a; omega
        · exact hk c hc

/-- A read after a write: the written word at the written address, the old word everywhere else. -/
theorem Memory.read_write {d : Word} {m : Cells} (a b : Nat) (w : Word) (h : Memory.wf d m = true) :
    Memory.read d (Memory.write d m a w) b = if b = a then w else Memory.read d m b := by
  induction m with
  | nil =>
    by_cases hw : w = d <;> by_cases hb : b = a <;> simp [Memory.write, Memory.read, hw, hb]
  | cons e m ih =>
    obtain ⟨k, v⟩ := e
    obtain ⟨_, hk, hm⟩ := Memory.wf_cons.mp h
    simp only [Memory.write]
    split
    · rename_i hlt
      have hbelow : Memory.read d ((k, v) :: m) a = d := by
        apply Memory.read_below
        intro c hc
        rcases List.mem_cons.mp hc with hc | hc
        · subst hc; exact hlt
        · exact lt_trans hlt (hk c hc)
      split
      · rename_i hw
        by_cases hb : b = a
        · subst hb; simp [hbelow, hw]
        · simp [hb]
      · simp [Memory.read]
    · split
      · rename_i _ he
        have hbelow : Memory.read d m a = d := Memory.read_below (he ▸ hk)
        split
        · rename_i hw
          by_cases hb : b = a
          · subst hb; simp [hbelow, hw]
          · simp [Memory.read, hb, ← he]
        · by_cases hb : b = a <;> simp [Memory.read, hb, ← he]
      · rename_i hlt hne
        simp only [Memory.read]
        by_cases hb : b = k
        · subst hb
          have : b ≠ a := fun he => hne he.symm
          simp [this]
        · simp [hb, ih hm]

end Sys2Proof.Machine
end

