-- ==== Sys2Proof/Laws/State.lean ====
section
/-! SUPPORT. The projections of every named update of the state: what it leaves alone, component by component, and what it
writes. All are true by `rfl` or one case split; no later proof unfolds an update. -/

namespace Sys2Proof.Machine

variable (s : State)

/-! ### What each update leaves alone -/

@[simp] theorem State.respond_cfg (v0 v1 : Word) : (s.respond v0 v1).cfg = s.cfg := rfl
@[simp] theorem State.respond_ic (v0 v1 : Word) : (s.respond v0 v1).ic = s.ic := rfl
@[simp] theorem State.respond_adc (v0 v1 : Word) : (s.respond v0 v1).adc = s.adc := rfl
@[simp] theorem State.respond_res (v0 v1 : Word) : (s.respond v0 v1).res = s.res := rfl
@[simp] theorem State.respond_cal (v0 v1 : Word) : (s.respond v0 v1).cal = s.cal := rfl
@[simp] theorem State.respond_pins (v0 v1 : Word) : (s.respond v0 v1).pins = s.pins := rfl

@[simp] theorem State.answerRefusal_cfg (c : BitVec 8) : (s.answerRefusal c).cfg = s.cfg := rfl
@[simp] theorem State.answerRefusal_ic (c : BitVec 8) : (s.answerRefusal c).ic = s.ic := rfl
@[simp] theorem State.answerRefusal_adc (c : BitVec 8) : (s.answerRefusal c).adc = s.adc := rfl
@[simp] theorem State.answerRefusal_res (c : BitVec 8) : (s.answerRefusal c).res = s.res := rfl
@[simp] theorem State.answerRefusal_cal (c : BitVec 8) : (s.answerRefusal c).cal = s.cal := rfl
@[simp] theorem State.answerRefusal_pins (c : BitVec 8) : (s.answerRefusal c).pins = s.pins := rfl

@[simp] theorem State.latch_cfg (g : Group) (b : BitVec 4) : (s.latch g b).cfg = s.cfg := rfl
@[simp] theorem State.latch_adc (g : Group) (b : BitVec 4) : (s.latch g b).adc = s.adc := rfl
@[simp] theorem State.latch_res (g : Group) (b : BitVec 4) : (s.latch g b).res = s.res := rfl
@[simp] theorem State.latch_cal (g : Group) (b : BitVec 4) : (s.latch g b).cal = s.cal := rfl
@[simp] theorem State.latch_pins (g : Group) (b : BitVec 4) : (s.latch g b).pins = s.pins := rfl
@[simp] theorem State.latch_port (g : Group) (b : BitVec 4) : (s.latch g b).port = s.port := rfl

@[simp] theorem State.unlatch_cfg (g : Group) (b : BitVec 4) : (s.unlatch g b).cfg = s.cfg := rfl
@[simp] theorem State.unlatch_adc (g : Group) (b : BitVec 4) : (s.unlatch g b).adc = s.adc := rfl
@[simp] theorem State.unlatch_res (g : Group) (b : BitVec 4) : (s.unlatch g b).res = s.res := rfl
@[simp] theorem State.unlatch_cal (g : Group) (b : BitVec 4) : (s.unlatch g b).cal = s.cal := rfl
@[simp] theorem State.unlatch_pins (g : Group) (b : BitVec 4) : (s.unlatch g b).pins = s.pins := rfl
@[simp] theorem State.unlatch_port (g : Group) (b : BitVec 4) : (s.unlatch g b).port = s.port := rfl

@[simp] theorem State.allow_cfg (g : Group) (b : BitVec 4) : (s.allow g b).cfg = s.cfg := rfl
@[simp] theorem State.allow_adc (g : Group) (b : BitVec 4) : (s.allow g b).adc = s.adc := rfl
@[simp] theorem State.allow_res (g : Group) (b : BitVec 4) : (s.allow g b).res = s.res := rfl
@[simp] theorem State.allow_cal (g : Group) (b : BitVec 4) : (s.allow g b).cal = s.cal := rfl
@[simp] theorem State.allow_pins (g : Group) (b : BitVec 4) : (s.allow g b).pins = s.pins := rfl
@[simp] theorem State.allow_port (g : Group) (b : BitVec 4) : (s.allow g b).port = s.port := rfl

@[simp] theorem State.disallow_cfg (g : Group) (b : BitVec 4) : (s.disallow g b).cfg = s.cfg := rfl
@[simp] theorem State.disallow_adc (g : Group) (b : BitVec 4) : (s.disallow g b).adc = s.adc := rfl
@[simp] theorem State.disallow_res (g : Group) (b : BitVec 4) : (s.disallow g b).res = s.res := rfl
@[simp] theorem State.disallow_cal (g : Group) (b : BitVec 4) : (s.disallow g b).cal = s.cal := rfl
@[simp] theorem State.disallow_pins (g : Group) (b : BitVec 4) : (s.disallow g b).pins = s.pins := rfl
@[simp] theorem State.disallow_port (g : Group) (b : BitVec 4) : (s.disallow g b).port = s.port := rfl

@[simp] theorem State.loadBases_cfg (a d : Word) : (s.loadBases a d).cfg = s.cfg := rfl
@[simp] theorem State.loadBases_ic (a d : Word) : (s.loadBases a d).ic = s.ic := rfl
@[simp] theorem State.loadBases_res (a d : Word) : (s.loadBases a d).res = s.res := rfl
@[simp] theorem State.loadBases_cal (a d : Word) : (s.loadBases a d).cal = s.cal := rfl
@[simp] theorem State.loadBases_pins (a d : Word) : (s.loadBases a d).pins = s.pins := rfl
@[simp] theorem State.loadBases_port (a d : Word) : (s.loadBases a d).port = s.port := rfl

@[simp] theorem State.startPass_cfg (a d : Word) : (s.startPass a d).cfg = s.cfg := rfl
@[simp] theorem State.startPass_ic (a d : Word) : (s.startPass a d).ic = s.ic := rfl
@[simp] theorem State.startPass_res (a d : Word) : (s.startPass a d).res = s.res := rfl
@[simp] theorem State.startPass_cal (a d : Word) : (s.startPass a d).cal = s.cal := rfl
@[simp] theorem State.startPass_pins (a d : Word) : (s.startPass a d).pins = s.pins := rfl
@[simp] theorem State.startPass_port (a d : Word) : (s.startPass a d).port = s.port := rfl

@[simp] theorem State.settle_cfg : (s.settle).cfg = s.cfg := rfl
@[simp] theorem State.settle_ic : (s.settle).ic = s.ic := rfl
@[simp] theorem State.settle_res : (s.settle).res = s.res := rfl
@[simp] theorem State.settle_cal : (s.settle).cal = s.cal := rfl
@[simp] theorem State.settle_pins : (s.settle).pins = s.pins := rfl
@[simp] theorem State.settle_port : (s.settle).port = s.port := rfl

@[simp] theorem State.armLoop_cfg : (s.armLoop).cfg = s.cfg := rfl
@[simp] theorem State.armLoop_ic : (s.armLoop).ic = s.ic := rfl
@[simp] theorem State.armLoop_res : (s.armLoop).res = s.res := rfl
@[simp] theorem State.armLoop_cal : (s.armLoop).cal = s.cal := rfl
@[simp] theorem State.armLoop_pins : (s.armLoop).pins = s.pins := rfl
@[simp] theorem State.armLoop_port : (s.armLoop).port = s.port := rfl

@[simp] theorem State.clearCtrl_cfg : (s.clearCtrl).cfg = s.cfg := rfl
@[simp] theorem State.clearCtrl_ic : (s.clearCtrl).ic = s.ic := rfl
@[simp] theorem State.clearCtrl_res : (s.clearCtrl).res = s.res := rfl
@[simp] theorem State.clearCtrl_cal : (s.clearCtrl).cal = s.cal := rfl
@[simp] theorem State.clearCtrl_pins : (s.clearCtrl).pins = s.pins := rfl
@[simp] theorem State.clearCtrl_port : (s.clearCtrl).port = s.port := rfl

@[simp] theorem State.trigger_cfg : (s.trigger).cfg = s.cfg := rfl
@[simp] theorem State.trigger_ic : (s.trigger).ic = s.ic := rfl
@[simp] theorem State.trigger_res : (s.trigger).res = s.res := rfl
@[simp] theorem State.trigger_cal : (s.trigger).cal = s.cal := rfl
@[simp] theorem State.trigger_pins : (s.trigger).pins = s.pins := rfl
@[simp] theorem State.trigger_port : (s.trigger).port = s.port := rfl

@[simp] theorem State.startRefOff_cfg : (s.startRefOff).cfg = s.cfg := rfl
@[simp] theorem State.startRefOff_ic : (s.startRefOff).ic = s.ic := rfl
@[simp] theorem State.startRefOff_res : (s.startRefOff).res = s.res := rfl
@[simp] theorem State.startRefOff_cal : (s.startRefOff).cal = s.cal := rfl
@[simp] theorem State.startRefOff_pins : (s.startRefOff).pins = s.pins := rfl
@[simp] theorem State.startRefOff_port : (s.startRefOff).port = s.port := rfl

@[simp] theorem State.logDiag_cfg (c : Word) : (s.logDiag c).cfg = s.cfg := rfl
@[simp] theorem State.logDiag_ic (c : Word) : (s.logDiag c).ic = s.ic := rfl
@[simp] theorem State.logDiag_adc (c : Word) : (s.logDiag c).adc = s.adc := rfl
@[simp] theorem State.logDiag_res (c : Word) : (s.logDiag c).res = s.res := rfl
@[simp] theorem State.logDiag_pins (c : Word) : (s.logDiag c).pins = s.pins := rfl
@[simp] theorem State.logDiag_port (c : Word) : (s.logDiag c).port = s.port := rfl

@[simp] theorem State.drivePin_cfg (p : Nat) (l : Bool) : (s.drivePin p l).cfg = s.cfg := rfl
@[simp] theorem State.drivePin_ic (p : Nat) (l : Bool) : (s.drivePin p l).ic = s.ic := rfl
@[simp] theorem State.drivePin_adc (p : Nat) (l : Bool) : (s.drivePin p l).adc = s.adc := rfl
@[simp] theorem State.drivePin_res (p : Nat) (l : Bool) : (s.drivePin p l).res = s.res := rfl
@[simp] theorem State.drivePin_cal (p : Nat) (l : Bool) : (s.drivePin p l).cal = s.cal := rfl
@[simp] theorem State.drivePin_port (p : Nat) (l : Bool) : (s.drivePin p l).port = s.port := rfl

@[simp] theorem State.validateOffset_cfg : (s.validateOffset).cfg = s.cfg := rfl
@[simp] theorem State.validateOffset_ic : (s.validateOffset).ic = s.ic := rfl
@[simp] theorem State.validateOffset_adc : (s.validateOffset).adc = s.adc := rfl
@[simp] theorem State.validateOffset_res : (s.validateOffset).res = s.res := rfl
@[simp] theorem State.validateOffset_pins : (s.validateOffset).pins = s.pins := rfl
@[simp] theorem State.validateOffset_port : (s.validateOffset).port = s.port := rfl

@[simp] theorem State.finishOp_cfg (o : Operation) : (s.finishOp o).cfg = s.cfg := rfl
@[simp] theorem State.finishOp_ic (o : Operation) : (s.finishOp o).ic = s.ic := rfl
@[simp] theorem State.finishOp_res (o : Operation) : (s.finishOp o).res = s.res := rfl
@[simp] theorem State.finishOp_cal (o : Operation) : (s.finishOp o).cal = s.cal := rfl
@[simp] theorem State.finishOp_pins (o : Operation) : (s.finishOp o).pins = s.pins := rfl

@[simp] theorem State.advance_cfg (p : Phase) (o : Operation) : (s.advance p o).cfg = s.cfg := rfl
@[simp] theorem State.advance_ic (p : Phase) (o : Operation) : (s.advance p o).ic = s.ic := rfl
@[simp] theorem State.advance_adc (p : Phase) (o : Operation) : (s.advance p o).adc = s.adc := rfl
@[simp] theorem State.advance_res (p : Phase) (o : Operation) : (s.advance p o).res = s.res := rfl
@[simp] theorem State.advance_cal (p : Phase) (o : Operation) : (s.advance p o).cal = s.cal := rfl
@[simp] theorem State.advance_pins (p : Phase) (o : Operation) : (s.advance p o).pins = s.pins := rfl

@[simp] theorem State.issueOp_cfg (o : Operation) : (s.issueOp o).cfg = s.cfg := rfl
@[simp] theorem State.issueOp_ic (o : Operation) : (s.issueOp o).ic = s.ic := rfl
@[simp] theorem State.issueOp_res (o : Operation) : (s.issueOp o).res = s.res := rfl
@[simp] theorem State.issueOp_cal (o : Operation) : (s.issueOp o).cal = s.cal := rfl
@[simp] theorem State.issueOp_pins (o : Operation) : (s.issueOp o).pins = s.pins := rfl

@[simp] theorem State.pushCommand_cfg (cw : CommandWord) : (s.pushCommand cw).cfg = s.cfg := rfl
@[simp] theorem State.pushCommand_ic (cw : CommandWord) : (s.pushCommand cw).ic = s.ic := rfl
@[simp] theorem State.pushCommand_adc (cw : CommandWord) : (s.pushCommand cw).adc = s.adc := rfl
@[simp] theorem State.pushCommand_res (cw : CommandWord) : (s.pushCommand cw).res = s.res := rfl
@[simp] theorem State.pushCommand_cal (cw : CommandWord) : (s.pushCommand cw).cal = s.cal := rfl
@[simp] theorem State.pushCommand_pins (cw : CommandWord) : (s.pushCommand cw).pins = s.pins := rfl

@[simp] theorem State.withInputs_cfg (xs : List Input) : (s.withInputs xs).cfg = s.cfg := rfl
@[simp] theorem State.withInputs_ic (xs : List Input) : (s.withInputs xs).ic = s.ic := rfl
@[simp] theorem State.withInputs_adc (xs : List Input) : (s.withInputs xs).adc = s.adc := rfl
@[simp] theorem State.withInputs_res (xs : List Input) : (s.withInputs xs).res = s.res := rfl
@[simp] theorem State.withInputs_cal (xs : List Input) : (s.withInputs xs).cal = s.cal := rfl
@[simp] theorem State.withInputs_pins (xs : List Input) : (s.withInputs xs).pins = s.pins := rfl

/-! ### What each update writes, and the rest of the component it touches -/

@[simp] theorem State.respond_port_op (v0 v1 : Word) : (s.respond v0 v1).port.op =
    s.port.op := rfl
@[simp] theorem State.respond_port_rsp (v0 v1 : Word) : (s.respond v0 v1).port.rsp =
    some ⟨0x00#8, v0, v1⟩ := rfl
@[simp] theorem State.respond_port_inputs (v0 v1 : Word) : (s.respond v0 v1).port.inputs =
    s.port.inputs := rfl
@[simp] theorem State.respond_port_tick (v0 v1 : Word) : (s.respond v0 v1).port.tick =
    s.port.tick := rfl

@[simp] theorem State.answerRefusal_port_op (c : BitVec 8) : (s.answerRefusal c).port.op =
    s.port.op := rfl
@[simp] theorem State.answerRefusal_port_rsp (c : BitVec 8) : (s.answerRefusal c).port.rsp =
    some ⟨c, 0x0000#16, 0x0000#16⟩ := rfl
@[simp] theorem State.answerRefusal_port_inputs (c : BitVec 8) : (s.answerRefusal c).port.inputs =
    s.port.inputs := rfl
@[simp] theorem State.answerRefusal_port_tick (c : BitVec 8) : (s.answerRefusal c).port.tick =
    s.port.tick := rfl

@[simp] theorem State.advance_port_op (p : Phase) (o : Operation) : (s.advance p o).port.op =
    some { o with phase := p } := rfl
@[simp] theorem State.advance_port_rsp (p : Phase) (o : Operation) : (s.advance p o).port.rsp =
    s.port.rsp := rfl
@[simp] theorem State.advance_port_inputs (p : Phase) (o : Operation) : (s.advance p o).port.inputs =
    s.port.inputs := rfl
@[simp] theorem State.advance_port_tick (p : Phase) (o : Operation) : (s.advance p o).port.tick =
    s.port.tick := rfl

@[simp] theorem State.issueOp_port_op (o : Operation) : (s.issueOp o).port.op =
    some o := rfl
@[simp] theorem State.issueOp_port_rsp (o : Operation) : (s.issueOp o).port.rsp =
    none := rfl
@[simp] theorem State.issueOp_port_inputs (o : Operation) : (s.issueOp o).port.inputs =
    s.port.inputs := rfl
@[simp] theorem State.issueOp_port_tick (o : Operation) : (s.issueOp o).port.tick =
    s.port.tick := rfl

@[simp] theorem State.issueOp_adc (o : Operation) : (s.issueOp o).adc =
    { s.adc with busyOp := true } := rfl

@[simp] theorem State.finishOp_adc (o : Operation) : (s.finishOp o).adc =
    { s.adc with busyOp := false } := rfl

@[simp] theorem State.finishOp_port_op (o : Operation) : (s.finishOp o).port.op =
    none := rfl
@[simp] theorem State.finishOp_port_inputs (o : Operation) : (s.finishOp o).port.inputs =
    s.port.inputs := rfl
@[simp] theorem State.finishOp_port_tick (o : Operation) : (s.finishOp o).port.tick =
    s.port.tick := rfl

@[simp] theorem State.pushCommand_port_op (cw : CommandWord) : (s.pushCommand cw).port.op =
    s.port.op := rfl
@[simp] theorem State.pushCommand_port_rsp (cw : CommandWord) : (s.pushCommand cw).port.rsp =
    s.port.rsp := rfl
@[simp] theorem State.pushCommand_port_inputs (cw : CommandWord) : (s.pushCommand cw).port.inputs =
    .command cw :: s.port.inputs := rfl
@[simp] theorem State.pushCommand_port_tick (cw : CommandWord) : (s.pushCommand cw).port.tick =
    s.port.tick := rfl

@[simp] theorem State.withInputs_port_op (xs : List Input) : (s.withInputs xs).port.op =
    s.port.op := rfl
@[simp] theorem State.withInputs_port_rsp (xs : List Input) : (s.withInputs xs).port.rsp =
    s.port.rsp := rfl
@[simp] theorem State.withInputs_port_inputs (xs : List Input) : (s.withInputs xs).port.inputs =
    xs := rfl
@[simp] theorem State.withInputs_port_tick (xs : List Input) : (s.withInputs xs).port.tick =
    s.port.tick := rfl

@[simp] theorem State.latch_ic_mask (g : Group) (b : BitVec 4) : (s.latch g b).ic.mask =
    s.ic.mask := rfl
@[simp] theorem State.latch_ic_pend (g : Group) (b : BitVec 4) : (s.latch g b).ic.pend =
    s.ic.pend.set g (s.ic.pend.get g ||| bitPattern b) := rfl

@[simp] theorem State.unlatch_ic_mask (g : Group) (b : BitVec 4) : (s.unlatch g b).ic.mask =
    s.ic.mask := rfl
@[simp] theorem State.unlatch_ic_pend (g : Group) (b : BitVec 4) : (s.unlatch g b).ic.pend =
    s.ic.pend.set g (s.ic.pend.get g &&& ~~~ bitPattern b) := rfl

@[simp] theorem State.allow_ic_pend (g : Group) (b : BitVec 4) : (s.allow g b).ic.pend =
    s.ic.pend := rfl
@[simp] theorem State.allow_ic_mask (g : Group) (b : BitVec 4) : (s.allow g b).ic.mask =
    s.ic.mask.set g (s.ic.mask.get g ||| bitPattern b) := rfl

@[simp] theorem State.disallow_ic_pend (g : Group) (b : BitVec 4) : (s.disallow g b).ic.pend =
    s.ic.pend := rfl
@[simp] theorem State.disallow_ic_mask (g : Group) (b : BitVec 4) : (s.disallow g b).ic.mask =
    s.ic.mask.set g (s.ic.mask.get g &&& ~~~ bitPattern b) := rfl

@[simp] theorem State.loadBases_adc (a d : Word) : (s.loadBases a d).adc =
    { s.adc with sbase := a, dbase := d, idx := 0x0000#16 } := rfl

@[simp] theorem State.startPass_adc (a d : Word) : (s.startPass a d).adc =
    { s.adc with sbase := a, dbase := d, idx := 0x0000#16, ctrl := 0x0000#16, state := .runSW } := rfl

@[simp] theorem State.settle_adc : (s.settle).adc =
    { s.adc with fePowered := true } := rfl

@[simp] theorem State.armLoop_adc : (s.armLoop).adc =
    { s.adc with ctrl := 0x0003#16, eocIe := true } := rfl

@[simp] theorem State.clearCtrl_adc : (s.clearCtrl).adc =
    { s.adc with ctrl := 0x0000#16 } := rfl

@[simp] theorem State.trigger_adc : (s.trigger).adc =
    { s.adc with start := true } := rfl

@[simp] theorem State.startRefOff_adc : (s.startRefOff).adc =
    { s.adc with sbase := s.cfg.refoffTable, dbase := 0x0000#16, idx := 0x0000#16, state := .runSW, start := true } := rfl

@[simp] theorem State.logDiag_cal (c : Word) : (s.logDiag c).cal =
    { s.cal with diagLog := s.cal.diagLog ++ [c] } := rfl

@[simp] theorem State.drivePin_pins (p : Nat) (l : Bool) : (s.drivePin p l).pins =
    { s.pins with gpioOut := setPin s.pins.gpioOut p l } := rfl

@[simp] theorem State.validateOffset_cal : (s.validateOffset).cal =
    { s.cal with zeroOff := if offsetImplausible s.cal then s.cal.storedOff else s.cal.measOff } := rfl

/-! ### Conditional updates -/

@[simp] theorem State.recordRails_cfg (v0 v1 : Word) : (s.recordRails v0 v1).cfg = s.cfg := by
  unfold State.recordRails; split <;> rfl
@[simp] theorem State.recordRails_ic (v0 v1 : Word) : (s.recordRails v0 v1).ic = s.ic := by
  unfold State.recordRails; split <;> rfl
@[simp] theorem State.recordRails_adc (v0 v1 : Word) : (s.recordRails v0 v1).adc = s.adc := by
  unfold State.recordRails; split <;> rfl
@[simp] theorem State.recordRails_res (v0 v1 : Word) : (s.recordRails v0 v1).res = s.res := by
  unfold State.recordRails; split <;> rfl
@[simp] theorem State.recordRails_pins (v0 v1 : Word) : (s.recordRails v0 v1).pins = s.pins := by
  unfold State.recordRails; split <;> rfl
@[simp] theorem State.recordRails_port (v0 v1 : Word) : (s.recordRails v0 v1).port = s.port := by
  unfold State.recordRails; split <;> rfl

@[simp] theorem State.recordPin_cfg (p : Nat) (vh vl : Word) : (s.recordPin p vh vl).cfg = s.cfg := by
  unfold State.recordPin; split <;> rfl
@[simp] theorem State.recordPin_ic (p : Nat) (vh vl : Word) : (s.recordPin p vh vl).ic = s.ic := by
  unfold State.recordPin; split <;> rfl
@[simp] theorem State.recordPin_adc (p : Nat) (vh vl : Word) : (s.recordPin p vh vl).adc = s.adc := by
  unfold State.recordPin; split <;> rfl
@[simp] theorem State.recordPin_res (p : Nat) (vh vl : Word) : (s.recordPin p vh vl).res = s.res := by
  unfold State.recordPin; split <;> rfl
@[simp] theorem State.recordPin_port (p : Nat) (vh vl : Word) : (s.recordPin p vh vl).port = s.port := by
  unfold State.recordPin; split <;> rfl

@[simp] theorem State.nextTask_cfg (o : Operation) : (s.nextTask o).cfg = s.cfg := by
  unfold State.nextTask; split <;> rfl
@[simp] theorem State.nextTask_ic (o : Operation) : (s.nextTask o).ic = s.ic := by
  unfold State.nextTask; split <;> rfl
@[simp] theorem State.nextTask_res (o : Operation) : (s.nextTask o).res = s.res := by
  unfold State.nextTask; split <;> rfl
@[simp] theorem State.nextTask_cal (o : Operation) : (s.nextTask o).cal = s.cal := by
  unfold State.nextTask; split <;> rfl
@[simp] theorem State.nextTask_pins (o : Operation) : (s.nextTask o).pins = s.pins := by
  unfold State.nextTask; split <;> rfl
@[simp] theorem State.nextTask_adc (o : Operation) :
    (s.nextTask o).adc = { s.adc with busyOp := !o.todo.isEmpty && s.adc.busyOp } := by
  unfold State.nextTask; split <;> simp_all
@[simp] theorem State.nextTask_port_op (o : Operation) :
    (s.nextTask o).port.op = if o.todo.isEmpty then none else some { o with phase := .task } := by
  unfold State.nextTask; split <;> simp_all
@[simp] theorem State.nextTask_port_inputs (o : Operation) : (s.nextTask o).port.inputs = s.port.inputs := by
  unfold State.nextTask; split <;> rfl
@[simp] theorem State.nextTask_port_tick (o : Operation) : (s.nextTask o).port.tick = s.port.tick := by
  unfold State.nextTask; split <;> rfl

@[simp] theorem State.issueTasks_cfg (todo : List Task) (a : Answer) : (s.issueTasks todo a).cfg = s.cfg := by
  simp [State.issueTasks]
@[simp] theorem State.issueTasks_ic (todo : List Task) (a : Answer) : (s.issueTasks todo a).ic = s.ic := by
  simp [State.issueTasks]
@[simp] theorem State.issueTasks_res (todo : List Task) (a : Answer) : (s.issueTasks todo a).res = s.res := by
  simp [State.issueTasks]
@[simp] theorem State.issueTasks_cal (todo : List Task) (a : Answer) : (s.issueTasks todo a).cal = s.cal := by
  simp [State.issueTasks]
@[simp] theorem State.issueTasks_pins (todo : List Task) (a : Answer) : (s.issueTasks todo a).pins = s.pins := by
  simp [State.issueTasks]
@[simp] theorem State.issueTasks_adc (todo : List Task) (a : Answer) :
    (s.issueTasks todo a).adc = { s.adc with busyOp := !todo.isEmpty } := by
  simp [State.issueTasks, Operation.fresh, State.issueOp]
@[simp] theorem State.issueTasks_port_op (todo : List Task) (a : Answer) :
    (s.issueTasks todo a).port.op = if todo.isEmpty then none else some (Operation.fresh .task todo a) := by
  simp [State.issueTasks, Operation.fresh]
@[simp] theorem State.issueTasks_port_inputs (todo : List Task) (a : Answer) :
    (s.issueTasks todo a).port.inputs = s.port.inputs := by
  simp [State.issueTasks, State.issueOp]

@[simp] theorem State.dropInput_cfg : s.dropInput.cfg = s.cfg := by unfold State.dropInput; split <;> rfl
@[simp] theorem State.dropInput_ic : s.dropInput.ic = s.ic := by unfold State.dropInput; split <;> rfl
@[simp] theorem State.dropInput_adc : s.dropInput.adc = s.adc := by unfold State.dropInput; split <;> rfl
@[simp] theorem State.dropInput_res : s.dropInput.res = s.res := by unfold State.dropInput; split <;> rfl
@[simp] theorem State.dropInput_cal : s.dropInput.cal = s.cal := by unfold State.dropInput; split <;> rfl
@[simp] theorem State.dropInput_pins : s.dropInput.pins = s.pins := by unfold State.dropInput; split <;> rfl
@[simp] theorem State.dropInput_op : s.dropInput.port.op = s.port.op := by unfold State.dropInput; split <;> rfl
@[simp] theorem State.dropInput_rsp : s.dropInput.port.rsp = s.port.rsp := by unfold State.dropInput; split <;> rfl

/-! ### One value per group -/

@[simp] theorem get_set_same {α : Type} (p : PerGroup α) (g : Group) (v : α) : (p.set g v).get g = v := by
  cases g <;> rfl

theorem get_set_other {α : Type} (p : PerGroup α) {g h : Group} (v : α) (ne : h ≠ g) : (p.set g v).get h = p.get h := by
  cases g <;> cases h <;> first | rfl | exact absurd rfl ne

theorem get_set {α : Type} (p : PerGroup α) (g h : Group) (v : α) :
    (p.set g v).get h = if h = g then v else p.get h := by
  cases g <;> cases h <;> rfl

@[simp] theorem get_all {α : Type} (v : α) (g : Group) : (PerGroup.all v).get g = v := by cases g <;> rfl

@[simp] theorem groupOfField_fieldOfGroup (g : Group) : groupOfField (fieldOfGroup g) = some g := by cases g <;> rfl

theorem fieldOfGroup_of_groupOfField {g : BitVec 4} {grp : Group} (h : groupOfField g = some grp) :
    g = fieldOfGroup grp := by
  revert h; revert g; cases grp <;> decide

end Sys2Proof.Machine
end

