-- ==== Sys2Proof/Laws/Ops.lean ====
section
/-! SUPPORT. One spec lemma per shared operation: when it answers next, refuses or faults, and what then holds. Later
proofs cite these and do not unfold the operations. -/

namespace Sys2Proof.Machine

/-! ### The checks of R74 -/

@[simp] theorem require_next {c : Bool} {r : Refusal} {k : Result} {t : State} :
    require c r k = .next t ↔ c = true ∧ k = .next t := by
  unfold require; split <;> simp_all

@[simp] theorem require_refused {c : Bool} {r q : Refusal} {k : Result} :
    require c r k = .refused q ↔ (c = false ∧ r = q) ∨ (c = true ∧ k = .refused q) := by
  unfold require; split <;> simp_all

@[simp] theorem require_fault {c : Bool} {r : Refusal} {k : Result} {f : Fault} :
    require c r k = .fault f ↔ c = true ∧ k = .fault f := by
  unfold require; split <;> simp_all

theorem withGroup_next {g : BitVec 4} {k : Group → Result} {t : State} :
    withGroup g k = .next t ↔ ∃ grp, groupOfField g = some grp ∧ k grp = .next t := by
  unfold withGroup; split <;> simp_all

theorem withGroup_refused {g : BitVec 4} {k : Group → Result} {q : Refusal} :
    withGroup g k = .refused q ↔
      (groupOfField g = none ∧ .groupRange = q) ∨ ∃ grp, groupOfField g = some grp ∧ k grp = .refused q := by
  unfold withGroup; split <;> simp_all

theorem withGroup_fault {g : BitVec 4} {k : Group → Result} {f : Fault} :
    withGroup g k = .fault f ↔ ∃ grp, groupOfField g = some grp ∧ k grp = .fault f := by
  unfold withGroup; split <;> simp_all

theorem withSource_next {g b : BitVec 4} {s t : State} {k : Group → Result} :
    withSource g b s k = .next t ↔
      ∃ grp, groupOfField g = some grp ∧ b.toNat < s.cfg.srcCount.get grp ∧ k grp = .next t := by
  simp [withSource, withGroup_next]

theorem withSource_refused {g b : BitVec 4} {s : State} {k : Group → Result} {q : Refusal} :
    withSource g b s k = .refused q ↔
      (groupOfField g = none ∧ .groupRange = q) ∨
      ∃ grp, groupOfField g = some grp ∧
        ((s.cfg.srcCount.get grp ≤ b.toNat ∧ .bitRange = q) ∨
          (b.toNat < s.cfg.srcCount.get grp ∧ k grp = .refused q)) := by
  simp [withSource, withGroup_refused]

theorem withSource_fault {g b : BitVec 4} {s : State} {k : Group → Result} {f : Fault} :
    withSource g b s k = .fault f ↔
      ∃ grp, groupOfField g = some grp ∧ b.toNat < s.cfg.srcCount.get grp ∧ k grp = .fault f := by
  simp [withSource, withGroup_fault]

theorem withTopology_next {b : BitVec 4} {s t : State} {k : Topology → Result} :
    withTopology b s k = .next t ↔ ∃ topo, topologyOf s.cfg b = some topo ∧ k topo = .next t := by
  unfold withTopology; split <;> simp_all

theorem withTopology_refused {b : BitVec 4} {s : State} {k : Topology → Result} {q : Refusal} :
    withTopology b s k = .refused q ↔
      (topologyOf s.cfg b = none ∧ .badTopology = q) ∨
      ∃ topo, topologyOf s.cfg b = some topo ∧ k topo = .refused q := by
  unfold withTopology; split <;> simp_all

theorem withTopology_fault {b : BitVec 4} {s : State} {k : Topology → Result} {f : Fault} :
    withTopology b s k = .fault f ↔ ∃ topo, topologyOf s.cfg b = some topo ∧ k topo = .fault f := by
  unfold withTopology; split <;> simp_all

theorem withRes_next {a : Nat} {s t : State} {k : Word → Result} :
    withRes s a k = .next t ↔ ∃ w, s.readRes a = some w ∧ k w = .next t := by
  unfold withRes; split <;> simp_all

theorem withRes_refused {a : Nat} {s : State} {k : Word → Result} {q : Refusal} :
    withRes s a k = .refused q ↔ ∃ w, s.readRes a = some w ∧ k w = .refused q := by
  unfold withRes; split <;> simp_all

theorem withRes_fault {a : Nat} {s : State} {k : Word → Result} {f : Fault} :
    withRes s a k = .fault f ↔
      (s.readRes a = none ∧ .resOutside = f) ∨ ∃ w, s.readRes a = some w ∧ k w = .fault f := by
  unfold withRes; split <;> simp_all

/-- The precondition of R120 holds, or the operation is refused. -/
theorem requireIdle_next {s t : State} {k : Result} :
    requireIdle s k = .next t ↔ s.adc.state = .idle ∧ s.adc.busyOp = false ∧ k = .next t := by
  simp [requireIdle, and_assoc]

theorem requireIdle_refused {s : State} {k : Result} {q : Refusal} :
    requireIdle s k = .refused q ↔
      ((s.adc.state = .idle → s.adc.busyOp = true) ∧ .badState = q) ∨
      (s.adc.state = .idle ∧ s.adc.busyOp = false ∧ k = .refused q) := by
  simp [requireIdle, and_assoc]

theorem requireIdle_fault {s : State} {k : Result} {f : Fault} :
    requireIdle s k = .fault f ↔ s.adc.state = .idle ∧ s.adc.busyOp = false ∧ k = .fault f := by
  simp [requireIdle, and_assoc]

/-- When a table selection is let through (R120, R127; log 12). -/
theorem requireSelectable_next {s t : State} {k : Result} :
    requireSelectable s k = .next t ↔ (s.cfg.busyRefusesSelect = false ∨ s.adc.busyOp = false) ∧ k = .next t := by
  simp [requireSelectable]

theorem requireSelectable_refused {s : State} {k : Result} {q : Refusal} :
    requireSelectable s k = .refused q ↔
      ((s.cfg.busyRefusesSelect = true ∧ s.adc.busyOp = true) ∧ .badState = q) ∨
        ((s.cfg.busyRefusesSelect = false ∨ s.adc.busyOp = false) ∧ k = .refused q) := by
  simp [requireSelectable]

theorem requireSelectable_fault {s : State} {k : Result} {f : Fault} :
    requireSelectable s k = .fault f ↔ (s.cfg.busyRefusesSelect = false ∨ s.adc.busyOp = false) ∧ k = .fault f := by
  simp [requireSelectable]

theorem requireStoppable_next {s t : State} {k : Result} :
    requireStoppable s k = .next t ↔ s.adc.state ≠ .runSW ∧ s.adc.busyOp = false ∧ k = .next t := by
  simp [requireStoppable, and_assoc]

theorem requireStoppable_refused {s : State} {k : Result} {q : Refusal} :
    requireStoppable s k = .refused q ↔
      ((s.adc.state ≠ .runSW → s.adc.busyOp = true) ∧ .badState = q) ∨
      (s.adc.state ≠ .runSW ∧ s.adc.busyOp = false ∧ k = .refused q) := by
  simp [requireStoppable, and_assoc]

theorem requireStoppable_fault {s : State} {k : Result} {f : Fault} :
    requireStoppable s k = .fault f ↔ s.adc.state ≠ .runSW ∧ s.adc.busyOp = false ∧ k = .fault f := by
  simp [requireStoppable, and_assoc]

/-! ### The spaces -/

theorem readRes_some {s : State} {a : Nat} {w : Word} :
    s.readRes a = some w ↔ a < s.cfg.resWords ∧ Memory.read Memory.resUnwritten s.res a = w := by
  unfold State.readRes; split <;> simp_all

theorem readRes_none {s : State} {a : Nat} : s.readRes a = none ↔ s.cfg.resWords ≤ a := by
  unfold State.readRes; split <;> simp_all

theorem readSeq_some {s : State} {a : Nat} {w : Word} :
    s.readSeq a = some w ↔ a < s.cfg.seqWords ∧ Memory.read Memory.seqUnlisted s.cfg.seq a = w := by
  unfold State.readSeq; split <;> simp_all

/-- Two states with the same configuration and the same RES read the same words. -/
theorem readRes_congr {s t : State} (hc : t.cfg = s.cfg) (hr : t.res = s.res) (a : Nat) : t.readRes a = s.readRes a := by
  simp [State.readRes, hc, hr]

/-- A store to RES changes RES and nothing else (R52). -/
theorem writeRes_some {s t : State} {a : Nat} {w : Word} :
    s.writeRes a w = some t ↔
      a < s.cfg.resWords ∧ t = { s with res := Memory.write Memory.resUnwritten s.res a w } := by
  unfold State.writeRes; split <;> simp_all [eq_comm]

/-- A store to RES keeps RES canonical and inside RES. -/
theorem writeRes_resWf {s t : State} {a : Nat} {w : Word} (h : s.resWf = true) (hw : s.writeRes a w = some t) :
    t.resWf = true := by
  obtain ⟨ha, rfl⟩ := writeRes_some.mp hw
  simp only [State.resWf, Bool.and_eq_true, List.all_eq_true, decide_eq_true_eq] at h ⊢
  refine ⟨Memory.wf_write a w h.1, fun c hc => ?_⟩
  rcases Memory.mem_write hc with hc | hc
  · subst hc; exact ha
  · exact h.2 c hc

/-- The word stored is read back, and every other word reads as before. -/
theorem readRes_writeRes {s t : State} {a b : Nat} {w : Word} (h : s.resWf = true) (hw : s.writeRes a w = some t) :
    t.readRes b = if b = a then some w else s.readRes b := by
  obtain ⟨ha, rfl⟩ := writeRes_some.mp hw
  simp only [State.resWf, Bool.and_eq_true] at h
  unfold State.readRes
  by_cases hb : b = a
  · subst hb; simp [ha, Memory.read_write _ _ _ h.1]
  · simp [hb, Memory.read_write _ _ _ h.1]

/-! ### Operations in progress -/

/-- The next task is due, or the operation is done. -/
theorem nextTask_cases (s : State) (o : Operation) :
    (o.todo = [] ∧ s.nextTask o = s.finishOp o) ∨ (o.todo ≠ [] ∧ s.nextTask o = s.advance .task o) := by
  unfold State.nextTask; split <;> simp_all

/-! ### The engine -/

/-- Everything the engine's begin step can do (R134). -/
theorem engineBegin_next {s t : State} {event : Option (BitVec 4)} (h : engineBegin event s = .next t) :
    t = s ∨ ∃ e, s.adc.mayBegin = true ∧ s.entry s.adc.idx = some e ∧ entryEnd e = false ∧
      triggerHolds s e event = true ∧ t = { s with adc := { s.adc with cur := e, inflight := true } } := by
  unfold engineBegin at h
  split at h
  · rename_i hm
    split at h
    · cases h
    · rename_i e he
      split at h
      · rename_i hg
        simp only [Bool.and_eq_true, Bool.not_eq_true'] at hg
        injection h with h
        exact .inr ⟨e, hm, he, hg.1, hg.2, h.symm⟩
      · injection h with h; exact .inl h.symm
  · injection h with h; exact .inl h.symm

/-- Everything the engine's complete step can do (R135). -/
theorem engineComplete_next {s t : State} {draw : Word} (h : engineComplete draw s = .next t) :
    (s.adc.inflight = false ∧ t = s) ∨
    ∃ s1 e, s.adc.inflight = true ∧ s.storeSample (sampleOf s.cfg draw) = some s1 ∧
      s.entry (s.adc.idx + 1) = some e ∧ t = { s1 with adc := s.adc.completed (entryEnd e) } := by
  unfold engineComplete at h
  split at h
  · rename_i hi
    split at h
    · cases h
    · rename_i s1 hs1
      split at h
      · cases h
      · rename_i e he
        injection h with h
        exact .inr ⟨s1, e, hi, hs1, he, h.symm⟩
  · rename_i hi
    injection h with h
    exact .inl ⟨by simpa using hi, h.symm⟩

/-- The result store writes one word of RES, or none for `CH_NONE` (R135). -/
theorem storeSample_some {s t : State} {w : Word} :
    s.storeSample w = some t ↔
      (entryCh s.adc.cur = chNone ∧ t = s) ∨
      (entryCh s.adc.cur ≠ chNone ∧ s.writeRes (s.adc.dbase + s.adc.idx).toNat w = some t) := by
  unfold State.storeSample
  by_cases h : entryCh s.adc.cur = chNone
  · simp [h, eq_comm (a := s)]
  · simp [h]

/-! ### A command word -/

/-- A refused command word is answered with its code; only a missing meaning would stop the machine. -/
theorem answerRefused_next {s : State} {r : Refusal} {code : BitVec 8} (h : refusalCode r = some code) :
    answerRefused r s = .next (s.answerRefusal code) := by
  simp [answerRefused, h]

/-- Everything a command word can do: it is answered as refused, or its operation makes its first step. -/
theorem runCommand_next {cw : CommandWord} {s t : State} (h : runCommand cw s = .next t) :
    (∃ code, t = s.answerRefusal code) ∨ ∃ i, decode cw = .ok i ∧ exec i s = .next t := by
  have answered : ∀ r, answerRefused r s = .next t → ∃ code, t = s.answerRefusal code := by
    intro r hr
    unfold answerRefused at hr
    split at hr
    · rename_i code _
      injection hr with hr
      exact ⟨code, hr.symm⟩
    · cases hr
  unfold runCommand at h
  split at h
  · exact .inl (answered _ h)
  · rename_i i hi
    split at h
    · rename_i t' ht
      injection h with h
      subst h
      exact .inr ⟨i, hi, ht⟩
    · cases h
    · exact .inl (answered _ h)

end Sys2Proof.Machine
end

