-- ==== Sys2Proof/Laws/PerInstr.lean ====
section
/-! SUPPORT. Per operation: the word the encoder gives carries the fixed bits of that operation's row of the opcode table,
under the row's mask. Reserved fields are in the mask, so no operand can reach them (R72, R73). -/

namespace Sys2Proof.Laws.OpcodeRow

/-- The bits of each field that a mask keeps. -/
def masked (f m : CwFields) : CwFields := ⟨f.op &&& m.op, f.g &&& m.g, f.b &&& m.b, f.x &&& m.x, f.y &&& m.y⟩

/-- The mask and the fixed bits of the operation's row in the opcode table, cut into the fields of R70. -/
def row : Instr → CwFields × CwFields
  | .icInit => (⟨0xFF#8, 0xF#4, 0xF#4, 0xFFFF#16, 0xFFFF#16⟩, ⟨0x01#8, 0x0#4, 0x0#4, 0x0000#16, 0x0000#16⟩)
  | .icEnable _ _ => (⟨0xFF#8, 0x0#4, 0x0#4, 0xFFFF#16, 0xFFFF#16⟩, ⟨0x02#8, 0x0#4, 0x0#4, 0x0000#16, 0x0000#16⟩)
  | .icDisable _ _ => (⟨0xFF#8, 0x0#4, 0x0#4, 0xFFFF#16, 0xFFFF#16⟩, ⟨0x03#8, 0x0#4, 0x0#4, 0x0000#16, 0x0000#16⟩)
  | .icAck _ _ => (⟨0xFF#8, 0x0#4, 0x0#4, 0xFFFF#16, 0xFFFF#16⟩, ⟨0x04#8, 0x0#4, 0x0#4, 0x0000#16, 0x0000#16⟩)
  | .icVector _ => (⟨0xFF#8, 0x0#4, 0xF#4, 0xFFFF#16, 0xFFFF#16⟩, ⟨0x05#8, 0x0#4, 0x0#4, 0x0000#16, 0x0000#16⟩)
  | .icRdpend _ => (⟨0xFF#8, 0x0#4, 0xF#4, 0xFFFF#16, 0xFFFF#16⟩, ⟨0x06#8, 0x0#4, 0x0#4, 0x0000#16, 0x0000#16⟩)
  | .icRdmask _ => (⟨0xFF#8, 0x0#4, 0xF#4, 0xFFFF#16, 0xFFFF#16⟩, ⟨0x07#8, 0x0#4, 0x0#4, 0x0000#16, 0x0000#16⟩)
  | .adcInit => (⟨0xFF#8, 0xF#4, 0xF#4, 0xFFFF#16, 0xFFFF#16⟩, ⟨0x10#8, 0x0#4, 0x0#4, 0x0000#16, 0x0000#16⟩)
  | .adcConfigure _ _ => (⟨0xFF#8, 0xF#4, 0xF#4, 0x0000#16, 0x0000#16⟩, ⟨0x11#8, 0x0#4, 0x0#4, 0x0000#16, 0x0000#16⟩)
  | .adcStartSw _ _ => (⟨0xFF#8, 0xF#4, 0xF#4, 0x0000#16, 0x0000#16⟩, ⟨0x12#8, 0x0#4, 0x0#4, 0x0000#16, 0x0000#16⟩)
  | .adcStartHw _ _ => (⟨0xFF#8, 0xF#4, 0xF#4, 0x0000#16, 0x0000#16⟩, ⟨0x13#8, 0x0#4, 0x0#4, 0x0000#16, 0x0000#16⟩)
  | .adcStop => (⟨0xFF#8, 0xF#4, 0xF#4, 0xFFFF#16, 0xFFFF#16⟩, ⟨0x14#8, 0x0#4, 0x0#4, 0x0000#16, 0x0000#16⟩)
  | .adcPowerOff => (⟨0xFF#8, 0xF#4, 0xF#4, 0xFFFF#16, 0xFFFF#16⟩, ⟨0x15#8, 0x0#4, 0x0#4, 0x0000#16, 0x0000#16⟩)
  | .adcSelectTable _ _ _ => (⟨0xFF#8, 0x0#4, 0xE#4, 0x0000#16, 0xFFFF#16⟩, ⟨0x16#8, 0x0#4, 0x0#4, 0x0000#16, 0x0000#16⟩)
  | .adcStart _ _ => (⟨0xFF#8, 0x0#4, 0xF#4, 0x0000#16, 0xFFFF#16⟩, ⟨0x17#8, 0x0#4, 0x0#4, 0x0000#16, 0x0000#16⟩)
  | .adcEocIe _ => (⟨0xFF#8, 0xF#4, 0xE#4, 0xFFFF#16, 0xFFFF#16⟩, ⟨0x18#8, 0x0#4, 0x0#4, 0x0000#16, 0x0000#16⟩)
  | .adcEocAck => (⟨0xFF#8, 0xF#4, 0xF#4, 0xFFFF#16, 0xFFFF#16⟩, ⟨0x19#8, 0x0#4, 0x0#4, 0x0000#16, 0x0000#16⟩)
  | .adcRdstat => (⟨0xFF#8, 0xF#4, 0xF#4, 0xFFFF#16, 0xFFFF#16⟩, ⟨0x1A#8, 0x0#4, 0x0#4, 0x0000#16, 0x0000#16⟩)
  | .adcRdres _ => (⟨0xFF#8, 0xF#4, 0xF#4, 0x0000#16, 0xFFFF#16⟩, ⟨0x1B#8, 0x0#4, 0x0#4, 0x0000#16, 0x0000#16⟩)
  | .calRails => (⟨0xFF#8, 0xF#4, 0xF#4, 0xFFFF#16, 0xFFFF#16⟩, ⟨0x20#8, 0x0#4, 0x0#4, 0x0000#16, 0x0000#16⟩)
  | .calPins => (⟨0xFF#8, 0xF#4, 0xF#4, 0xFFFF#16, 0xFFFF#16⟩, ⟨0x21#8, 0x0#4, 0x0#4, 0x0000#16, 0x0000#16⟩)
  | .calMeasureOffset => (⟨0xFF#8, 0xF#4, 0xF#4, 0xFFFF#16, 0xFFFF#16⟩, ⟨0x22#8, 0x0#4, 0x0#4, 0x0000#16, 0x0000#16⟩)
  | .calValidateOffset => (⟨0xFF#8, 0xF#4, 0xF#4, 0xFFFF#16, 0xFFFF#16⟩, ⟨0x23#8, 0x0#4, 0x0#4, 0x0000#16, 0x0000#16⟩)
  | .calSelftest => (⟨0xFF#8, 0xF#4, 0xF#4, 0xFFFF#16, 0xFFFF#16⟩, ⟨0x24#8, 0x0#4, 0x0#4, 0x0000#16, 0x0000#16⟩)
  | .getSupplyV => (⟨0xFF#8, 0xF#4, 0xF#4, 0xFFFF#16, 0xFFFF#16⟩, ⟨0x28#8, 0x0#4, 0x0#4, 0x0000#16, 0x0000#16⟩)
  | .getMotorV => (⟨0xFF#8, 0xF#4, 0xF#4, 0xFFFF#16, 0xFFFF#16⟩, ⟨0x29#8, 0x0#4, 0x0#4, 0x0000#16, 0x0000#16⟩)
  | .getPhaseV => (⟨0xFF#8, 0xF#4, 0xF#4, 0xFFFF#16, 0xFFFF#16⟩, ⟨0x2A#8, 0x0#4, 0x0#4, 0x0000#16, 0x0000#16⟩)
  | .getChipTemp _ => (⟨0xFF#8, 0xF#4, 0xE#4, 0xFFFF#16, 0xFFFF#16⟩, ⟨0x2B#8, 0x0#4, 0x0#4, 0x0000#16, 0x0000#16⟩)
  | .getCurRaw _ => (⟨0xFF#8, 0x0#4, 0xF#4, 0xFFFF#16, 0xFFFF#16⟩, ⟨0x2C#8, 0x0#4, 0x0#4, 0x0000#16, 0x0000#16⟩)
  | .getCurScaled _ => (⟨0xFF#8, 0x0#4, 0xF#4, 0xFFFF#16, 0xFFFF#16⟩, ⟨0x2D#8, 0x0#4, 0x0#4, 0x0000#16, 0x0000#16⟩)

/-- The fixed bits of the row, under its mask, are those of the operation's word. -/
def Statement (i : Instr) : Prop := masked (CwFields.ofWord (encode i)) (row i).1 = (row i).2

theorem of_fields {i : Instr} (h : masked i.fields (row i).1 = (row i).2) : Statement i := by
  unfold Statement encode
  rw [CwFields.ofWord_toWord]
  exact h

theorem icInit : Statement .icInit := of_fields (by decide)
theorem icEnable (g b : BitVec 4) : Statement (.icEnable g b) := of_fields (by simp [masked, row, Instr.fields])
theorem icDisable (g b : BitVec 4) : Statement (.icDisable g b) := of_fields (by simp [masked, row, Instr.fields])
theorem icAck (g b : BitVec 4) : Statement (.icAck g b) := of_fields (by simp [masked, row, Instr.fields])
theorem icVector (g : BitVec 4) : Statement (.icVector g) := of_fields (by simp [masked, row, Instr.fields])
theorem icRdpend (g : BitVec 4) : Statement (.icRdpend g) := of_fields (by simp [masked, row, Instr.fields])
theorem icRdmask (g : BitVec 4) : Statement (.icRdmask g) := of_fields (by simp [masked, row, Instr.fields])
theorem adcInit : Statement .adcInit := of_fields (by decide)
theorem adcConfigure (table dest : Word) : Statement (.adcConfigure table dest) := of_fields (by simp [masked, row, Instr.fields])
theorem adcStartSw (table dest : Word) : Statement (.adcStartSw table dest) := of_fields (by simp [masked, row, Instr.fields])
theorem adcStartHw (table dest : Word) : Statement (.adcStartHw table dest) := of_fields (by simp [masked, row, Instr.fields])
theorem adcStop : Statement .adcStop := of_fields (by decide)
theorem adcPowerOff : Statement .adcPowerOff := of_fields (by decide)
theorem adcSelectTable (t : BitVec 4) (psd : Bool) (index : Word) : Statement (.adcSelectTable t psd index) :=
  of_fields (by cases psd <;> simp [masked, row, Instr.fields, flagField])
theorem adcStart (t : BitVec 4) (index : Word) : Statement (.adcStart t index) := of_fields (by simp [masked, row, Instr.fields])
theorem adcEocIe (en : Bool) : Statement (.adcEocIe en) :=
  of_fields (by cases en <;> simp [masked, row, Instr.fields, flagField])
theorem adcEocAck : Statement .adcEocAck := of_fields (by decide)
theorem adcRdstat : Statement .adcRdstat := of_fields (by decide)
theorem adcRdres (address : Word) : Statement (.adcRdres address) := of_fields (by simp [masked, row, Instr.fields])
theorem calRails : Statement .calRails := of_fields (by decide)
theorem calPins : Statement .calPins := of_fields (by decide)
theorem calMeasureOffset : Statement .calMeasureOffset := of_fields (by decide)
theorem calValidateOffset : Statement .calValidateOffset := of_fields (by decide)
theorem calSelftest : Statement .calSelftest := of_fields (by decide)
theorem getSupplyV : Statement .getSupplyV := of_fields (by decide)
theorem getMotorV : Statement .getMotorV := of_fields (by decide)
theorem getPhaseV : Statement .getPhaseV := of_fields (by decide)
theorem getChipTemp (first : Bool) : Statement (.getChipTemp first) :=
  of_fields (by cases first <;> simp [masked, row, Instr.fields, flagField])
theorem getCurRaw (t : BitVec 4) : Statement (.getCurRaw t) := of_fields (by simp [masked, row, Instr.fields])
theorem getCurScaled (t : BitVec 4) : Statement (.getCurScaled t) := of_fields (by simp [masked, row, Instr.fields])

end Sys2Proof.Laws.OpcodeRow
end

