-- ==== Sys2Proof/Laws/Step.lean ====
section
/-! SUPPORT. Said once: everything an operation's first step can do, everything the complete step does to the sequencer, and
everything an input can do. Statements about every step cite these and unfold no meaning. -/

namespace Sys2Proof.Machine

/-- What `ADC_START_HW` and `ADC_START` do with a table and a destination (R124). -/
def loopEffect (table dest : Word) (s t : State) : Prop :=
  s.adc.state = .idle ∧ s.adc.busyOp = false ∧ tableOk s.cfg table.toNat dest.toNat .hw = true ∧
    t = if s.adc.fePowered then
        State.respond { s with adc := { s.adc with
          state := .runHW, sbase := table, dbase := dest, idx := 0#16, ctrl := 3#16, eocIe := true } } 0 0
      else
        State.issueOp { s with adc := { s.adc with state := .runHW, sbase := table, dbase := dest, idx := 0#16 } }
          (Operation.fresh .hwSettle [] .nothing)

/-- Everything the first step of an operation can do when it is accepted. -/
def effect (i : Instr) (s t : State) : Prop :=
  match i with
  | .icInit => t = State.respond { s with ic := { mask := PerGroup.all 0x0000#16, pend := PerGroup.all 0x0000#16 } } 0 0
  | .icEnable g b => ∃ grp, groupOfField g = some grp ∧ b.toNat < s.cfg.srcCount.get grp ∧
      t = ((s.latch grp b).allow grp b).respond 0 0
  | .icDisable g b => ∃ grp, groupOfField g = some grp ∧ b.toNat < s.cfg.srcCount.get grp ∧
      t = (s.disallow grp b).respond 0 0
  | .icAck g b => ∃ grp, groupOfField g = some grp ∧ b.toNat < s.cfg.srcCount.get grp ∧ t = (s.unlatch grp b).respond 0 0
  | .icVector g => ∃ grp, groupOfField g = some grp ∧ t = s.respond (vectorAnswer s grp).1 (vectorAnswer s grp).2
  | .icRdpend g => ∃ grp, groupOfField g = some grp ∧ t = s.respond (s.readPend grp) 0
  | .icRdmask g => ∃ grp, groupOfField g = some grp ∧ t = s.respond (s.readMask grp) 0
  | .adcInit => s.adc.state = .idle ∧ s.adc.busyOp = false ∧ t = State.respond
      { s with
        adc := { s.adc with
          ctrl := 0x0000#16, sbase := 0x0000#16, dbase := 0x0000#16, idx := 0x0000#16, start := false, inflight := false,
          eocPend := false, eocIe := false, fePowered := false }
        cal := { s.cal with
          zeroOff := if s.cal.storedValid then s.cal.storedOff else 0x0000#16
          measOff := 0x0000#16, lastTemp := 0x0000#16, elecFault := false, diagLog := [] } } 0 0
  | .adcConfigure table dest => s.adc.state = .idle ∧ s.adc.busyOp = false ∧
      tableOk s.cfg table.toNat dest.toNat .any = true ∧ t = (s.loadBases table dest).respond 0 0
  | .adcStartSw table dest => s.adc.state = .idle ∧ s.adc.busyOp = false ∧
      tableOk s.cfg table.toNat dest.toNat .sw = true ∧
      t = (s.startPass table dest).issueOp (Operation.fresh .swSettle [] .nothing)
  | .adcStartHw table dest => loopEffect table dest s t
  | .adcStop => s.adc.state ≠ .runSW ∧ s.adc.busyOp = false ∧ t = stopFirst [] s
  | .adcPowerOff => s.adc.state ≠ .runSW ∧ s.adc.busyOp = false ∧ refoffOk s.cfg = true ∧ t = stopFirst [.refOff] s
  | .adcSelectTable top psd index => ∃ topo, topologyOf s.cfg top = some topo ∧
      (s.cfg.busyRefusesSelect = false ∨ s.adc.busyOp = false) ∧
      t = s.respond (selectTable s.cfg top topo psd index) 0
  | .adcStart top index => ∃ topo, topologyOf s.cfg top = some topo ∧
      loopEffect (selectTable s.cfg top topo s.cfg.psdEn index) s.cfg.resultsBase s t
  | .adcEocIe en => t = State.respond { s with adc := { s.adc with eocIe := en } } 0 0
  | .adcEocAck => t = State.respond { s with adc := { s.adc with eocPend := false } } 0 0
  | .adcRdstat => t = s.respond s.statusWord s.adc.ctrl
  | .adcRdres address => ∃ w, s.readRes address.toNat = some w ∧ t = s.respond w 0
  | .calRails => s.adc.state = .idle ∧ s.adc.busyOp = false ∧ railTablesOk s = true ∧ t = s.issueTasks railsTasks .nothing
  | .calPins => s.adc.state = .idle ∧ s.adc.busyOp = false ∧ pinTablesOk s = true ∧
      t = s.issueTasks (pinsTasks s.cfg) .nothing
  | .calMeasureOffset => s.adc.state = .idle ∧ s.adc.busyOp = false ∧ zeroTableOk s = true ∧
      t = s.issueTasks offsetTasks .measOff
  | .calValidateOffset => s.adc.state = .idle ∧ s.adc.busyOp = false ∧
      t = s.validateOffset.respond s.validateOffset.cal.zeroOff 0
  | .calSelftest => s.adc.state = .idle ∧ s.adc.busyOp = false ∧
      (railTablesOk s = true ∧ pinTablesOk s = true ∧ zeroTableOk s = true) ∧
      t = s.issueTasks (railsTasks ++ pinsTasks s.cfg ++ offsetTasks ++ [.validateOffset]) .nothing
  | .getSupplyV => ∃ raw, s.readRes (s.cfg.resultsBase.toNat + 0) = some raw ∧
      fitsSigned (convVolt s.cfg.supply raw) = true ∧ t = s.respond (BitVec.ofInt 16 (convVolt s.cfg.supply raw)) 0
  | .getMotorV => ∃ raw, s.readRes (s.cfg.resultsBase.toNat + 1) = some raw ∧
      fitsSigned (convVolt s.cfg.motor raw) = true ∧ t = s.respond (BitVec.ofInt 16 (convVolt s.cfg.motor raw)) 0
  | .getPhaseV => ∃ raw, s.readRes (s.cfg.resultsBase.toNat + 7) = some raw ∧
      fitsSigned (convVolt s.cfg.phase raw) = true ∧ t = s.respond (BitVec.ofInt 16 (convVolt s.cfg.phase raw)) 0
  | .getChipTemp first => ∃ raw, s.readRes (s.cfg.resultsBase.toNat + 2) = some raw ∧
      fitsSigned (reportedTemp s first raw) = true ∧
      t = State.respond { s with cal := { s.cal with lastTemp := BitVec.ofInt 16 (reportedTemp s first raw) } }
        (BitVec.ofInt 16 (reportedTemp s first raw)) 0
  | .getCurRaw top => ∃ topo rawA rawB, topologyOf s.cfg top = some topo ∧
      s.readRes (s.cfg.resultsBase.toNat + coilAField s.cfg) = some rawA ∧
      s.readRes (s.cfg.resultsBase.toNat + coilBField s.cfg) = some rawB ∧
      t = s.respond (currentSum topo.coils s.cal.zeroOff rawA rawB) 0
  | .getCurScaled top => ∃ topo rawA rawB, topologyOf s.cfg top = some topo ∧
      s.readRes (s.cfg.resultsBase.toNat + coilAField s.cfg) = some rawA ∧
      s.readRes (s.cfg.resultsBase.toNat + coilBField s.cfg) = some rawB ∧
      fitsUnsigned (scaledCurrent s.cfg (currentSum topo.coils s.cal.zeroOff rawA rawB)) = true ∧
      t = s.respond (BitVec.ofNat 16 (scaledCurrent s.cfg (currentSum topo.coils s.cal.zeroOff rawA rawB))) 0

theorem next_iff {a t : State} : (Host.Outcome.next a : Result) = .next t ↔ t = a := by
  constructor
  · intro h; injection h with h; exact h.symm
  · intro h; rw [h]

theorem startLoop_next {table dest : Word} {s t : State} :
    startLoop table dest s = .next t ↔ loopEffect table dest s t := by
  simp only [startLoop, loopEffect, requireIdle_next, require_next]
  refine and_congr_right fun hs => and_congr_right fun hb => and_congr_right fun _ => ?_
  split <;> rw [next_iff] <;> rfl

theorem respondSigned_next {s t : State} {v : Int} :
    respondSigned s v = .next t ↔ fitsSigned v = true ∧ t = s.respond (BitVec.ofInt 16 v) 0 := by
  simp only [respondSigned, require_next, next_iff]

theorem withCurrentSum_next {top : BitVec 4} {s t : State} {k : Word → Result} :
    withCurrentSum top s k = .next t ↔ ∃ topo rawA rawB, topologyOf s.cfg top = some topo ∧
      s.readRes (s.cfg.resultsBase.toNat + coilAField s.cfg) = some rawA ∧
      s.readRes (s.cfg.resultsBase.toNat + coilBField s.cfg) = some rawB ∧
      k (currentSum topo.coils s.cal.zeroOff rawA rawB) = .next t := by
  simp only [withCurrentSum, withField, withTopology_next, withRes_next]
  constructor
  · rintro ⟨topo, ht, a, ha, b, hb, h⟩; exact ⟨topo, a, b, ht, ha, hb, h⟩
  · rintro ⟨topo, a, b, ht, ha, hb, h⟩; exact ⟨topo, ht, a, ha, b, hb, h⟩

/-- THE INVERSION of `exec`: an operation is accepted exactly when its checks pass, and this is all it then does. -/
theorem exec_next {i : Instr} {s t : State} : exec i s = .next t ↔ effect i s t := by
  cases i <;> simp only [exec, effect]
  case icInit => exact next_iff
  case icEnable => simp only [execIcEnable, withSource_next, next_iff]
  case icDisable => simp only [execIcDisable, withSource_next, next_iff]
  case icAck => simp only [execIcAck, withSource_next, next_iff]
  case icVector => simp only [execIcVector, withGroup_next, next_iff]
  case icRdpend => simp only [execIcRdpend, withGroup_next, next_iff]
  case icRdmask => simp only [execIcRdmask, withGroup_next, next_iff]
  case adcInit => simp only [execAdcInit, requireIdle_next, next_iff]
  case adcConfigure => simp only [execAdcConfigure, requireIdle_next, require_next, next_iff]
  case adcStartSw => simp only [execAdcStartSw, requireIdle_next, require_next, next_iff]
  case adcStartHw => exact startLoop_next
  case adcStop => simp only [execAdcStop, requireStoppable_next, next_iff]
  case adcPowerOff => simp only [execAdcPowerOff, requireStoppable_next, require_next, next_iff]
  case adcSelectTable => simp only [execAdcSelectTable, withTopology_next, requireSelectable_next, next_iff]
  case adcStart => simp only [execAdcStart, withTopology_next, startLoop_next]
  case adcEocIe => exact next_iff
  case adcEocAck => exact next_iff
  case adcRdstat => exact next_iff
  case adcRdres =>
    unfold execAdcRdres
    split <;> rename_i h
    · simp [h]
    · simp [h, eq_comm]
  case calRails => simp only [execCalRails, requireIdle_next, require_next, next_iff]
  case calPins => simp only [execCalPins, requireIdle_next, require_next, next_iff]
  case calMeasureOffset => simp only [execCalMeasureOffset, requireIdle_next, require_next, next_iff]
  case calValidateOffset => simp only [execCalValidateOffset, requireIdle_next, next_iff]
  case calSelftest =>
    simp only [execCalSelftest, requireIdle_next, require_next, next_iff, Bool.and_eq_true, and_assoc]
  case getSupplyV => simp only [execGetSupplyV, withField, withRes_next, respondSigned_next]
  case getMotorV => simp only [execGetMotorV, withField, withRes_next, respondSigned_next]
  case getPhaseV => simp only [execGetPhaseV, withField, withRes_next, respondSigned_next]
  case getChipTemp => simp only [execGetChipTemp, withField, withRes_next, respondSigned_next]
  case getCurRaw => simp only [execGetCurRaw, withCurrentSum_next, next_iff]
  case getCurScaled => simp only [execGetCurScaled, withCurrentSum_next, require_next, next_iff]

/-- A stop's first step touches the control register, `adc_busy_op` and the host side only (R125). -/
theorem stopFirst_frame (todo : List Task) (s : State) :
    (stopFirst todo s).cfg = s.cfg ∧ (stopFirst todo s).ic = s.ic ∧ (stopFirst todo s).res = s.res ∧
      (stopFirst todo s).cal = s.cal ∧ (stopFirst todo s).pins = s.pins ∧
      (stopFirst todo s).adc = { s.adc with
        busyOp := true
        ctrl := if s.adc.state = .runHW then s.adc.ctrl &&& ~~~ 0x0001#16 else 0x0000#16 } ∧
      (stopFirst todo s).port.op =
        some (Operation.fresh (if s.adc.state = .runHW then .drainTrigger else .stopEoc) todo .nothing) := by
  unfold stopFirst
  split <;> simp_all

/-- The sequencer after a complete step, field by field (R135, R137). -/
theorem Sequencer.completed_eq (q : Sequencer) (last : Bool) :
    q.completed last = { q with
      fePowered := if entryRef q.cur == refOff then false else q.fePowered
      inflight := false
      idx := if last && q.loops then 0x0000#16 else q.idx + 1
      eocPend := q.eocPend || last
      start := if (q.state == .runHW && !q.hwTrigEn) || (last && q.state == .runSW) then false else q.start } := by
  unfold Sequencer.completed Sequencer.endOfPass Sequencer.hwTrigEn Sequencer.loops
  cases last <;> simp
  cases h : q.state <;> simp

/-- Everything a complete step can do: one sample stored, or none, and the sequencer moved on (R135). -/
theorem engineComplete_frame {s t : State} {draw : Word} (h : engineComplete draw s = .next t) :
    t.cfg = s.cfg ∧ t.ic = s.ic ∧ t.cal = s.cal ∧ t.pins = s.pins ∧ t.port = s.port := by
  rcases engineComplete_next h with ⟨-, rfl⟩ | ⟨s1, e, -, hs, -, rfl⟩
  · exact ⟨rfl, rfl, rfl, rfl, rfl⟩
  · rcases storeSample_some.mp hs with ⟨-, rfl⟩ | ⟨-, hw⟩
    · exact ⟨rfl, rfl, rfl, rfl, rfl⟩
    · obtain ⟨-, rfl⟩ := writeRes_some.mp hw
      exact ⟨rfl, rfl, rfl, rfl, rfl⟩

/-- Everything an input can do. -/
theorem runInput_next {x : Input} {s t : State} (h : runInput x s = .next t) :
    (∃ cw, x = .command cw ∧ ((∃ code, t = s.answerRefusal code) ∨ ∃ i, decode cw = .ok i ∧ effect i s t)) ∨
    (x = .proceed ∧ s.port.op = none ∧ t = s) ∨
    (∃ o, x = .proceed ∧ s.port.op = some o ∧ runPhase o s = .next t) ∨
    (∃ g b, x = .source g b ∧ t = sourceEvent g b s) ∨
    (∃ event, (x = .engineBegin ∨ ∃ n, x = .hwEvent n) ∧ engineBegin event s = .next t) ∨
    (∃ draw, x = .engineComplete draw ∧ engineComplete draw s = .next t) := by
  cases x with
  | command cw =>
    refine .inl ⟨cw, rfl, ?_⟩
    rcases runCommand_next h with h | ⟨i, hi, h⟩
    · exact .inl h
    · exact .inr ⟨i, hi, exec_next.mp h⟩
  | proceed =>
    simp only [runInput, proceed] at h
    split at h
    · rename_i ho
      exact .inr (.inl ⟨rfl, ho, next_iff.mp h⟩)
    · rename_i o ho
      exact .inr (.inr (.inl ⟨o, rfl, ho, h⟩))
  | source g b => exact .inr (.inr (.inr (.inl ⟨g, b, rfl, next_iff.mp h⟩)))
  | hwEvent n => exact .inr (.inr (.inr (.inr (.inl ⟨some n, .inr ⟨n, rfl⟩, h⟩))))
  | engineBegin => exact .inr (.inr (.inr (.inr (.inl ⟨none, .inl rfl, h⟩))))
  | engineComplete draw => exact .inr (.inr (.inr (.inr (.inr ⟨draw, rfl, h⟩))))

end Sys2Proof.Machine
end

