-- ==== Sys2Proof/Laws/Tables.lean ====
section
/-! SUPPORT. What a sequence table found in SEQ is (R76, R139), where the engine's fetches stand in it (R133), and the
ranges a legal configuration gives (R5). -/

namespace Sys2Proof.Machine

/-- A scan that finds a marker: the entries before it, none of them a marker, and the marker after them. -/
theorem scanTable_some {seq : Cells} {fuel a : Nat} {es : List Word} (h : scanTable seq fuel a = some es) :
    es.length < fuel ∧
      (∀ k e, es[k]? = some e → Memory.read Memory.seqUnlisted seq (a + k) = e ∧ entryEnd e = false) ∧
      entryEnd (Memory.read Memory.seqUnlisted seq (a + es.length)) = true := by
  induction fuel generalizing a es with
  | zero => simp [scanTable] at h
  | succ n ih =>
    simp only [scanTable] at h
    split at h
    · rename_i he
      simp only [Option.some.injEq] at h
      subst h
      exact ⟨by simp, by simp, he⟩
    · rename_i he
      simp only [Option.map_eq_some_iff] at h
      obtain ⟨es', h', rfl⟩ := h
      obtain ⟨h1, h2, h3⟩ := ih h'
      refine ⟨by simp; omega, ?_, ?_⟩
      · intro k e hk
        cases k with
        | zero =>
          simp only [List.getElem?_cons_zero, Option.some.injEq] at hk
          subst hk
          exact ⟨rfl, by simpa using he⟩
        | succ k =>
          rw [show a + (k + 1) = a + 1 + k by omega]
          exact h2 k e (by simpa using hk)
      · rw [show a + (Memory.read Memory.seqUnlisted seq a :: es').length = a + 1 + es'.length by simp; omega]
        exact h3

/-- A table in SEQ (R76): its entries, none a marker, and its marker, all inside SEQ. -/
theorem tableEntries_some {c : Config} {a : Nat} {es : List Word} (h : tableEntries c a = some es) :
    a + es.length < c.seqWords ∧
      (∀ k e, es[k]? = some e → Memory.read Memory.seqUnlisted c.seq (a + k) = e ∧ entryEnd e = false) ∧
      entryEnd (Memory.read Memory.seqUnlisted c.seq (a + es.length)) = true := by
  obtain ⟨h1, h2, h3⟩ := scanTable_some h
  exact ⟨by omega, h2, h3⟩

/-- Two words of SEQ, the second a marker, are a table of one entry (R126, R161). -/
theorem tableEntries_seqHolds {c : Config} {a : Nat} {e0 e1 : Word} (h : seqHolds c a e0 e1 = true)
    (h0 : entryEnd e0 = false) (h1 : entryEnd e1 = true) : tableEntries c a = some [e0] := by
  simp only [seqHolds, Bool.and_eq_true, decide_eq_true_eq, beq_iff_eq] at h
  obtain ⟨⟨ha, r0⟩, r1⟩ := h
  unfold tableEntries
  obtain ⟨n, hn⟩ : ∃ n, c.seqWords - a = n + 2 := ⟨c.seqWords - a - 2, by omega⟩
  simp [hn, scanTable, r0, r1, h0, h1]

/-- Everything `table_ok` says (R139). -/
theorem tableOk_iff {c : Config} {a d : Nat} {mode : TableMode} :
    tableOk c a d mode = true ↔
      ∃ es, tableEntries c a = some es ∧ 1 ≤ es.length ∧ (∀ e ∈ es, entryOk c mode e = true) ∧
        d + es.length - 1 < c.resWords := by
  unfold tableOk
  split <;> rename_i h
  · simp [h]
  · simp [h, and_assoc]

/-- The sizes and places a legal configuration has (R5). -/
theorem Config.wf_sizes {c : Config} (h : c.wf = true) :
    c.seqWords ≤ 65536 ∧ c.resWords ≤ 65536 ∧ c.resultsBase.toNat + 8 ≤ c.resWords ∧
      c.scratchBase.toNat + 2 ≤ c.resWords ∧ c.nHwEvent ≤ 15 ∧ c.nGpio ≤ 32 ∧ 1 ≤ c.adcBits ∧ c.adcBits ≤ 16 := by
  simp [Config.wf] at h
  omega

/-- The number of sources of a group in a legal configuration (R15). -/
theorem Config.wf_srcCount {c : Config} (h : c.wf = true) (g : Group) :
    1 ≤ c.srcCount.get g ∧ c.srcCount.get g ≤ 16 := by
  simp [Config.wf] at h
  cases g <;> simp_all [PerGroup.get]

/-- The implemented bits, bit by bit (R15). -/
theorem implementedBits_getLsbD (c : Config) (g : Group) (b : BitVec 4) :
    (implementedBits c g).getLsbD b.toNat = decide (b.toNat < c.srcCount.get g) := by
  have := b.isLt
  simp [implementedBits, BitVec.getLsbD_ofNat, Nat.testBit_two_pow_sub_one]
  omega

/-- The word fetched at a pointer inside the active table or on its marker, without wrap (R53, R133). -/
theorem entry_inside {s : State} (hc : s.cfg.wf = true) {es : List Word}
    (h : tableEntries s.cfg s.adc.sbase.toNat = some es) {w : Word} (hw : w.toNat ≤ es.length) :
    s.entry w = some (Memory.read Memory.seqUnlisted s.cfg.seq (s.adc.sbase.toNat + w.toNat)) := by
  obtain ⟨h1, -, -⟩ := tableEntries_some h
  have := Config.wf_sizes hc
  have e : (s.adc.sbase + w).toNat = s.adc.sbase.toNat + w.toNat := by
    rw [BitVec.toNat_add]
    exact Nat.mod_eq_of_lt (by omega)
  unfold State.entry State.readSeq
  rw [e, if_pos (by omega)]

end Sys2Proof.Machine
end

