-- ==== Sys2Proof/Tests/Slice0.lean ====
section
/-! SUPPORT. The model's own tests: ill-formed operands, command words written out from the operation map, single steps with
the results of 95_test_vectors.md, and for every obligation with hypotheses a state and operands that meet them. -/

namespace Sys2Proof.Tests

open Sys2Proof.Machine

/-! ### The test configuration `TC` of 95_test_vectors.md section 0 -/

/-- The SEQ contents of `TC`. -/
def tcSeq : Cells :=
  [(0x0100, 0x0000), (0x0101, 0x0001), (0x0102, 0x0002), (0x0103, 0x0003), (0x0104, 0x0004), (0x0105, 0x0005),
    (0x0106, 0x0006), (0x0107, 0x0007), (0x0200, 0x0803), (0x0201, 0x0005), (0x0202, 0x1000), (0x0300, 0x0002),
    (0x0400, 0x0030)] ++
  [(0x1000, 0x0800), (0x1001, 0x0801), (0x1002, 0x0802), (0x1003, 0x0803), (0x1004, 0x0804), (0x1005, 0x0805),
    (0x1006, 0x0806), (0x1007, 0x0807), (0xFF06, 0x0003), (0xFF10, 0x0008), (0xFF12, 0x0009), (0xFF80, 0x0040),
    (0xFF82, 0x0041), (0xFFF0, 0x07FF)]

def tc : Config :=
  { Config.default with
    bind := { PerGroup.all [] with pwm := [0x0A00, 0, 0x0A02, 0, 0x0A04], timer1 := [0x0B00] }
    adcBits := 10, seq := tcSeq, curGain := 125, curDiv := 10, nGpio := 2 }

theorem tc_wf : tc.wf = true := by decide

/-- The vectors' "fresh" state, right after `ADC_INIT`, nothing pending. -/
def fresh : State := { State.reset with cfg := tc }

/-- The fresh state with group 0's registers set. -/
def withPwm (pend mask : Word) : State :=
  { fresh with ic := { pend := fresh.ic.pend.set .pwm pend, mask := fresh.ic.mask.set .pwm mask } }

/-- The fresh state with the front end powered. -/
def powered : State := { fresh with adc := { fresh.adc with fePowered := true } }

/-- The hardware loop on table 0x0200 into 0x0020, at entry `k` (vector A12). -/
def looping (k : Word) : State :=
  { fresh with adc := { fresh.adc with
      state := .runHW, ctrl := 3, sbase := 0x0200, dbase := 0x0020, idx := k, fePowered := true, eocIe := true } }

/-- The fresh state with these words in RES. -/
def withRecord (zeroOff : Word) (res : Cells) : State :=
  { fresh with res := res, cal := { fresh.cal with zeroOff := zeroOff } }

def after (r : Result) : Option State :=
  match r with
  | .next t => some t
  | .fault _ => none
  | .refused _ => none

def refusedWith (r : Result) : Option Refusal :=
  match r with
  | .next _ => none
  | .fault _ => none
  | .refused q => some q

def answerOf (r : Result) : Option Response := (after r).bind fun t => t.port.rsp

/-! ### Operands out of range (R75; vectors I11, I12, A18, A24) -/

theorem test_wf_group : Instr.operandError tc (.icEnable 5 0) = some .groupRange := by decide
theorem test_wf_bit :
    Instr.operandError { tc with srcCount := PerGroup.all 8 } (.icAck 0 9) = some .bitRange := by decide
theorem test_wf_topology : Instr.operandError tc (.adcSelectTable 2 false 0) = some .badTopology := by decide
theorem test_wf_address : Instr.operandError { tc with resWords := 0x0100 } (.adcRdres 0x0100) = some .addrRange := by decide
theorem test_wf_accepts : Instr.wellFormed tc (.icEnable 4 15) = true := by decide

/-! ### Words written out from the operation map (R70, R72, R73) -/

theorem test_decode_ic :
    decode 0x010000000000 = .ok .icInit ∧ decode 0x024F00000000 = .ok (.icEnable 4 15) ∧
    decode 0x032700000000 = .ok (.icDisable 2 7) ∧ decode 0x041000000000 = .ok (.icAck 1 0) ∧
    decode 0x053000000000 = .ok (.icVector 3) ∧ decode 0x060000000000 = .ok (.icRdpend 0) ∧
    decode 0x072000000000 = .ok (.icRdmask 2) := by
  refine ⟨rfl, rfl, rfl, rfl, rfl, rfl, rfl⟩

theorem test_decode_adc :
    decode 0x100000000000 = .ok .adcInit ∧ decode 0x11000100FFF8 = .ok (.adcConfigure 0x0100 0xFFF8) ∧
    decode 0x120003000002 = .ok (.adcStartSw 0x0300 0x0002) ∧ decode 0x130002000020 = .ok (.adcStartHw 0x0200 0x0020) ∧
    decode 0x140000000000 = .ok .adcStop ∧ decode 0x150000000000 = .ok .adcPowerOff ∧
    decode 0x161100030000 = .ok (.adcSelectTable 1 true 3) ∧ decode 0x170000090000 = .ok (.adcStart 0 9) ∧
    decode 0x180100000000 = .ok (.adcEocIe true) ∧ decode 0x190000000000 = .ok .adcEocAck ∧
    decode 0x1A0000000000 = .ok .adcRdstat ∧ decode 0x1B0000020000 = .ok (.adcRdres 2) := by
  refine ⟨rfl, rfl, rfl, rfl, rfl, rfl, rfl, rfl, rfl, rfl, rfl, rfl⟩

theorem test_decode_cal :
    decode 0x200000000000 = .ok .calRails ∧ decode 0x210000000000 = .ok .calPins ∧
    decode 0x220000000000 = .ok .calMeasureOffset ∧ decode 0x230000000000 = .ok .calValidateOffset ∧
    decode 0x240000000000 = .ok .calSelftest := by
  refine ⟨rfl, rfl, rfl, rfl, rfl⟩

theorem test_decode_get :
    decode 0x280000000000 = .ok .getSupplyV ∧ decode 0x290000000000 = .ok .getMotorV ∧
    decode 0x2A0000000000 = .ok .getPhaseV ∧ decode 0x2B0100000000 = .ok (.getChipTemp true) ∧
    decode 0x2C1000000000 = .ok (.getCurRaw 1) ∧ decode 0x2D1000000000 = .ok (.getCurScaled 1) := by
  refine ⟨rfl, rfl, rfl, rfl, rfl, rfl⟩

/-- Vectors I13 to I16, A19, T6. -/
theorem test_decode_refuses :
    decode 0x010000000001 = .error .reservedField ∧ decode 0x050100000000 = .error .reservedField ∧
    decode 0x160200000000 = .error .reservedField ∧ decode 0x2B0300000000 = .error .reservedField ∧
    decode 0x080000000000 = .error .illegalOp ∧ decode 0xFF9000000000 = .error .illegalOp := by
  refine ⟨rfl, rfl, rfl, rfl, rfl, rfl⟩

/-- The first word a host transports is the most significant (R54). -/
theorem test_word_order : commandOfWords 0x0202 0x0000 0x0000 = 0x020200000000 ∧
    wordsOfCommand 0x130001000000 = [0x1300, 0x0100, 0x0000] := by decide

/-- `CRIT_BEGIN`, `MEAS_INIT` (R82), and a line of the textual syntax (R81). -/
theorem test_pseudo : Pseudo.expand .critBegin = [.adcEocIe false] ∧ Pseudo.expand .measInit = [.adcInit, .calSelftest] ∧
    Instr.text (.icEnable 0 2) = "IC_ENABLE 0, 2" := by decide

/-! ### One step each, results from 95_test_vectors.md -/

/-- I1 -/
theorem test_icInit :
    (after (exec .icInit { fresh with ic := { pend := PerGroup.all 0xBEEF, mask := PerGroup.all 0xFFFF } })).map
      (fun t => (t.ic.pend.diag, t.ic.mask.diag)) = some (0, 0) := by decide
/-- I3 -/
theorem test_icEnable : (after (exec (.icEnable 0 0) (withPwm 0x00F0 0x000F))).map
    (fun t => (t.ic.pend.pwm, t.ic.mask.pwm)) = some (0x00F1, 0x000F) := by decide
/-- S2 -/
theorem test_icDisable : (after (exec (.icDisable 0 2) (withPwm 0x0004 0x0004))).map
    (fun t => (t.ic.pend.pwm, t.ic.mask.pwm)) = some (0x0004, 0x0000) := by decide
/-- P1 step 5 -/
theorem test_icAck : (after (exec (.icAck 0 0) (withPwm 0x0005 0x0005))).map
    (fun t => (t.ic.pend.pwm, t.ic.mask.pwm)) = some (0x0004, 0x0005) := by decide
/-- I7 -/
theorem test_icVector : answerOf (exec (.icVector 0) (withPwm 0x0014 0x0010)) = some ⟨0, 0x8004, 0x0A04⟩ := by decide
/-- I8 -/
theorem test_icVector_lowest : answerOf (exec (.icVector 0) (withPwm 0x0005 0x0005)) = some ⟨0, 0x8000, 0x0A00⟩ := by decide
/-- I10 -/
theorem test_icRdpend : answerOf (exec (.icRdpend 0) (withPwm 0x0004 0x0000)) = some ⟨0, 0x0004, 0⟩ := by decide
theorem test_icRdmask : answerOf (exec (.icRdmask 0) (withPwm 0x0004 0x0010)) = some ⟨0, 0x0010, 0⟩ := by decide
/-- I17 -/
theorem test_source : (after (runInput (.source .timer2 7) fresh)).map
    (fun t => (t.ic.pend.timer2, t.ic.mask.timer2, t.irqOut .timer2)) = some (0x0080, 0, false) := by decide

/-- A1 -/
theorem test_adcInit : (after (exec .adcInit
      { fresh with cal := { fresh.cal with storedValid := true, storedOff := 0x01F4, elecFault := true, diagLog := [1] } })).map
    (fun t => (t.cal.zeroOff, t.cal.elecFault, t.cal.diagLog)) = some (0x01F4, false, []) := by decide
/-- A2 -/
theorem test_adcConfigure : (after (exec (.adcConfigure 0x0100 0x0000) fresh)).map
    (fun t => (t.adc.sbase, t.adc.state, t.adc.fePowered)) = some (0x0100, .idle, false) := by decide
/-- A5: entry 7 would go to word 0x10000 -/
theorem test_adcConfigure_refused : refusedWith (exec (.adcConfigure 0x0100 0xFFF9) fresh) = some .badTable := by decide
/-- A8, step S1 -/
theorem test_adcStartSw : (after (exec (.adcStartSw 0x0300 0x0002) fresh)).map
    (fun t => (t.adc.state, t.adc.sbase, t.adc.dbase, t.adc.busyOp)) = some (.runSW, 0x0300, 2, true) := by decide
/-- A7 -/
theorem test_adcStartSw_refused : refusedWith (exec (.adcStartSw 0x0200 0x0020) fresh) = some .badTable := by decide
/-- A27: powered, so one step; a stale completion raises the line at once -/
theorem test_adcStartHw : (after (exec (.adcStartHw 0x0200 0x0020)
      { powered with adc := { powered.adc with eocPend := true } })).map
    (fun t => (t.adc.state, t.adc.ctrl, t.adc.idx, t.irqAdc)) = some (.runHW, 3, 0, true) := by decide
/-- A13 -/
theorem test_adcStartHw_refused : refusedWith (exec (.adcStartHw 0x0200 0x0020) (looping 0)) = some .badState := by decide
/-- A12: the first step is T1 -/
theorem test_adcStop : (after (exec .adcStop (looping 1))).map
    (fun t => (t.adc.ctrl, t.adc.start, t.adc.state, t.adc.busyOp)) = some (2, false, .runHW, true) := by decide
theorem test_adcPowerOff : (after (exec .adcPowerOff powered)).map
    (fun t => (t.port.op.map fun o => (o.phase, o.todo))) = some (some (.stopEoc, [.refOff])) := by decide
/-- A16, A17 -/
theorem test_adcSelectTable : answerOf (exec (.adcSelectTable 1 false 7) fresh) = some ⟨0, 0x1100, 0⟩ ∧
    answerOf (exec (.adcSelectTable 1 true 3) fresh) = some ⟨0, 0x11B0, 0⟩ := by decide
/-- A16 from a busy state, and R120's sentence against it under the other setting (log 12). -/
theorem test_adcSelectTable_busy : answerOf (exec (.adcSelectTable 1 false 7)
      { fresh with adc := { fresh.adc with busyOp := true } }) = some ⟨0, 0x1100, 0⟩ ∧
    refusedWith (exec (.adcSelectTable 1 false 7)
      { fresh with cfg := { tc with busyRefusesSelect := true }, adc := { fresh.adc with busyOp := true } }) =
        some .badState := by decide
/-- A20 -/
theorem test_adcStart : (after (exec (.adcStart 0 9) powered)).map
    (fun t => (t.adc.state, t.adc.sbase, t.adc.dbase, t.adc.ctrl, t.adc.eocIe)) =
      some (.runHW, 0x1000, 0, 3, true) := by decide
/-- A21 -/
theorem test_adcEocIe : (after (exec (.adcEocIe true) { fresh with adc := { fresh.adc with eocPend := true } })).map
    (fun t => (t.adc.eocIe, t.irqAdc)) = some (true, true) := by decide
/-- A22 -/
theorem test_adcEocAck : (after (exec .adcEocAck
      { fresh with adc := { fresh.adc with eocPend := true, eocIe := true } })).map
    (fun t => (t.adc.eocPend, t.irqAdc)) = some (false, false) := by decide
/-- R131's example -/
theorem test_adcRdstat : answerOf (exec .adcRdstat (looping 0)) = some ⟨0, 0x002A, 0x0003⟩ := by decide
/-- A10, A24 -/
theorem test_adcRdres : answerOf (exec (.adcRdres 2) (withRecord 0 [(2, 540)])) = some ⟨0, 0x021C, 0⟩ ∧
    refusedWith (exec (.adcRdres 0x0100) { fresh with cfg := { tc with resWords := 0x0100 } }) = some .addrRange := by decide

/-- K1, K10, K11 -/
theorem test_calRails : (after (exec .calRails fresh)).map (fun t => t.port.op.map fun o => o.todo) =
    some (some [.measure 0x08, .measure 0x09, .railsVerdict]) := by decide
theorem test_calRails_refused : refusedWith (exec .calRails (looping 0)) = some .badState ∧
    refusedWith (exec .calRails { fresh with cfg := { tc with seq := [] } }) = some .badTable := by decide
theorem test_calPins : (after (exec .calPins fresh)).map (fun t => t.port.op.map fun o => o.todo) =
    some (some [.pin 0, .pin 1]) := by decide
theorem test_calMeasureOffset : (after (exec .calMeasureOffset fresh)).map
    (fun t => t.port.op.map fun o => (o.todo, o.answer)) = some (some ([.forceDriver], .measOff)) := by decide
/-- S3: a difference of 7 is replaced, one of 6 is not -/
theorem test_calValidateOffset : answerOf (exec .calValidateOffset
      { fresh with cal := { fresh.cal with storedValid := true, storedOff := 512, measOff := 519 } }) = some ⟨0, 0x0200, 0⟩ ∧
    answerOf (exec .calValidateOffset
      { fresh with cal := { fresh.cal with storedValid := true, storedOff := 512, measOff := 506 } }) =
        some ⟨0, 0x01FA, 0⟩ := by decide
theorem test_calSelftest : (after (exec .calSelftest fresh)).map (fun t => t.port.op.map fun o => o.todo) =
    some (some [.measure 0x08, .measure 0x09, .railsVerdict, .pin 0, .pin 1, .forceDriver, .validateOffset]) := by decide

/-- V1, V4 -/
theorem test_getSupplyV : answerOf (exec .getSupplyV (withRecord 0 [(0, 600)])) = some ⟨0, 0x05C3, 0⟩ ∧
    refusedWith (exec .getSupplyV { withRecord 0 [(0, 1000)] with cfg := { tc with supply := ⟨10, 1000, 1⟩ } }) =
      some .resultRange := by decide
/-- V2 -/
theorem test_getMotorV : answerOf (exec .getMotorV (withRecord 0 [(1, 10)])) = some ⟨0, 0, 0⟩ := by decide
/-- V3 -/
theorem test_getPhaseV : answerOf (exec .getPhaseV (withRecord 0 [(7, 9)])) = some ⟨0, 0xFFFE, 0⟩ := by decide
/-- T5, T3 -/
theorem test_getChipTemp : answerOf (exec (.getChipTemp true) fresh) = some ⟨0, 0xFF1F, 0⟩ ∧
    answerOf (exec (.getChipTemp false)
      { withRecord 0 [(2, 480)] with cal := { fresh.cal with lastTemp := 35 } }) = some ⟨0, 0x0022, 0⟩ := by decide
/-- V5, V12 -/
theorem test_getCurRaw : answerOf (exec (.getCurRaw 1) (withRecord 512 [(3, 600), (5, 500)])) = some ⟨0, 0x0058, 0⟩ ∧
    answerOf (exec (.getCurRaw 1)
      { withRecord 512 [(4, 520), (6, 530)] with cfg := { tc with curSrc := .filtered } }) = some ⟨0, 0x001A, 0⟩ := by decide
/-- V7, V8 -/
theorem test_getCurScaled :
    answerOf (exec (.getCurScaled 1) (withRecord 512 [(3, 600), (5, 500)])) = some ⟨0, 0x044C, 0⟩ ∧
    answerOf (exec (.getCurScaled 0) (withRecord 512 [(3, 513)])) = some ⟨0, 0x000C, 0⟩ := by decide
/-- S9: the sum wraps -/
theorem test_currentSum_wraps : currentSum .two 0 0xFFFF 0x0002 = 0x0001 := by decide
/-- R168, R178 -/
theorem test_rounding : rdiv 5 2 = 3 ∧ rdiv (-1) 2 = 0 ∧ rdiv (-5) 2 = -2 ∧ rdiv 14750 10 = 1475 ∧
    tempLimit 5 25 30 = 30 ∧ tempLimit 5 25 31 = 26 ∧ tempLimit 5 25 19 = 24 := by decide

/-- E1 steps 1 and 2: entry 0 waits for event 1 and event 2 is not remembered -/
theorem test_engineBegin : (after (runInput (.hwEvent 2) (looping 0))).map (fun t => t.adc.inflight) = some false ∧
    (after (runInput (.hwEvent 1) (looping 0))).map (fun t => (t.adc.cur, t.adc.inflight)) = some (0x0803, true) := by decide
/-- E1 step 7: the last entry of the pass; the pointer wraps -/
theorem test_engineComplete :
    (after (runInput (.engineComplete 800)
      { looping 2 with adc := { (looping 2).adc with inflight := true, cur := 0x1000 } })).map
      (fun t => (t.adc.idx, t.adc.eocPend, t.irqAdc, t.readRes 0x22)) = some (0, true, true, some 800) := by decide
/-- A word placed for the next fetch is the operation the next step runs (R70). -/
theorem test_withFetchWord :
    (after (step (State.reset.withFetchWord 48 0x020200000000))).map (fun t => (t.ic.pend.pwm, t.ic.mask.pwm)) =
      some (0x0004, 0x0004) ∧ decodeTableWord 48 0x020200000000 = some (.icEnable 0 2) := by decide
/-- A refused word is answered, and the machine goes on (I11). -/
theorem test_refused_word : answerOf (step (fresh.withFetchWord 48 0x025000000000)) = some ⟨0x03, 0, 0⟩ := by decide
/-- I20: while the handler of bit 2 runs, before its acknowledge, source 0 triggers: bit 0 is served before bit 4. -/
def interrupted : Handlers := fun id g b _ =>
  some (if id = 0x0A02 then [.source .pwm 0, acknowledgeWord g b] else [acknowledgeWord g b])

theorem test_dispatch_order : (dispatch interrupted .pwm 4 (withPwm 0x0014 0x0015)).invoked =
    [(0x0A02, 2), (0x0A00, 0), (0x0A04, 4)] := by decide

/-- What a waiting handler sees next: the conversion in flight completes, a drain begins, else its own next step. -/
def engineEnv (s : State) : Input :=
  if s.adc.inflight then .engineComplete 500
  else if s.adc.start && s.adc.state == .runHW then .engineBegin else .proceed

/-- A handler may reconfigure the sequencer (R198): its own stop is finished before it starts the next loop, so the start is
not refused (R120), and its acknowledge comes last. -/
def reconfiguring : Handlers :=
  Handlers.ofPrograms engineEnv 20 fun _ g b => [.adcStop, .adcStartHw 0x0200 0x0030, .icAck (fieldOfGroup g) b]

theorem test_dispatch_reconfigures :
    (dispatch reconfiguring .pwm 2
      { looping 1 with ic := { pend := fresh.ic.pend.set .pwm 1, mask := fresh.ic.mask.set .pwm 1 } }).final.map
      (fun t => ((t.adc.state, t.adc.ctrl, t.adc.dbase), (t.adc.busyOp, t.readRes 0x21, t.irqOut .pwm))) =
        some ((.runHW, 3, 0x0030), (false, some 500, false)) := by decide

/-- The completion is pending and enabled. -/
def completed : State := { looping 0 with adc := { (looping 0).adc with eocPend := true, eocIe := true } }

/-- R197, R199: a completion pending and enabled is served by one invocation of a handler that acknowledges it; a handler that
forgets its acknowledge is entered at every turn. -/
theorem test_completion_served :
    (serveCompletion (HandlerRun.ofProgram engineEnv 5 [.adcRdres 0x0020, .adcEocAck]) 3 completed).invoked = 1 ∧
    (serveCompletion (HandlerRun.ofProgram engineEnv 5 [.adcRdres 0x0020, .adcEocAck]) 3 completed).final.map State.irqAdc =
      some false ∧
    (serveCompletion (HandlerRun.ofProgram engineEnv 5 [.adcRdres 0x0020]) 3 completed).invoked = 3 := by decide

/-- The memory laws have their base: reset memory and the default SEQ are in canonical form. -/
theorem test_memory_wf : Memory.wf Memory.resUnwritten State.reset.res = true ∧
    Memory.wf Memory.seqUnlisted Config.default.seq = true := by decide


/-! ### Witnesses: states and operands that meet the hypotheses of each obligation -/

/-- The invariant of a concrete state, from checks on its fields. -/
theorem inv_of {s : State} (hc : s.cfg.wf = true) (hr : s.resWf = true)
    (hi : [Group.pwm, .timer1, .timer2, .extio, .diag].all (fun g =>
      s.ic.pend.get g &&& ~~~ implementedBits s.cfg g == 0 && s.ic.mask.get g &&& ~~~ implementedBits s.cfg g == 0) = true)
    (h4 : s.adc.ctrl &&& 0xFFFC = 0)
    (h5 : s.adc.state = .idle → s.adc.inflight = false ∧ s.adc.start = false ∧ s.adc.ctrl = 0)
    (h6 : s.adc.busyOp = s.port.op.isSome) (h7 : s.opHolds) (h8 : s.tableHolds) : s.Inv := by
  refine ⟨hc, hr, fun g => ?_, h4, h5, h6, h7, h8⟩
  simp only [List.all_cons, List.all_nil, Bool.and_true, Bool.and_eq_true, beq_iff_eq] at hi
  obtain ⟨⟨h0, h0'⟩, ⟨h1, h1'⟩, ⟨h2, h2'⟩, ⟨h3, h3'⟩, ⟨h4, h4'⟩⟩ := hi
  cases g
  · exact ⟨h0, h0'⟩
  · exact ⟨h1, h1'⟩
  · exact ⟨h2, h2'⟩
  · exact ⟨h3, h3'⟩
  · exact ⟨h4, h4'⟩

/-- An idle state with an operation in progress. -/
def inOp (s : State) (o : Operation) : State :=
  { s with adc := { s.adc with busyOp := true }, port := { s.port with op := some o } }

def opAt (p : Phase) (todo : List Machine.Task) : Operation := Operation.fresh p todo .nothing

theorem fresh_res : fresh.resWf = true := by decide

theorem fresh_ic : [Group.pwm, .timer1, .timer2, .extio, .diag].all (fun g =>
    fresh.ic.pend.get g &&& ~~~ implementedBits fresh.cfg g == 0 && fresh.ic.mask.get g &&& ~~~ implementedBits fresh.cfg g == 0) =
      true := by decide

theorem fresh_inv : fresh.Inv :=
  inv_of tc_wf fresh_res fresh_ic rfl (fun _ => ⟨rfl, rfl, rfl⟩) rfl (Or.inl ⟨rfl, rfl, rfl, rfl⟩)
    (fun h => absurd rfl h)

/-- The entries of table 0x0200. -/
theorem table_0200 : tableEntries tc 0x0200 = some [0x0803, 0x0005, 0x1000] := by decide

/-- The hardware loop of vector A12, its control register `ctrl`, at entry `k`. -/
def running (ctrl k : Word) (start inflight : Bool) (op : Option Operation) : State :=
  { fresh with
    adc := { fresh.adc with
      state := .runHW, ctrl := ctrl, sbase := 0x0200, dbase := 0x0020, idx := k, start := start, inflight := inflight,
      cur := 0x0005, fePowered := true, eocIe := true, busyOp := op.isSome }
    port := { fresh.port with op := op } }

theorem running_inv {ctrl k : Word} {start inflight : Bool} {op : Option Operation} (hk : k.toNat < 3)
    (hc : ctrl &&& 0xFFFC = 0) (ho : (running ctrl k start inflight op).opHolds) :
    (running ctrl k start inflight op).Inv :=
  inv_of tc_wf fresh_res fresh_ic hc (fun h => nomatch h) rfl ho
    (fun _ => ⟨[0x0803, 0x0005, 0x1000], table_0200, by decide, Nat.le_of_lt hk, fun _ => hk,
      show (0x0020#16).toNat + 3 - 1 < 65536 by decide⟩)

theorem loop_inv (k : Word) (inflight : Bool) (hk : k.toNat < 3) : (running 3 k false inflight none).Inv :=
  running_inv hk (by decide) (Or.inr ⟨rfl, rfl, rfl⟩)

theorem drain_inv (start inflight : Bool) (h : start = false → inflight = false) :
    (running 2 1 start inflight (some (opAt .drainWait []))).Inv :=
  running_inv (by decide) (by decide) ⟨⟨rfl, rfl, h⟩, by simp [opAt, Operation.fresh]⟩

theorem stopIdle_inv : (running 0 1 false false (some (opAt .stopIdle []))).Inv :=
  running_inv (by decide) (by decide) ⟨⟨by decide, rfl, rfl, rfl⟩, by simp [opAt, Operation.fresh]⟩

/-- A software pass over table 0x0300 that waits for its end. -/
def waiting : State :=
  { fresh with
    adc := { fresh.adc with
      state := .runSW, sbase := 0x0300, dbase := 2, start := true, fePowered := true, busyOp := true }
    port := { fresh.port with op := some (opAt .swWait []) } }

theorem waiting_inv : waiting.Inv :=
  inv_of tc_wf fresh_res fresh_ic rfl (fun h => nomatch h) rfl
    ⟨⟨rfl, rfl, fun h => nomatch h⟩, by simp [waiting, opAt, Operation.fresh]⟩
    (fun _ => ⟨[0x0002], by decide, by decide, by decide, fun _ => by decide, by decide⟩)

theorem table_08 : stTableOk tc 0x08 = true := by decide

/-- The fresh state with tasks due. -/
def due (todo : List Machine.Task) : State := inOp fresh (opAt .task todo)

theorem due_inv (todo : List Machine.Task) (h : ∀ t ∈ todo, t.tableReady fresh) : (due todo).Inv :=
  inv_of tc_wf fresh_res fresh_ic (by decide : (0 : Word) &&& 0xFFFC = 0) (fun _ => ⟨rfl, rfl, rfl⟩) rfl ⟨⟨rfl, rfl, rfl, rfl⟩, h⟩
    (fun h => absurd rfl h)

/-- The same with both pins outputs. -/
def duePins (todo : List Machine.Task) : State := { due todo with pins := { gpioOe := 3, gpioOut := 1, drvCfg := 0x0012 } }

theorem duePins_inv (p : Nat) (rest : List Machine.Task) (hp : p < 2) (h : ∀ t ∈ rest, t.tableReady (duePins [])) :
    (duePins (.pin p :: rest)).Inv := by
  refine inv_of tc_wf fresh_res fresh_ic (by decide : (0 : Word) &&& 0xFFFC = 0) (fun _ => ⟨rfl, rfl, rfl⟩) rfl ⟨⟨rfl, rfl, rfl, rfl⟩, ?_⟩
    (fun h => absurd rfl h)
  intro t ht
  rcases List.mem_cons.mp ht with rfl | ht
  · intro _
    match p, hp with
    | 0, _ => exact (by decide : stTableOk tc (chGpio 0) = true)
    | 1, _ => exact (by decide : stTableOk tc (chGpio 1) = true)
  · exact h t ht

theorem witness_EncodeOfDecodeIsTheWord : decode 0x2C1000000000 = .ok (.getCurRaw 1) := rfl

theorem unknown_op : ∀ row ∈ Claims.operationMap, Claims.opOf 0xFF9000000000 ≠ row.1 := by
  have h : Claims.opOf 0xFF9000000000 = 0xFF := by decide
  rw [h]
  simp [Claims.operationMap]

theorem unknown_op8 : ∀ row ∈ Claims.operationMap, Claims.opOf 0x080000000000 ≠ row.1 := by
  have h : Claims.opOf 0x080000000000 = 0x08 := by decide
  rw [h]
  simp [Claims.operationMap]

theorem witness_IllegalAndReservedWordsAreRefused :
    (∀ row ∈ Claims.operationMap, Claims.opOf 0xFF9000000000 ≠ row.1) ∧
    (∀ row ∈ Claims.operationMap, Claims.opOf 0x080000000000 ≠ row.1) ∧
    (∃ row ∈ Claims.operationMap, Claims.opOf 0x010000000001 = row.1 ∧ (0x010000000001#48) &&& row.2 ≠ 0) ∧
    (∃ row ∈ Claims.operationMap, Claims.opOf 0x010000000000 = row.1 ∧ (0x010000000000#48) &&& row.2 = 0) ∧
    (fresh.pushCommand 0xFF9000000000).port.inputs = [.command 0xFF9000000000] :=
  ⟨unknown_op, unknown_op8, ⟨(0x01, 0x00FFFFFFFFFF), .head _, by decide⟩, ⟨(0x01, 0x00FFFFFFFFFF), .head _, by decide⟩, rfl⟩

/-- A state whose Results Record lies outside RES, which no state that meets the invariant has. -/
def noRecord : State := { fresh with cfg := { tc with resWords := 0 } }

theorem witness_StepRunsTheDecodedOperation :
    (fresh.pushCommand 0x010000000000).port.inputs = [.command 0x010000000000] ∧
    decode 0x010000000000 = .ok .icInit ∧ (∃ t, exec .icInit fresh = .next t) ∧
    decode 0x280000000000 = .ok .getSupplyV ∧ (∃ f, exec .getSupplyV noRecord = .fault f) ∧
    decode 0x025000000000 = .ok (.icEnable 5 0) ∧
    (∃ r code, exec (.icEnable 5 0) fresh = .refused r ∧ refusalCode r = some code) :=
  ⟨rfl, rfl, ⟨_, rfl⟩, rfl, ⟨_, rfl⟩, rfl, ⟨_, _, rfl, rfl⟩⟩

theorem witness_RunTakesPendingInputs : ∃ t, runInputs fresh [.source .pwm 3, .command 0x050000000000, .proceed] = .next t :=
  ⟨_, rfl⟩

theorem witness_RefusalsAnswerAndChangeNothing : exec (.icEnable 5 0) fresh = .refused .groupRange := rfl

theorem witness_OperandRangesAreChecked :
    Instr.operandError tc (.icVector 5) = some .groupRange ∧
    Instr.operandError { tc with srcCount := PerGroup.all 8 } (.icAck 0 8) = some .bitRange ∧
    Instr.operandError tc (.getCurRaw 2) = some .badTopology ∧
    Instr.operandError { tc with resWords := 0x0100 } (.adcRdres 0x0100) = some .addrRange ∧
    Instr.wellFormed tc (.icAck 4 15) = true ∧ (1#4).toNat < fresh.cfg.topologies.length ∧
    (fresh.cfg.busyRefusesSelect = false ∨ fresh.adc.busyOp = false) := by decide

/-- The operands of the source operations: a group out of range, a bit index out of range, and the boundary values in range. -/
theorem witness_IcEnableSetsBothBits :
    4 < (5#4).toNat ∧ 0#4 = fieldOfGroup .pwm ∧ 4#4 = fieldOfGroup .diag ∧
    ({ tc with srcCount := PerGroup.all 8 } : Config).srcCount.get .pwm ≤ (8#4).toNat ∧
    (15#4).toNat < tc.srcCount.get .diag ∧ (0#4).toNat < tc.srcCount.get .pwm := by decide

theorem witness_IcDisableClearsTheMaskBit : 4 < (15#4).toNat ∧ 3#4 = fieldOfGroup .extio ∧
    ({ tc with srcCount := PerGroup.all 1 } : Config).srcCount.get .extio ≤ (1#4).toNat ∧
    (15#4).toNat < tc.srcCount.get .extio := by decide

theorem witness_IcAckClearsThePendingBit : 4 < (5#4).toNat ∧ 1#4 = fieldOfGroup .timer1 ∧
    ({ tc with srcCount := PerGroup.all 15 } : Config).srcCount.get .timer1 ≤ (15#4).toNat ∧
    (0#4).toNat < tc.srcCount.get .timer1 := by decide

theorem witness_IcReadsAnswerTheRegisters : 4 < (5#4).toNat ∧ 3#4 = fieldOfGroup .extio := by decide

theorem witness_IcVectorAnswersTheLowestSource :
    4 < (5#4).toNat ∧ 0#4 = fieldOfGroup .pwm ∧ fresh.readPend .pwm &&& fresh.readMask .pwm = 0 ∧
    ((withPwm 0x8000 0x8000).readPend .pwm &&& (withPwm 0x8000 0x8000).readMask .pwm).getLsbD (15#4).toNat = true ∧
    ∀ b' : BitVec 4, b' < 15#4 →
      ((withPwm 0x8000 0x8000).readPend .pwm &&& (withPwm 0x8000 0x8000).readMask .pwm).getLsbD b'.toNat = false := by decide

theorem witness_EnableForcesADispatch : (0#4).toNat < fresh.cfg.srcCount.get .pwm := by decide

theorem witness_SourceEventLatches : (15#4).toNat < fresh.cfg.srcCount.get .timer2 := by decide

theorem witness_PendAndMaskFollowTheirHistories : (7#4).toNat < fresh.cfg.srcCount.get .timer2 ∧
    ∃ t, runInputs fresh [.source .timer2 7, .command 0x022700000000, .command 0x042700000000] = .next t :=
  ⟨by decide, _, rfl⟩

theorem witness_DispatchServesEverySourceInOrder :
    (∀ b : BitVec 4, ((withPwm 0x0015 0x0015).readPend .pwm &&& (withPwm 0x0015 0x0015).readMask .pwm).getLsbD b.toNat = true →
      handlerOf (withPwm 0x0015 0x0015).cfg .pwm b ≠ 0) ∧
    ((withPwm 0x0015 0x0015).readPend .pwm &&& (withPwm 0x0015 0x0015).readMask .pwm).getLsbD 4 = true ∧
    completed.irqAdc = true := by decide

theorem witness_UnboundSourceIsDispatchedForEver :
    ((withPwm 0x0006 0x0006).readPend .pwm &&& (withPwm 0x0006 0x0006).readMask .pwm).getLsbD (1#4).toNat = true ∧
    (∀ b' : BitVec 4, b' < 1#4 →
      ((withPwm 0x0006 0x0006).readPend .pwm &&& (withPwm 0x0006 0x0006).readMask .pwm).getLsbD b'.toNat = false) ∧
    handlerOf (withPwm 0x0006 0x0006).cfg .pwm 1 = 0 := by decide

theorem witness_InitAndConfigureResults : ((looping 0).adc.state ≠ .idle ∧ (due []).adc.busyOp = true) ∧ fresh.adc.state = .idle ∧ fresh.adc.busyOp = false ∧
    tableOk fresh.cfg (0x0100#16).toNat (0xFFF8#16).toNat .any = true ∧
    tableOk fresh.cfg (0x0100#16).toNat (0xFFF9#16).toNat .any = false := by decide

theorem witness_StartSwRunsOnePass : fresh.Inv ∧ fresh.adc.state = .idle ∧ fresh.adc.busyOp = false ∧
    tableOk fresh.cfg (0x0100#16).toNat (0xFFF8#16).toNat .sw = true ∧
    tableEntries fresh.cfg (0x0100#16).toNat = some [0, 1, 2, 3, 4, 5, 6, 7] ∧
    [600, 10, 540, 600, 0, 500, 0, 9].length = ([0, 1, 2, 3, 4, 5, 6, 7] : List Word).length :=
  ⟨fresh_inv, rfl, rfl, by decide, by decide, rfl⟩

theorem witness_StartHwArmsTheLoop :
    (fresh.adc.state = .idle ∧ fresh.adc.busyOp = false ∧ fresh.adc.fePowered = false ∧
      tableOk fresh.cfg (0x0200#16).toNat (0x0020#16).toNat .hw = true) ∧
    (powered.adc.state = .idle ∧ powered.adc.busyOp = false ∧ powered.adc.fePowered = true ∧
      tableOk powered.cfg (0x0200#16).toNat (0x0020#16).toNat .hw = true) := by decide

theorem witness_StartSelectsThenArmsTheLoop : fresh.cfg.topologies.length ≤ (2#4).toNat ∧ fresh.cfg.topologies[(0#4).toNat]? = some ⟨.one, 4⟩ ∧
    fresh.adc.state = .idle ∧ fresh.adc.busyOp = false ∧
    tableOk fresh.cfg (tableAddr fresh.cfg (0#4).toNat fresh.cfg.psdEn
      (if (9#16).toNat < 4 then (9#16).toNat else fresh.cfg.defaultPhase)).toNat fresh.cfg.resultsBase.toNat .hw = true := by
  decide

theorem witness_StopDrainsOneConversion :
    (fresh.Inv ∧ fresh.port.op = none ∧ fresh.adc.state = .idle) ∧
    ((running 3 2 false false none).Inv ∧ (running 3 2 false false none).port.op = none ∧
      (running 3 2 false false none).adc.state = .runHW) ∧
    ((running 3 1 false true none).Inv ∧ (running 3 1 false true none).adc.inflight = true) :=
  ⟨⟨fresh_inv, rfl, rfl⟩, ⟨loop_inv 2 false (by decide), rfl, rfl⟩, loop_inv 1 true (by decide), rfl⟩

theorem witness_StopLeavesTheEngineQuiet : ∃ (s : State) (o : Operation),
    s.Inv ∧ s.port.op = some o ∧ o.phase = .stopIdle ∧ o.todo = [] :=
  ⟨_, _, stopIdle_inv, rfl, rfl, rfl⟩

theorem witness_DrainIsExactlyOneCompletion : ∃ o : Operation, o.phase = .drainWait ∧
    ((running 2 1 true false (some o)).Inv ∧ (running 2 1 true true (some o)).Inv ∧ (running 2 1 false false (some o)).Inv) :=
  ⟨_, rfl, drain_inv true false (by decide), drain_inv true true (by decide), drain_inv false false (by decide)⟩

theorem witness_PowerOffSwitchesTheFrontEndOff :
    (fresh.Inv ∧ fresh.port.op = none ∧ fresh.adc.state = .idle ∧ refoffOk fresh.cfg = true) ∧
    ((running 3 2 false false none).Inv ∧ (running 3 2 false false none).port.op = none ∧
      (running 3 2 false false none).adc.state = .runHW) :=
  ⟨⟨fresh_inv, rfl, rfl, by decide⟩, loop_inv 2 false (by decide), rfl, rfl⟩

/-- An operation in progress under the configuration that follows R120 for `ADC_SELECT_TABLE` (log 12). -/
def selectRefusing : State := { due [] with cfg := { tc with busyRefusesSelect := true } }

theorem witness_TableSelectionIsPure :
    (selectRefusing.cfg.busyRefusesSelect = true ∧ selectRefusing.adc.busyOp = true ∧
      selectRefusing.cfg.topologies[(1#4).toNat]? = some ⟨.two, 4⟩) ∧ (due []).cfg.busyRefusesSelect = false ∧
    fresh.cfg.topologies[(1#4).toNat]? = some ⟨.two, 4⟩ ∧ fresh.cfg.topologies.length ≤ (2#4).toNat := by decide

theorem witness_CompletionControlAndResultRead :
    (0xFFFF#16).toNat < fresh.cfg.resWords ∧
    ({ tc with resWords := 0x0100 } : Config).resWords ≤ (0x0100#16).toNat := by decide

theorem witness_WrongStateIsRefused :
    Instr.wellFormed tc (.adcStart 1 0) = true ∧ Claims.needsIdle (.adcStart 1 0) = true ∧ (looping 0).adc.state ≠ .idle ∧
    (due []).adc.busyOp = true ∧ Instr.wellFormed tc .adcStop = true ∧ waiting.adc.state = .runSW ∧
    Instr.wellFormed selectRefusing.cfg (.adcSelectTable 1 true 3) = true ∧ selectRefusing.cfg.busyRefusesSelect = true ∧
    selectRefusing.adc.busyOp = true := by decide

/-- The fresh state without any table, its first pin an output. -/
def tableless : State :=
  { fresh with cfg := { tc with seq := [] }, pins := { gpioOe := 1, gpioOut := 0, drvCfg := 0 } }

theorem witness_MissingTablesAreRefused : tableless.adc.busyOp = false ∧ tableless.adc.state = .idle ∧
    refoffOk tableless.cfg = false ∧ tableOk tableless.cfg (0x0100#16).toNat (0#16).toNat .sw = false ∧
    tableOk tableless.cfg (0x0100#16).toNat (0#16).toNat .hw = false ∧ stTableOk tableless.cfg 0x08 = false ∧
    stTableOk tableless.cfg 0x09 = false ∧ 0 < tableless.cfg.nGpio ∧ tableless.pins.gpioOe.getLsbD 0 = true ∧
    stTableOk tableless.cfg (chGpio 0) = false ∧ stTableOk tableless.cfg tableless.cfg.chZero = false := by decide

theorem witness_SequencerTransitionsAreExactly :
    (fresh.Inv ∧ ∃ t, step (fresh.pushCommand 0x120003000002) = .next t ∧ t.adc.state ≠ fresh.adc.state) ∧
    (fresh.Inv ∧ ∃ t, step (fresh.pushCommand 0x130002000020) = .next t ∧ t.adc.state ≠ fresh.adc.state) ∧
    ((running 0 1 false false (some (opAt .stopIdle []))).Inv ∧
      ∃ t, runInput .proceed (running 0 1 false false (some (opAt .stopIdle []))) = .next t ∧ t.adc.state ≠ .runHW) ∧
    (due [.measure 0x08]).Inv ∧ ∃ t, runInput .proceed (due [.measure 0x08]) = .next t ∧ t.adc.state ≠ .idle :=
  ⟨⟨fresh_inv, _, rfl, by decide⟩, ⟨fresh_inv, _, rfl, by decide⟩, ⟨stopIdle_inv, _, rfl, by decide⟩,
    due_inv _ (by simp only [List.mem_singleton, forall_eq]; exact table_08), _, rfl, by decide⟩

theorem witness_BeginStepIsTheRule :
    (looping 0).entry 0 = some 0x0803 ∧ (looping 0).adc.state ≠ .idle ∧ (looping 0).adc.ctrl.getLsbD 0 = true ∧
    entryEnd 0x0803 = false ∧ entryTrig 0x0803 = 1 ∧ 1 ≤ (15#4).toNat ∧ (15#4).toNat ≤ tc.nHwEvent ∧
    (looping 1).entry 1 = some 0x0005 ∧ entryTrig 0x0005 = 0 := by decide

theorem witness_CompleteStepIsTheRule : fresh.adc.inflight = false ∧ (running 3 2 false true none).Inv ∧
    (running 3 2 false true none).adc.inflight = true ∧ (running 3 2 false true none).entry (2 + 1) = some 0x8000 :=
  ⟨rfl, loop_inv 2 true (by decide), rfl, by decide⟩

theorem witness_SamplesAreExactlyTheRawCodes : tc.wf = true ∧ (1023#16).toNat ≤ 2 ^ tc.adcBits - 1 := ⟨tc_wf, by decide⟩

theorem witness_ResIsWrittenByCompletionsOnly : fresh.resWf = true ∧
    (∃ t, step (fresh.pushCommand 0x010000000000) = .next t) ∧
    ∀ d, (fresh.pushCommand 0x010000000000).nextInput ≠ .engineComplete d :=
  ⟨by decide, ⟨_, rfl⟩, fun _ h => nomatch h⟩

theorem witness_ConfigurationAndStoredOffsetAreConstant : ∃ t, step (fresh.pushCommand 0x100000000000) = .next t := ⟨_, rfl⟩

theorem witness_ReadsHaveNoSideEffect : (∃ t, exec .adcRdstat fresh = .next t) ∧ Claims.isRead .adcRdstat = true ∧
    ∃ t, exec (.getChipTemp true) fresh = .next t :=
  ⟨⟨_, rfl⟩, rfl, _, rfl⟩

/-- A state with every calibration item set. -/
def calSet : State :=
  { fresh with cal := { fresh.cal with
      zeroOff := 1, measOff := 2, lastTemp := 3, elecFault := true, storedValid := true, storedOff := 9, diagLog := [1] } }

theorem witness_CalibrationStateHasItsWriters :
    (after (step (calSet.pushCommand 0x100000000000))).map (fun t =>
      (t.cal.elecFault, decide (calSet.cal.diagLog <+: t.cal.diagLog), t.cal.lastTemp, t.cal.zeroOff, t.cal.measOff)) =
        some (false, false, 0, 9, 0) ∧
    (after (step (calSet.pushCommand 0x230000000000))).map (fun t => t.cal.zeroOff) = some 9 ∧
    (after (step (calSet.pushCommand 0x2B0100000000))).map (fun t => t.cal.lastTemp) = some 0xFF1F ∧
    (after (runInput .proceed { calSet with port := { calSet.port with op := some (opAt .task [.averageOffset]) } })).map
      (fun t => t.cal.measOff) = some 0 := by decide

theorem witness_CompletionFlagHasItsWriters :
    (after (runInput (.engineComplete 5) (running 3 2 false true none))).map (fun t => t.adc.eocPend) = some true ∧
    (after (step (({ fresh with adc := { fresh.adc with eocPend := true } } : State).pushCommand 0x190000000000))).map
      (fun t => t.adc.eocPend) = some false ∧
    (after (step (fresh.pushCommand 0x180100000000))).map (fun t => t.adc.eocIe) = some true ∧
    (after (step ((looping 0).pushCommand 0x180000000000))).map (fun t => t.adc.eocIe) = some false := by decide

theorem witness_MeasureTakesOneSample : ∃ (s : State) (o : Operation), s.Inv ∧ s.port.op = some o ∧ o.phase = .task ∧
    o.todo = .measure 0x08 :: .railsVerdict :: [] :=
  ⟨_, _, due_inv [.measure 0x08, .railsVerdict] (by
    intro t ht
    simp only [List.mem_cons, List.not_mem_nil, or_false] at ht
    rcases ht with rfl | rfl
    · exact table_08
    · trivial), rfl, rfl, rfl⟩

theorem witness_CalRailsChecksBothRails : fresh.Inv ∧ fresh.adc.state = .idle ∧ fresh.adc.busyOp = false ∧
    stTableOk fresh.cfg 0x08 = true ∧ stTableOk fresh.cfg 0x09 = true :=
  ⟨fresh_inv, rfl, rfl, by decide, by decide⟩

theorem witness_PinTurnChecksAndRestores :
    (∃ (s : State) (o : Operation), s.Inv ∧ 1 < s.cfg.nGpio ∧ s.port.op = some o ∧ o.phase = .task ∧ o.todo = .pin 1 :: [] ∧
      s.pins.gpioOe.getLsbD 1 = false) ∧
    ∃ (s : State) (o : Operation), s.Inv ∧ 1 < s.cfg.nGpio ∧ s.port.op = some o ∧ o.phase = .task ∧
      o.todo = .pin 1 :: [.railsVerdict] ∧ s.pins.gpioOe.getLsbD 1 = true :=
  ⟨⟨_, _, due_inv [.pin 1] (by simp only [List.mem_singleton, forall_eq]; intro h; exact absurd h (by decide)), by decide, rfl,
      rfl, rfl, by decide⟩,
    _, _, duePins_inv 1 [.railsVerdict] (by decide) (by simp only [List.mem_singleton, forall_eq]; trivial), by decide, rfl, rfl,
      rfl, by decide⟩

theorem witness_CalMeasureOffsetAveragesTwoSamples : fresh.Inv ∧ fresh.adc.state = .idle ∧ fresh.adc.busyOp = false ∧
    stTableOk fresh.cfg fresh.cfg.chZero = true ∧ fresh.cfg.chZero ≠ chNone :=
  ⟨fresh_inv, rfl, rfl, by decide, by decide⟩

/-- A configuration whose `CH_ZERO` names no channel: a measurement of the offset stores nothing. -/
def tcNone : Config := { tc with selftestTableBase := 0xFD80, chZero := 0xFF, seq := [(0xFF7E, 0x00FF)] }

def freshNone : State := { fresh with cfg := tcNone }

theorem witness_CalMeasureOffsetWithoutChannel : freshNone.Inv ∧ freshNone.adc.state = .idle ∧ freshNone.adc.busyOp = false ∧
    stTableOk freshNone.cfg freshNone.cfg.chZero = true ∧ freshNone.cfg.chZero = chNone :=
  ⟨inv_of (by decide) (by decide) (by decide) rfl (fun _ => ⟨rfl, rfl, rfl⟩) rfl (Or.inl ⟨rfl, rfl, rfl, rfl⟩)
    (fun h => absurd rfl h), rfl, rfl, by decide, rfl⟩

theorem witness_MeasureTakesNoSample : ∃ (s : State) (o : Operation), s.Inv ∧ s.port.op = some o ∧ o.phase = .task ∧
    o.todo = .measure chNone :: .restoreDriver 0 :: [] :=
  ⟨inOp freshNone (opAt .task [.measure chNone, .restoreDriver 0]), _,
    inv_of (by decide : tcNone.wf = true) (by decide : freshNone.resWf = true) fresh_ic rfl (fun _ => ⟨rfl, rfl, rfl⟩) rfl
      ⟨⟨rfl, rfl, rfl, rfl⟩, by
        intro t ht
        simp only [opAt, Operation.fresh, List.mem_cons, List.not_mem_nil, or_false] at ht
        rcases ht with rfl | rfl
        · exact (by decide : stTableOk tcNone chNone = true)
        · trivial⟩ (fun h => absurd rfl h), rfl, rfl, rfl⟩

/-- The last task of a self-test is due (R166). -/
theorem witness_CalValidateOffsetIsStrict_task : ∃ (s : State) (o : Operation),
    s.Inv ∧ s.port.op = some o ∧ o.phase = .task ∧ o.todo = [.validateOffset] ∧ o.answer = .nothing :=
  ⟨_, _, due_inv [.validateOffset] (by simp only [List.mem_singleton, forall_eq]; trivial), rfl, rfl, rfl, rfl⟩

theorem witness_CalValidateOffsetIsStrict : fresh.adc.state = .idle ∧ fresh.adc.busyOp = false ∧
    (519#16).toNat > (512#16).toNat + 6 ∧ (518#16).toNat ≤ (512#16).toNat + 6 ∧ (512#16).toNat ≤ (518#16).toNat + 6 ∧
    (512#16).toNat > (505#16).toNat + 6 := by decide

theorem witness_CalPinsAndSelftestBegin : fresh.adc.state = .idle ∧ fresh.adc.busyOp = false ∧ 1 ≤ fresh.cfg.nGpio ∧
    ({ tc with nGpio := 0 } : Config).nGpio = 0 ∧
    (∀ p, p < fresh.cfg.nGpio → (duePins []).pins.gpioOe.getLsbD p = true → stTableOk fresh.cfg (chGpio p) = true) ∧
    stTableOk fresh.cfg 0x08 = true ∧ stTableOk fresh.cfg 0x09 = true ∧ stTableOk fresh.cfg fresh.cfg.chZero = true := by
  decide

theorem witness_RoundingIsHalfUp : 0 < (2 : Nat) := by decide

theorem witness_VoltageGettersConvertTheirField :
    (withRecord 0 [(7, 9)]).readRes ((withRecord 0 [(7, 9)]).cfg.resultsBase.toNat + 7) = some 9 ∧
    rdiv (((9 : Nat) - tc.phase.off) * tc.phase.gain) tc.phase.div = -2 ∧
    ¬ rdiv (((1000 : Nat) - (10 : Int)) * 1000) 1 ≤ 32767 := by decide

theorem witness_CurrentGettersClampEachCoil :
    fresh.cfg.topologies.length ≤ (2#4).toNat ∧ fresh.cfg.topologies[(1#4).toNat]? = some ⟨.two, 4⟩ ∧
    (withRecord 512 [(3, 600), (5, 500)]).readRes 3 = some 600 ∧ (withRecord 512 [(3, 600), (5, 500)]).readRes 5 = some 500 ∧
    (88#16).toNat = ((600 - 512) + (500 - 512)) % 65536 ∧ 88 * 125 / 10 ≤ 65535 ∧ 65535 < 88 * 1000 / 1 := by decide

theorem witness_LimiterMovesOneUnit :
    ((30 - 25 : Int)).natAbs ≤ 5 ∧ ((31 - 25 : Int)).natAbs > 5 ∧ ((19 - 25 : Int)).natAbs > 5 ∧ (25 : Int) < 31 ∧
    (19 : Int) < 25 := by decide

theorem witness_ChipTempReportsAndRemembers :
    (withRecord 0 [(2, 480)]).readRes ((withRecord 0 [(2, 480)]).cfg.resultsBase.toNat + 2) = some 480 ∧
    tempNaive tc.temp 480 = 15 ∧ tempLimit tc.temp.jump 35 15 = 34 ∧
    ¬ tempNaive ⟨0, 0, 1000, 1, 1000, 1, 5⟩ 1000 ≤ 32767 := by decide

theorem witness_EngineIsQuietAfterReset : fresh.AfterReset :=
  ⟨rfl, rfl, rfl, rfl, rfl, rfl, rfl, rfl, rfl, rfl, rfl⟩

theorem witness_StepKeepsTheInvariant : fresh.Inv ∧ (running 3 1 false true none).Inv ∧
    ∃ t, step (fresh.pushCommand 0x120003000002) = .next t :=
  ⟨fresh_inv, loop_inv 1 true (by decide), _, rfl⟩

theorem witness_NoStepFaults : fresh.Inv ∧ (running 3 2 false true none).Inv := ⟨fresh_inv, loop_inv 2 true (by decide)⟩

theorem witness_WaitsHaveNoTimeout :
    (∃ o, waiting.Inv ∧ waiting.port.op = some o ∧ o.phase = .swWait ∧ waiting.adc.start = true) ∧
    (∃ (s : State) (o : Operation), s.Inv ∧ s.port.op = some o ∧ o.phase = .drainWait ∧ s.adc.start = true) ∧
    (∀ d, Input.engineComplete d ∉ [Input.proceed, .engineBegin, .command 0x140000000000]) ∧
    ∃ t, runInputs waiting [.proceed, .engineBegin, .command 0x140000000000] = .next t :=
  ⟨⟨_, waiting_inv, rfl, rfl, rfl⟩, ⟨_, _, drain_inv true true (by decide), rfl, rfl, rfl⟩, by simp, _, rfl⟩

end Sys2Proof.Tests
end

section
/-! Pending inputs (R41, R60): no atomic step reads or changes the list of inputs still to come. -/

namespace Sys2Proof.Machine

/-- The outcome with its pending inputs replaced, where there is a next state (log 1). -/
def Result.withInputs (xs : List Input) : Result → Result
  | .next t => .next (t.withInputs xs)
  | .fault f => .fault f
  | .refused r => .refused r

section

variable (xs : List Input) (s : State)

theorem State.withInputs_ite (c : Prop) [Decidable c] (t : State) :
    (if c then s else t).withInputs xs = if c then s.withInputs xs else t.withInputs xs :=
  apply_ite (fun u => State.withInputs u xs) c s t

/-! ### The checks of R74 -/

@[simp] theorem Result.withInputs_next : Result.withInputs xs (.next s) = .next (s.withInputs xs) := rfl

@[simp] theorem Result.withInputs_require (c : Bool) (r : Refusal) (k : Result) :
    Result.withInputs xs (require c r k) = require c r (Result.withInputs xs k) := by
  cases c <;> rfl

@[simp] theorem Result.withInputs_withGroup (g : BitVec 4) (k : Group → Result) :
    Result.withInputs xs (withGroup g k) = withGroup g fun grp => Result.withInputs xs (k grp) := by
  unfold withGroup; split <;> rfl

@[simp] theorem Result.withInputs_withSource (g b : BitVec 4) (k : Group → Result) :
    Result.withInputs xs (withSource g b s k) =
      withSource g b (s.withInputs xs) fun grp => Result.withInputs xs (k grp) := by
  simp only [withSource, Result.withInputs_withGroup, Result.withInputs_require]; rfl

@[simp] theorem Result.withInputs_withTopology (t : BitVec 4) (k : Topology → Result) :
    Result.withInputs xs (withTopology t s k) =
      withTopology t (s.withInputs xs) fun topo => Result.withInputs xs (k topo) := by
  simp only [withTopology, State.withInputs_cfg]; split <;> rfl

@[simp] theorem readRes_withInputs (a : Nat) : (s.withInputs xs).readRes a = s.readRes a := rfl

@[simp] theorem Result.withInputs_withRes (a : Nat) (k : Word → Result) :
    Result.withInputs xs (withRes s a k) = withRes (s.withInputs xs) a fun w => Result.withInputs xs (k w) := by
  simp only [withRes, readRes_withInputs]; split <;> rfl

@[simp] theorem Result.withInputs_requireIdle (k : Result) :
    Result.withInputs xs (requireIdle s k) = requireIdle (s.withInputs xs) (Result.withInputs xs k) := by
  simp [requireIdle]

@[simp] theorem Result.withInputs_requireSelectable (k : Result) :
    Result.withInputs xs (requireSelectable s k) = requireSelectable (s.withInputs xs) (Result.withInputs xs k) := by
  simp [requireSelectable]

@[simp] theorem Result.withInputs_requireStoppable (k : Result) :
    Result.withInputs xs (requireStoppable s k) = requireStoppable (s.withInputs xs) (Result.withInputs xs k) := by
  simp [requireStoppable]

/-! ### Operations -/

theorem nextTask_withInputs (o : Operation) : (s.withInputs xs).nextTask o = (s.nextTask o).withInputs xs := by
  unfold State.nextTask; split <;> rfl

theorem issueTasks_withInputs (todo : List Task) (a : Answer) :
    (s.withInputs xs).issueTasks todo a = (s.issueTasks todo a).withInputs xs :=
  nextTask_withInputs xs (s.issueOp (Operation.fresh .task todo a)) _

theorem stopFirst_withInputs (todo : List Task) : stopFirst todo (s.withInputs xs) = (stopFirst todo s).withInputs xs := by
  simp only [stopFirst, State.withInputs_ite]; rfl

theorem startLoop_withInputs (table dest : Word) :
    startLoop table dest (s.withInputs xs) = Result.withInputs xs (startLoop table dest s) := by
  simp only [startLoop, Result.withInputs_requireIdle, Result.withInputs_require, apply_ite (Result.withInputs xs)]
  rfl

theorem respondSigned_withInputs (v : Int) :
    respondSigned (s.withInputs xs) v = Result.withInputs xs (respondSigned s v) := by
  simp only [respondSigned, Result.withInputs_require]; rfl

@[simp] theorem Result.withInputs_withCurrentSum (t : BitVec 4) (k : Word → Result) :
    Result.withInputs xs (withCurrentSum t s k) =
      withCurrentSum t (s.withInputs xs) fun w => Result.withInputs xs (k w) := by
  simp [withCurrentSum, withField]

/-- The first step of an operation neither reads nor changes the pending inputs. -/
theorem exec_withInputs (i : Instr) : exec i (s.withInputs xs) = Result.withInputs xs (exec i s) := by
  cases i with
  | icInit | adcEocIe _ | adcEocAck | adcRdstat => rfl
  | icEnable _ _ | icDisable _ _ | icAck _ _ =>
    simp only [exec, execIcEnable, execIcDisable, execIcAck, Result.withInputs_withSource]; rfl
  | icVector _ | icRdpend _ | icRdmask _ =>
    simp only [exec, execIcVector, execIcRdpend, execIcRdmask, Result.withInputs_withGroup]; rfl
  | adcInit => simp only [exec, execAdcInit, Result.withInputs_requireIdle]; rfl
  | adcConfigure _ _ | adcStartSw _ _ =>
    simp only [exec, execAdcConfigure, execAdcStartSw, Result.withInputs_requireIdle, Result.withInputs_require]; rfl
  | adcStartHw table dest => exact startLoop_withInputs xs s table dest
  | adcStart _ _ => simp only [exec, execAdcStart, Result.withInputs_withTopology, ← startLoop_withInputs]; rfl
  | adcStop | adcPowerOff =>
    simp only [exec, execAdcStop, execAdcPowerOff, Result.withInputs_requireStoppable, Result.withInputs_require,
      stopFirst_withInputs]; rfl
  | adcSelectTable _ _ _ =>
    simp only [exec, execAdcSelectTable, Result.withInputs_withTopology, Result.withInputs_requireSelectable]; rfl
  | adcRdres address =>
    simp only [exec, execAdcRdres, readRes_withInputs]
    cases s.readRes address.toNat <;> rfl
  | calRails | calPins | calMeasureOffset | calSelftest =>
    simp only [exec, execCalRails, execCalPins, execCalMeasureOffset, execCalSelftest, Result.withInputs_requireIdle,
      Result.withInputs_require, issueTasks_withInputs]; rfl
  | calValidateOffset => simp only [exec, execCalValidateOffset, Result.withInputs_requireIdle]; rfl
  | getSupplyV | getMotorV | getPhaseV =>
    simp only [exec, execGetSupplyV, execGetMotorV, execGetPhaseV, withField, Result.withInputs_withRes,
      respondSigned_withInputs]; rfl
  | getChipTemp first =>
    simp only [exec, execGetChipTemp, withField, Result.withInputs_withRes, ← respondSigned_withInputs]; rfl
  | getCurRaw _ | getCurScaled _ =>
    simp only [exec, execGetCurRaw, execGetCurScaled, Result.withInputs_withCurrentSum, Result.withInputs_require]; rfl

theorem answerRefused_withInputs (r : Refusal) :
    answerRefused r (s.withInputs xs) = Result.withInputs xs (answerRefused r s) := by
  unfold answerRefused; split <;> rfl

theorem runCommand_withInputs (cw : CommandWord) :
    runCommand cw (s.withInputs xs) = Result.withInputs xs (runCommand cw s) := by
  unfold runCommand
  cases decode cw with
  | error e => exact answerRefused_withInputs xs s _
  | ok i =>
    simp only [exec_withInputs]
    cases exec i s with
    | next t => rfl
    | fault f => rfl
    | refused r => exact answerRefused_withInputs xs s r

/-! ### The steps of an operation in progress -/

theorem recordRails_withInputs (v0 v1 : Word) : (s.withInputs xs).recordRails v0 v1 = (s.recordRails v0 v1).withInputs xs := by
  simp only [State.recordRails, State.withInputs_ite]; rfl

theorem recordPin_withInputs (p : Nat) (vh vl : Word) :
    (s.withInputs xs).recordPin p vh vl = (s.recordPin p vh vl).withInputs xs := by
  simp only [State.recordPin, State.withInputs_ite]; rfl

theorem runTask_withInputs (t : Task) (o : Operation) : runTask t o (s.withInputs xs) = (runTask t o s).withInputs xs := by
  cases t with
  | refOff | measure _ => rfl
  | railsVerdict => simp only [runTask, recordRails_withInputs, nextTask_withInputs]
  | pinVerdict p => simp only [runTask, recordPin_withInputs, nextTask_withInputs]
  | pin p => exact nextTask_withInputs xs s _
  | drivePin p level => exact nextTask_withInputs xs (s.drivePin p level) o
  | forceDriver =>
    exact nextTask_withInputs xs { s with pins := { s.pins with drvCfg := s.cfg.drvActiveCfg } }
      { o with todo := offsetMeasure s.cfg s.pins.drvCfg ++ o.todo }
  | restoreDriver saved => exact nextTask_withInputs xs { s with pins := { s.pins with drvCfg := saved } } o
  | averageOffset =>
    exact nextTask_withInputs xs { s with cal := { s.cal with measOff := averageCode o.older o.newer } } o
  | validateOffset => exact nextTask_withInputs xs s.validateOffset o

theorem passDone_withInputs (o : Operation) : passDone o (s.withInputs xs) = Result.withInputs xs (passDone o s) := by
  unfold passDone
  cases o.todo with
  | nil => rfl
  | cons t rest => simp only [Result.withInputs_withRes]; rfl

theorem runPhase_withInputs (o : Operation) : runPhase o (s.withInputs xs) = Result.withInputs xs (runPhase o s) := by
  unfold runPhase
  cases o.phase with
  | swSettle | swTrigger | hwSettle | hwArm | drainTrigger | stopCtrl | stopEoc => rfl
  | swWait | drainWait => simp only [Result.withInputs_next, State.withInputs_ite]; rfl
  | swFinish => exact passDone_withInputs xs s o
  | stopIdle => 
    exact congrArg Host.Outcome.next
      (nextTask_withInputs xs { s with adc := { s.adc with state := .idle, idx := 0x0000#16 } } o)
  | task =>
    cases o.todo with
    | nil => rfl
    | cons t rest => exact congrArg Host.Outcome.next (runTask_withInputs xs s t _)

/-! ### The engine and the source events -/

theorem entry_withInputs (k : Word) : (s.withInputs xs).entry k = s.entry k := rfl

theorem storeSample_withInputs (w : Word) :
    (s.withInputs xs).storeSample w = (s.storeSample w).map (State.withInputs · xs) := by
  simp only [State.storeSample, State.writeRes, apply_ite (Option.map (State.withInputs · xs)), Option.map_some,
    Option.map_none]
  rfl

theorem engineBegin_withInputs (event : Option (BitVec 4)) :
    engineBegin event (s.withInputs xs) = Result.withInputs xs (engineBegin event s) := by
  unfold engineBegin
  simp only [apply_ite (Result.withInputs xs), entry_withInputs, State.withInputs_adc]
  cases s.entry s.adc.idx with
  | none => rfl
  | some e => simp only [apply_ite (Result.withInputs xs)]; rfl

theorem engineComplete_withInputs (draw : Word) :
    engineComplete draw (s.withInputs xs) = Result.withInputs xs (engineComplete draw s) := by
  unfold engineComplete
  simp only [apply_ite (Result.withInputs xs), storeSample_withInputs, entry_withInputs, State.withInputs_adc,
    State.withInputs_cfg]
  cases s.storeSample (sampleOf s.cfg draw) with
  | none => rfl
  | some s1 => cases s.entry (s.adc.idx + 1) <;> rfl

theorem sourceEvent_withInputs (g : Group) (b : BitVec 4) :
    sourceEvent g b (s.withInputs xs) = (sourceEvent g b s).withInputs xs := by
  simp only [sourceEvent, State.withInputs_ite]; rfl

/-- No atomic step of any agent reads or changes the pending inputs (R41, R60). -/
theorem runInput_withInputs (x : Input) : runInput x (s.withInputs xs) = Result.withInputs xs (runInput x s) := by
  cases x with
  | command cw => exact runCommand_withInputs xs s cw
  | proceed =>
    simp only [runInput, proceed, State.withInputs_port_op]
    cases s.port.op with
    | none => rfl
    | some o => exact runPhase_withInputs xs s o
  | source g b => exact congrArg Host.Outcome.next (sourceEvent_withInputs xs s g b)
  | hwEvent n => exact engineBegin_withInputs xs s _
  | engineBegin => exact engineBegin_withInputs xs s _
  | engineComplete draw => exact engineComplete_withInputs xs s draw

/-- A step with inputs pending takes the oldest one. -/
theorem step_withInputs_cons (x : Input) : step (s.withInputs (x :: xs)) = Result.withInputs xs (runInput x s) :=
  runInput_withInputs xs s x

end

/-- Inversion of a run: its first input makes a step, and the run goes on from there. -/
theorem runInputs_cons_next {s t : State} {x : Input} {xs : List Input} (h : runInputs s (x :: xs) = .next t) :
    ∃ u, runInput x s = .next u ∧ runInputs u xs = .next t := by
  simp only [runInputs] at h
  split at h
  · rename_i u hu
    exact ⟨u, hu, h⟩
  · cases h
  · cases h

end Sys2Proof.Machine

open Sys2Proof Sys2Proof.Machine

/-- Settles O6, by induction on the inputs: each step of the machine takes the oldest one. -/
theorem runTakesPendingInputs : Obligations.RunTakesPendingInputs := by
  unfold Obligations.RunTakesPendingInputs
  intro s t xs h
  induction xs generalizing s with
  | nil =>
    rw [next_iff.mp h]
    rfl
  | cons x xs ih =>
    obtain ⟨u, hx, hxs⟩ := runInputs_cons_next h
    have hstep : core.step (s.withInputs (x :: xs)) = .next (u.withInputs xs) :=
      (step_withInputs_cons xs s x).trans (congrArg (Result.withInputs xs) hx)
    simp only [List.length_cons, Host.Core.run, hstep]
    exact ih u hxs

end

section
/-! What one step can do to the calibration state and to the completion flag and its enable, said once (R25, R30 to R37). -/

namespace Sys2Proof.Machine

open Sys2Proof.Claims

/-- Every way input `x` can change the calibration state `k` while the tasks `due` are due, and which inputs may make each
change (R30 to R37). -/
inductive CalWrite (x : Input) (due : Task → Prop) (k : Calibration) : Calibration → Prop
  | unchanged : CalWrite x due k k
  | init (k' : Calibration) (hx : x.isCommand .adcInit) : CalWrite x due k k'
  | temperature (first : Bool) (v : Word) (hx : x.isCommand (.getChipTemp first)) :
      CalWrite x due k { k with lastTemp := v }
  | offset (v : Word) (hx : x.isCommand .calValidateOffset ∨ (x = .proceed ∧ due .validateOffset)) :
      CalWrite x due k { k with zeroOff := v }
  | average (v : Word) (hx : x = .proceed ∧ due .averageOffset) : CalWrite x due k { k with measOff := v }
  | railsFault (code : Word) (hx : x = .proceed ∧ due .railsVerdict) :
      CalWrite x due k { k with elecFault := true, diagLog := k.diagLog ++ [code] }
  | pinFault (p : Nat) (code : Word) (hx : x = .proceed ∧ due (.pinVerdict p)) :
      CalWrite x due k { k with diagLog := k.diagLog ++ [code] }

/-- Every way input `x` can move `eoc_pend` and `eoc_ie` (given in this order) of the sequencer `q` while the phases `due`
are due, and which inputs may make each move (R25, R193). -/
inductive EocWrite (x : Input) (due : Phase → Prop) (q : Sequencer) : Bool → Bool → Prop
  | unchanged : EocWrite x due q q.eocPend q.eocIe
  | init (hx : x.isCommand .adcInit) : EocWrite x due q false false
  | acknowledge (hx : x.isCommand .adcEocAck) : EocWrite x due q false q.eocIe
  | enable (en : Bool) (hx : x.isCommand (.adcEocIe en)) : EocWrite x due q q.eocPend en
  | loop (hx : (∃ table dest, x.isCommand (.adcStartHw table dest)) ∨ (∃ top index, x.isCommand (.adcStart top index)) ∨
      (x = .proceed ∧ due .hwArm)) : EocWrite x due q q.eocPend true
  | stop (hx : x = .proceed ∧ due .stopEoc) : EocWrite x due q q.eocPend false
  | complete (draw : Word) (last : Bool) (hx : x = .engineComplete draw) :
      EocWrite x due q (q.eocPend || last) q.eocIe

/-- The calibration state, the completion flag and its enable change from `s` to `t` only as `x` may change them. -/
def WritesAllowed (x : Input) (s t : State) : Prop :=
  CalWrite x (dueTask s) s.cal t.cal ∧ EocWrite x (duePhase s) s.adc t.adc.eocPend t.adc.eocIe

section

variable {x : Input} {s t : State}

theorem WritesAllowed.of_frame (hcal : t.cal = s.cal) (hpend : t.adc.eocPend = s.adc.eocPend)
    (hie : t.adc.eocIe = s.adc.eocIe) : WritesAllowed x s t := by
  unfold WritesAllowed
  rw [hcal, hpend, hie]
  exact ⟨.unchanged, .unchanged⟩

theorem WritesAllowed.of_nextTask (o : Operation) (h : WritesAllowed x s t) : WritesAllowed x s (t.nextTask o) := by
  simpa [WritesAllowed] using h

/-! ### The first step of an operation -/

/-- A loop start leaves the calibration state alone; it enables the completion, or leaves that to its last step (R124). -/
theorem loopEffect_writesAllowed {table dest : Word} (h : loopEffect table dest s t)
    (hx : (∃ table dest, x.isCommand (.adcStartHw table dest)) ∨ (∃ top index, x.isCommand (.adcStart top index))) :
    WritesAllowed x s t := by
  obtain ⟨-, -, -, rfl⟩ := h
  split
  · exact ⟨.unchanged, .loop (hx.imp_right .inl)⟩
  · exact .of_frame rfl rfl rfl

theorem stopFirst_writesAllowed (todo : List Task) : WritesAllowed x s (stopFirst todo s) := by
  obtain ⟨-, -, -, hcal, -, hadc, -⟩ := stopFirst_frame todo s
  exact .of_frame hcal (by rw [hadc]) (by rw [hadc])

theorem issueTasks_writesAllowed (todo : List Task) (a : Answer) : WritesAllowed x s (s.issueTasks todo a) :=
  .of_frame (by simp) (by simp) (by simp)

/-- The first step of an operation writes these items only where its rule names it (R121, R124, R129, R130, R165, R179). -/
theorem effect_writesAllowed {cw : CommandWord} {i : Instr} (hi : decode cw = .ok i) (h : effect i s t) :
    WritesAllowed (.command cw) s t := by
  have hx : (Input.command cw).isCommand i := ⟨cw, rfl, hi⟩
  cases i with
  | icInit | adcRdstat => cases h; exact .of_frame rfl rfl rfl
  | icEnable _ _ | icDisable _ _ | icAck _ _ => obtain ⟨grp, -, -, rfl⟩ := h; exact .of_frame rfl rfl rfl
  | icVector _ | icRdpend _ | icRdmask _ => obtain ⟨grp, -, rfl⟩ := h; exact .of_frame rfl rfl rfl
  | adcInit => obtain ⟨-, -, rfl⟩ := h; exact ⟨.init _ hx, .init hx⟩
  | adcConfigure _ _ | adcStartSw _ _ => obtain ⟨-, -, -, rfl⟩ := h; exact .of_frame rfl rfl rfl
  | adcStartHw table dest => exact loopEffect_writesAllowed h (.inl ⟨table, dest, hx⟩)
  | adcStart top index => obtain ⟨topo, -, h⟩ := h; exact loopEffect_writesAllowed h (.inr ⟨top, index, hx⟩)
  | adcStop => obtain ⟨-, -, rfl⟩ := h; exact stopFirst_writesAllowed _
  | adcPowerOff => obtain ⟨-, -, -, rfl⟩ := h; exact stopFirst_writesAllowed _
  | adcEocIe en => cases h; exact ⟨.unchanged, .enable en hx⟩
  | adcEocAck => cases h; exact ⟨.unchanged, .acknowledge hx⟩
  | adcSelectTable _ _ _ => obtain ⟨topo, -, -, rfl⟩ := h; exact .of_frame rfl rfl rfl
  | adcRdres _ => obtain ⟨w, -, rfl⟩ := h; exact .of_frame rfl rfl rfl
  | calRails | calPins | calMeasureOffset | calSelftest =>
    obtain ⟨-, -, -, rfl⟩ := h; exact issueTasks_writesAllowed _ _
  | calValidateOffset => obtain ⟨-, -, rfl⟩ := h; exact ⟨.offset _ (.inl hx), .unchanged⟩
  | getSupplyV | getMotorV | getPhaseV => obtain ⟨raw, -, -, rfl⟩ := h; exact .of_frame rfl rfl rfl
  | getChipTemp first => obtain ⟨raw, -, -, rfl⟩ := h; exact ⟨.temperature first _ hx, .unchanged⟩
  | getCurRaw _ => obtain ⟨topo, rawA, rawB, -, -, -, rfl⟩ := h; exact .of_frame rfl rfl rfl
  | getCurScaled _ => obtain ⟨topo, rawA, rawB, -, -, -, -, rfl⟩ := h; exact .of_frame rfl rfl rfl

/-! ### The later steps of an operation -/

/-- The rail verdict leaves the calibration state, or sets the fault flag and logs one code (R162). -/
theorem recordRails_calWrite (v0 v1 : Word) (hdue : dueTask s .railsVerdict) :
    CalWrite .proceed (dueTask s) s.cal (s.recordRails v0 v1).cal := by
  unfold State.recordRails
  split
  · exact .unchanged
  · exact .railsFault _ ⟨rfl, hdue⟩

/-- The pin verdict leaves the calibration state, or logs one code (R163). -/
theorem recordPin_calWrite {p : Nat} (vh vl : Word) (hdue : dueTask s (.pinVerdict p)) :
    CalWrite .proceed (dueTask s) s.cal (s.recordPin p vh vl).cal := by
  unfold State.recordPin
  split
  · exact .unchanged
  · exact .pinFault p _ ⟨rfl, hdue⟩

/-- A task that is due writes these items only where its rule names it (R162 to R165). -/
theorem runTask_writesAllowed {k : Task} (o : Operation) (hdue : dueTask s k) :
    WritesAllowed .proceed s (runTask k o s) := by
  cases k with
  | refOff | measure _ => exact .of_frame rfl rfl rfl
  | railsVerdict => exact .of_nextTask _ ⟨recordRails_calWrite _ _ hdue, by simpa using .unchanged⟩
  | pinVerdict p => exact .of_nextTask _ ⟨recordPin_calWrite _ _ hdue, by simpa using .unchanged⟩
  | pin _ | drivePin _ _ | forceDriver | restoreDriver _ => exact .of_nextTask _ (.of_frame rfl rfl rfl)
  | averageOffset => exact .of_nextTask _ ⟨.average _ ⟨rfl, hdue⟩, .unchanged⟩
  | validateOffset => exact .of_nextTask _ ⟨.offset _ (.inr ⟨rfl, hdue⟩), .unchanged⟩

/-- The end of a software pass writes neither item (R123, R161). -/
theorem passDone_writesAllowed {o : Operation} (h : passDone o s = .next t) : WritesAllowed x s t := by
  unfold passDone at h
  split at h
  · cases h
    exact .of_frame rfl rfl rfl
  · obtain ⟨v, -, h⟩ := withRes_next.mp h
    cases h
    exact .of_frame rfl rfl rfl

/-- The next step of the operation in progress writes these items only where its rule names it. -/
theorem runPhase_writesAllowed {o : Operation} (ho : s.port.op = some o) (h : runPhase o s = .next t) :
    WritesAllowed .proceed s t := by
  cases hp : o.phase <;> simp only [runPhase, hp] at h
  case swSettle | swTrigger | hwSettle | drainTrigger | stopCtrl => cases h; exact .of_frame rfl rfl rfl
  case swWait | drainWait => cases h; split <;> exact .of_frame rfl rfl rfl
  case swFinish => exact passDone_writesAllowed h
  case hwArm => cases h; exact ⟨.unchanged, .loop (.inr (.inr ⟨rfl, o, ho, hp⟩))⟩
  case stopEoc => cases h; exact ⟨.unchanged, .stop ⟨rfl, o, ho, hp⟩⟩
  case stopIdle => cases h; exact .of_nextTask o (.of_frame rfl rfl rfl)
  case task =>
    split at h
    · cases h
      exact .of_frame rfl rfl rfl
    · rename_i k rest htodo
      cases h
      exact runTask_writesAllowed _ ⟨o, rest, ho, hp, htodo⟩

/-! ### Every step -/

/-- A complete step leaves the calibration state and the enable alone; it may make the completion pending (R135, R137). -/
theorem engineComplete_writesAllowed {draw : Word} (h : engineComplete draw s = .next t) :
    WritesAllowed (.engineComplete draw) s t := by
  obtain ⟨-, -, hcal, -, -⟩ := engineComplete_frame h
  rcases engineComplete_next h with ⟨-, rfl⟩ | ⟨s1, e, -, -, -, rfl⟩
  · exact .of_frame rfl rfl rfl
  · refine ⟨hcal ▸ .unchanged, ?_⟩
    simp only [Sequencer.completed_eq]
    exact .complete draw (entryEnd e) rfl

/-- An input changes these items only as it is allowed to. -/
theorem runInput_writesAllowed (h : runInput x s = .next t) : WritesAllowed x s t := by
  rcases runInput_next h with ⟨cw, rfl, ⟨code, rfl⟩ | ⟨i, hi, h⟩⟩ | ⟨rfl, -, rfl⟩ | ⟨o, rfl, ho, h⟩ | ⟨g, b, rfl, rfl⟩ |
    ⟨event, -, h⟩ | ⟨draw, rfl, h⟩
  · exact .of_frame rfl rfl rfl
  · exact effect_writesAllowed hi h
  · exact .of_frame rfl rfl rfl
  · exact runPhase_writesAllowed ho h
  · unfold sourceEvent
    split <;> exact .of_frame rfl rfl rfl
  · rcases engineBegin_next h with rfl | ⟨e, -, -, -, -, rfl⟩ <;> exact .of_frame rfl rfl rfl
  · exact engineComplete_writesAllowed h

theorem dueTask_dropInput (s : State) : dueTask s.dropInput = dueTask s := by
  funext k
  simp only [dueTask, State.dropInput_op]

theorem duePhase_dropInput (s : State) : duePhase s.dropInput = duePhase s := by
  funext p
  simp only [duePhase, State.dropInput_op]

/-- A step changes these items only as the input it takes is allowed to. -/
theorem step_writesAllowed (h : step s = .next t) : WritesAllowed s.nextInput s t := by
  have := runInput_writesAllowed h
  rwa [WritesAllowed, dueTask_dropInput, duePhase_dropInput, State.dropInput_cal, State.dropInput_adc] at this

end

/-! ### What the allowed changes say of each item -/

section

variable {x : Input} {tasksDue : Task → Prop} {phasesDue : Phase → Prop} {k k' : Calibration} {q : Sequencer}
  {pend ie : Bool}

theorem CalWrite.elecFault_cleared (h : CalWrite x tasksDue k k') (hs : k.elecFault = true) (ht : k'.elecFault = false) :
    x.isCommand .adcInit := by
  cases h with
  | init _ hx => exact hx
  | unchanged | temperature _ _ _ | offset _ _ | average _ _ | pinFault _ _ _ => exact absurd (ht.symm.trans hs) Bool.false_ne_true
  | railsFault _ _ => exact absurd ht.symm Bool.false_ne_true

theorem CalWrite.diagLog_shortened (h : CalWrite x tasksDue k k') (ht : ¬ k.diagLog <+: k'.diagLog) :
    x.isCommand .adcInit := by
  cases h with
  | init _ hx => exact hx
  | unchanged | temperature _ _ _ | offset _ _ | average _ _ => exact absurd (List.prefix_refl _) ht
  | railsFault _ _ | pinFault _ _ _ => exact absurd (List.prefix_append _ _) ht

theorem CalWrite.lastTemp_changed (h : CalWrite x tasksDue k k') (ht : k'.lastTemp ≠ k.lastTemp) :
    x.isCommand .adcInit ∨ ∃ first, x.isCommand (.getChipTemp first) := by
  cases h with
  | init _ hx => exact .inl hx
  | temperature first _ hx => exact .inr ⟨first, hx⟩
  | unchanged | offset _ _ | average _ _ | railsFault _ _ | pinFault _ _ _ => exact absurd rfl ht

theorem CalWrite.zeroOff_changed (h : CalWrite x tasksDue k k') (ht : k'.zeroOff ≠ k.zeroOff) :
    x.isCommand .adcInit ∨ x.isCommand .calValidateOffset ∨ (x = .proceed ∧ tasksDue .validateOffset) := by
  cases h with
  | init _ hx => exact .inl hx
  | offset _ hx => exact .inr hx
  | unchanged | temperature _ _ _ | average _ _ | railsFault _ _ | pinFault _ _ _ => exact absurd rfl ht

theorem CalWrite.measOff_changed (h : CalWrite x tasksDue k k') (ht : k'.measOff ≠ k.measOff) :
    x.isCommand .adcInit ∨ (x = .proceed ∧ tasksDue .averageOffset) := by
  cases h with
  | init _ hx => exact .inl hx
  | average _ hx => exact .inr hx
  | unchanged | temperature _ _ _ | offset _ _ | railsFault _ _ | pinFault _ _ _ => exact absurd rfl ht

theorem EocWrite.pend_set (h : EocWrite x phasesDue q pend ie) (hs : q.eocPend = false) (ht : pend = true) :
    ∃ draw, x = .engineComplete draw := by
  cases h with
  | complete draw _ hx => exact ⟨draw, hx⟩
  | unchanged | enable _ _ | loop _ | stop _ => exact absurd (hs.symm.trans ht) Bool.false_ne_true
  | init _ | acknowledge _ => exact absurd ht Bool.false_ne_true

theorem EocWrite.pend_cleared (h : EocWrite x phasesDue q pend ie) (hs : q.eocPend = true) (ht : pend = false) :
    x.isCommand .adcEocAck ∨ x.isCommand .adcInit := by
  cases h with
  | init hx => exact .inr hx
  | acknowledge hx => exact .inl hx
  | unchanged | enable _ _ | loop _ | stop _ => exact absurd (ht.symm.trans hs) Bool.false_ne_true
  | complete _ last _ => simp [hs] at ht

theorem EocWrite.ie_set (h : EocWrite x phasesDue q pend ie) (hs : q.eocIe = false) (ht : ie = true) :
    x.isCommand (.adcEocIe true) ∨ (∃ table dest, x.isCommand (.adcStartHw table dest)) ∨
      (∃ top index, x.isCommand (.adcStart top index)) ∨ (x = .proceed ∧ phasesDue .hwArm) := by
  cases h with
  | enable _ hx => exact .inl (ht ▸ hx)
  | loop hx => exact .inr hx
  | unchanged | acknowledge _ | complete _ _ _ => exact absurd (hs.symm.trans ht) Bool.false_ne_true
  | init _ | stop _ => exact absurd ht Bool.false_ne_true

theorem EocWrite.ie_cleared (h : EocWrite x phasesDue q pend ie) (hs : q.eocIe = true) (ht : ie = false) :
    x.isCommand (.adcEocIe false) ∨ x.isCommand .adcInit ∨ (x = .proceed ∧ phasesDue .stopEoc) := by
  cases h with
  | init hx => exact .inr (.inl hx)
  | enable _ hx => exact .inl (ht ▸ hx)
  | stop hx => exact .inr (.inr hx)
  | unchanged | acknowledge _ | complete _ _ _ => exact absurd (ht.symm.trans hs) Bool.false_ne_true
  | loop _ => exact absurd ht.symm Bool.false_ne_true

end

end Sys2Proof.Machine

open Sys2Proof Sys2Proof.Machine

/-- Settles O43: each change of the calibration state is one that the input taken is allowed to make. -/
theorem calibrationStateHasItsWriters : Obligations.CalibrationStateHasItsWriters := by
  unfold Obligations.CalibrationStateHasItsWriters
  intro s t h
  obtain ⟨hcal, -⟩ := step_writesAllowed h
  exact ⟨hcal.elecFault_cleared, hcal.diagLog_shortened, hcal.lastTemp_changed, hcal.zeroOff_changed,
    hcal.measOff_changed⟩

/-- Settles O44: each move of the completion flag and of its enable is one that the input taken is allowed to make. -/
theorem completionFlagHasItsWriters : Obligations.CompletionFlagHasItsWriters := by
  unfold Obligations.CompletionFlagHasItsWriters
  intro s t h
  obtain ⟨-, heoc⟩ := step_writesAllowed h
  exact ⟨heoc.pend_set, heoc.pend_cleared, heoc.ie_set, heoc.ie_cleared⟩

end

section
/-! The reset state (R40, R220). -/

namespace Sys2Proof

/-- The configuration of the reset state is inside the ranges of R5. -/
theorem Config.default_wf : Config.default.wf = true := by decide

/-- The reset state is idle with no operation in progress, so the invariant asks for no table. -/
theorem Machine.State.reset_inv : Machine.State.reset.Inv where
  cfg := Config.default_wf
  res := rfl
  unimplemented g := by simp [Machine.State.reset]
  ctrlReserved := rfl
  idleQuiet _ := ⟨rfl, rfl, rfl⟩
  busy := rfl
  op := .inl ⟨rfl, rfl, rfl, rfl⟩
  table h := absurd rfl h

theorem Machine.State.reset_afterReset : Machine.State.reset.AfterReset :=
  ⟨rfl, rfl, rfl, rfl, rfl, rfl, rfl, rfl, rfl, rfl, rfl⟩

end Sys2Proof

open Sys2Proof Sys2Proof.Machine

/-- Settles O56: the invariant and the values of R40, each read off the reset state. -/
theorem resetMeetsTheInvariant : Obligations.ResetMeetsTheInvariant :=
  ⟨State.reset_inv, State.reset_afterReset⟩
end

section
/-! No step faults (R53, R139): every access of the engine, the self-test and the conversions stays inside SEQ and RES. -/

namespace Sys2Proof.Machine

section

variable {s : State} {f : Fault}

/-! ### The first step of an operation -/

/-- A legal configuration places the whole Results Record inside RES (R5, R28). -/
theorem withField_ne_fault (hc : s.cfg.wf = true) {offset : Nat} (ho : offset < 8) {k : Word → Result}
    (hk : ∀ w, k w ≠ .fault f) : withField s offset k ≠ .fault f := by
  intro h
  rcases withRes_fault.mp h with ⟨hnone, -⟩ | ⟨w, -, hw⟩
  · have houtside := readRes_none.mp hnone
    obtain ⟨-, -, hrecord, -⟩ := Config.wf_sizes hc
    omega
  · exact hk w hw

theorem respondSigned_ne_fault (v : Int) : respondSigned s v ≠ .fault f := by
  simp [respondSigned]

theorem coilAField_lt (c : Config) : coilAField c < 8 := by
  unfold coilAField; split <;> decide

theorem coilBField_lt (c : Config) : coilBField c < 8 := by
  unfold coilBField; split <;> decide

theorem withCurrentSum_ne_fault (hc : s.cfg.wf = true) (top : BitVec 4) {k : Word → Result}
    (hk : ∀ w, k w ≠ .fault f) : withCurrentSum top s k ≠ .fault f := by
  intro h
  obtain ⟨topo, -, h⟩ := withTopology_fault.mp h
  exact withField_ne_fault hc (coilAField_lt _)
    (fun _ => withField_ne_fault hc (coilBField_lt _) fun _ => hk _) h

theorem startLoop_ne_fault (table dest : Word) : startLoop table dest s ≠ .fault f := by
  intro h
  obtain ⟨-, -, h⟩ := requireIdle_fault.mp h
  obtain ⟨-, h⟩ := require_fault.mp h
  dsimp only at h
  split at h <;> cases h

/-- An operation's first step reads RES in the Results Record only; `ADC_RDRES` is refused outside RES (R132). -/
theorem exec_ne_fault (hc : s.cfg.wf = true) (i : Instr) : exec i s ≠ .fault f := by
  cases i with
  | icInit | adcEocIe _ | adcEocAck | adcRdstat => exact nofun
  | icEnable _ _ | icDisable _ _ | icAck _ _ =>
    simp [exec, execIcEnable, execIcDisable, execIcAck, withSource_fault]
  | icVector _ | icRdpend _ | icRdmask _ => simp [exec, execIcVector, execIcRdpend, execIcRdmask, withGroup_fault]
  | adcInit | adcConfigure _ _ | adcStartSw _ _ =>
    simp [exec, execAdcInit, execAdcConfigure, execAdcStartSw, requireIdle_fault]
  | adcStartHw table dest => exact startLoop_ne_fault table dest
  | adcStart _ _ => simp [exec, execAdcStart, withTopology_fault, startLoop_ne_fault]
  | adcStop | adcPowerOff => simp [exec, execAdcStop, execAdcPowerOff, requireStoppable_fault]
  | adcSelectTable _ _ _ => simp [exec, execAdcSelectTable, withTopology_fault, requireSelectable_fault]
  | adcRdres address =>
    simp only [exec, execAdcRdres]
    split <;> exact nofun
  | calRails | calPins | calMeasureOffset | calValidateOffset | calSelftest =>
    simp [exec, execCalRails, execCalPins, execCalMeasureOffset, execCalValidateOffset, execCalSelftest,
      requireIdle_fault]
  | getSupplyV | getMotorV | getPhaseV | getChipTemp _ =>
    exact withField_ne_fault hc (by decide) fun _ => respondSigned_ne_fault _
  | getCurRaw top =>
    simp only [exec, execGetCurRaw]
    exact withCurrentSum_ne_fault hc top fun _ => nofun
  | getCurScaled top =>
    simp only [exec, execGetCurScaled]
    exact withCurrentSum_ne_fault hc top fun _ => by simp

theorem answerRefused_ne_fault (r : Refusal) : answerRefused r s ≠ .fault f := by
  unfold answerRefused
  split <;> exact nofun

theorem runCommand_ne_fault (hc : s.cfg.wf = true) (cw : CommandWord) : runCommand cw s ≠ .fault f := by
  intro h
  unfold runCommand at h
  split at h
  · exact answerRefused_ne_fault _ h
  · split at h
    · cases h
    · rename_i hexec
      exact exec_ne_fault hc _ hexec
    · exact answerRefused_ne_fault _ h

/-! ### The later steps of an operation -/

/-- `measure` hands on the word at the scratch base, which a legal configuration places inside RES (R161). -/
theorem passDone_ne_fault (hc : s.cfg.wf = true) (o : Operation) : passDone o s ≠ .fault f := by
  intro h
  unfold passDone at h
  split at h
  · cases h
  · rcases withRes_fault.mp h with ⟨hnone, -⟩ | ⟨v, -, hv⟩
    · have houtside := readRes_none.mp hnone
      obtain ⟨-, -, -, hscratch, -⟩ := Config.wf_sizes hc
      omega
    · cases hv

theorem runPhase_ne_fault (hc : s.cfg.wf = true) (o : Operation) : runPhase o s ≠ .fault f := by
  cases hp : o.phase <;> simp only [runPhase, hp]
  case swFinish => exact passDone_ne_fault hc o
  case task => split <;> exact nofun
  all_goals exact nofun

theorem proceed_ne_fault (hc : s.cfg.wf = true) : proceed s ≠ .fault f := by
  unfold proceed
  split
  · exact nofun
  · exact runPhase_ne_fault hc _

/-! ### The engine -/

/-- The pointer of a running sequencer is inside its table or on the marker, so its fetch is inside SEQ (R134). -/
theorem engineBegin_ne_fault (hinv : s.Inv) (event : Option (BitVec 4)) : engineBegin event s ≠ .fault f := by
  intro h
  unfold engineBegin at h
  split at h
  · rename_i hbegin
    simp only [Sequencer.mayBegin, Bool.and_eq_true, bne_iff_ne] at hbegin
    obtain ⟨⟨hrun, -⟩, -⟩ := hbegin
    obtain ⟨es, hes, -, hidx, -, -⟩ := hinv.table hrun
    rw [entry_inside hinv.cfg hes hidx] at h
    dsimp only at h
    split at h <;> cases h
  · cases h

/-- While a conversion is in flight the pointer is on an entry of the active table, whose results lie in RES: the
sequencer is running, since an idle one has nothing in flight (R24, R120, R139). -/
theorem State.Inv.inflight_table (hinv : s.Inv) (hfl : s.adc.inflight = true) :
    ∃ es, tableEntries s.cfg s.adc.sbase.toNat = some es ∧ s.adc.idx.toNat < es.length ∧
      s.adc.dbase.toNat + es.length - 1 < s.cfg.resWords := by
  have hrun : s.adc.state ≠ .idle := by
    intro hidle
    obtain ⟨hquiet, -⟩ := hinv.idleQuiet hidle
    exact Bool.false_ne_true (hquiet.symm.trans hfl)
  obtain ⟨es, hes, -, -, hidx, hdest⟩ := hinv.table hrun
  exact ⟨es, hes, hidx (.inl hfl), hdest⟩

/-- The result of the conversion in flight has a place in RES (R53, R135). -/
theorem storeSample_ne_none (hinv : s.Inv) (hfl : s.adc.inflight = true) (w : Word) : s.storeSample w ≠ none := by
  obtain ⟨es, -, hidx, hdest⟩ := hinv.inflight_table hfl
  obtain ⟨-, hres, -⟩ := Config.wf_sizes hinv.cfg
  have haddr : (s.adc.dbase + s.adc.idx).toNat < s.cfg.resWords := by
    rw [BitVec.toNat_add, Nat.mod_eq_of_lt (by omega)]
    omega
  unfold State.storeSample
  split
  · exact Option.some_ne_none _
  · rw [State.writeRes, if_pos haddr]
    exact Option.some_ne_none _

/-- The look-ahead of a complete step is inside the active table or on its marker (R135). -/
theorem nextEntry_ne_none (hinv : s.Inv) (hfl : s.adc.inflight = true) : s.entry (s.adc.idx + 1) ≠ none := by
  obtain ⟨es, hes, hidx, -⟩ := hinv.inflight_table hfl
  obtain ⟨hinside, -, -⟩ := tableEntries_some hes
  obtain ⟨hseq, -⟩ := Config.wf_sizes hinv.cfg
  have hnext : (s.adc.idx + 1).toNat ≤ es.length := by bv_omega
  rw [entry_inside hinv.cfg hes hnext]
  exact Option.some_ne_none _

theorem engineComplete_ne_fault (hinv : s.Inv) (draw : Word) : engineComplete draw s ≠ .fault f := by
  intro h
  unfold engineComplete at h
  split at h
  · rename_i hfl
    split at h
    · rename_i hstore
      exact storeSample_ne_none hinv hfl _ hstore
    · split at h
      · rename_i hentry
        exact nextEntry_ne_none hinv hfl hentry
      · cases h
  · cases h

/-! ### Every step -/

theorem runInput_ne_fault (hinv : s.Inv) (x : Input) : runInput x s ≠ .fault f := by
  cases x with
  | command cw => exact runCommand_ne_fault hinv.cfg cw
  | proceed => exact proceed_ne_fault hinv.cfg
  | source g b => exact nofun
  | hwEvent n => exact engineBegin_ne_fault hinv _
  | engineBegin => exact engineBegin_ne_fault hinv _
  | engineComplete draw => exact engineComplete_ne_fault hinv draw

/-- The invariant says nothing of the inputs still to come, so taking one keeps it (log 1). -/
theorem State.Inv.dropInput (hinv : s.Inv) : s.dropInput.Inv := by
  obtain ⟨hcfg, hres, hunimpl, hctrl, hidle, hbusy, hop, htable⟩ := hinv
  unfold State.dropInput
  split <;> exact ⟨hcfg, hres, hunimpl, hctrl, hidle, hbusy, hop, htable⟩

end

end Sys2Proof.Machine

open Sys2Proof Sys2Proof.Machine

/-- Settles O59: the invariant keeps the active table inside SEQ and its results inside RES, and a legal configuration the
record and the scratch word. -/
theorem noStepFaults : Obligations.NoStepFaults := by
  unfold Obligations.NoStepFaults
  intro s f hinv
  exact runInput_ne_fault hinv.dropInput s.nextInput

end

section
/-! Who writes the memories (R18, R35, R51, R52): no step writes the configuration or the stored offset, and only the complete
step writes RES. -/

namespace Sys2Proof.Machine

/-- `t` has the configuration, RES and the stored offset of `s`. -/
structure MemoryKept (s t : State) : Prop where
  cfg : t.cfg = s.cfg
  res : t.res = s.res
  storedValid : t.cal.storedValid = s.cal.storedValid
  storedOff : t.cal.storedOff = s.cal.storedOff

section

variable {x : Input} {s t : State}

theorem MemoryKept.of_cal (hcfg : t.cfg = s.cfg) (hres : t.res = s.res) (hcal : t.cal = s.cal) : MemoryKept s t :=
  ⟨hcfg, hres, by rw [hcal], by rw [hcal]⟩

theorem MemoryKept.of_nextTask (o : Operation) (h : MemoryKept s t) : MemoryKept s (t.nextTask o) := by
  obtain ⟨hcfg, hres, hvalid, hoff⟩ := h
  exact ⟨by simpa using hcfg, by simpa using hres, by simpa using hvalid, by simpa using hoff⟩

theorem MemoryKept.readRes (h : MemoryKept s t) (a : Nat) : t.readRes a = s.readRes a :=
  readRes_congr h.cfg h.res a

theorem dropInput_memoryKept (s : State) : MemoryKept s s.dropInput := .of_cal (by simp) (by simp) (by simp)

theorem loopEffect_memoryKept {table dest : Word} (h : loopEffect table dest s t) : MemoryKept s t := by
  obtain ⟨-, -, -, rfl⟩ := h
  split <;> exact .of_cal rfl rfl rfl

theorem stopFirst_memoryKept (todo : List Task) : MemoryKept s (stopFirst todo s) := by
  obtain ⟨hcfg, -, hres, hcal, -⟩ := stopFirst_frame todo s
  exact .of_cal hcfg hres hcal

theorem issueTasks_memoryKept (todo : List Task) (a : Answer) : MemoryKept s (s.issueTasks todo a) :=
  .of_cal (by simp) (by simp) (by simp)

/-- The first step of an operation stores no sample; the calibration values it may write are not the stored ones. -/
theorem effect_memoryKept {i : Instr} (h : effect i s t) : MemoryKept s t := by
  cases i with
  | icInit | adcEocIe _ | adcEocAck | adcRdstat => cases h; exact .of_cal rfl rfl rfl
  | icEnable _ _ | icDisable _ _ | icAck _ _ => obtain ⟨grp, -, -, rfl⟩ := h; exact .of_cal rfl rfl rfl
  | icVector _ | icRdpend _ | icRdmask _ => obtain ⟨grp, -, rfl⟩ := h; exact .of_cal rfl rfl rfl
  | adcInit | calValidateOffset => obtain ⟨-, -, rfl⟩ := h; exact ⟨rfl, rfl, rfl, rfl⟩
  | adcConfigure _ _ | adcStartSw _ _ => obtain ⟨-, -, -, rfl⟩ := h; exact .of_cal rfl rfl rfl
  | adcStartHw _ _ => exact loopEffect_memoryKept h
  | adcStart _ _ => obtain ⟨topo, -, h⟩ := h; exact loopEffect_memoryKept h
  | adcStop => obtain ⟨-, -, rfl⟩ := h; exact stopFirst_memoryKept _
  | adcPowerOff => obtain ⟨-, -, -, rfl⟩ := h; exact stopFirst_memoryKept _
  | adcSelectTable _ _ _ => obtain ⟨topo, -, -, rfl⟩ := h; exact .of_cal rfl rfl rfl
  | adcRdres _ => obtain ⟨w, -, rfl⟩ := h; exact .of_cal rfl rfl rfl
  | calRails | calPins | calMeasureOffset | calSelftest => obtain ⟨-, -, -, rfl⟩ := h; exact issueTasks_memoryKept _ _
  | getSupplyV | getMotorV | getPhaseV | getChipTemp _ => obtain ⟨raw, -, -, rfl⟩ := h; exact ⟨rfl, rfl, rfl, rfl⟩
  | getCurRaw _ => obtain ⟨topo, rawA, rawB, -, -, -, rfl⟩ := h; exact .of_cal rfl rfl rfl
  | getCurScaled _ => obtain ⟨topo, rawA, rawB, -, -, -, -, rfl⟩ := h; exact .of_cal rfl rfl rfl

theorem recordRails_memoryKept (v0 v1 : Word) : MemoryKept s (s.recordRails v0 v1) := by
  unfold State.recordRails
  split <;> exact ⟨rfl, rfl, rfl, rfl⟩

theorem recordPin_memoryKept (p : Nat) (vh vl : Word) : MemoryKept s (s.recordPin p vh vl) := by
  unfold State.recordPin
  split <;> exact ⟨rfl, rfl, rfl, rfl⟩

theorem runTask_memoryKept (k : Task) (o : Operation) : MemoryKept s (runTask k o s) := by
  cases k with
  | refOff | measure _ => exact .of_cal rfl rfl rfl
  | railsVerdict => exact (recordRails_memoryKept _ _).of_nextTask _
  | pinVerdict p => exact (recordPin_memoryKept p _ _).of_nextTask _
  | pin _ | drivePin _ _ | forceDriver | restoreDriver _ =>
    simp only [runTask]
    exact .of_nextTask _ (.of_cal rfl rfl rfl)
  | averageOffset | validateOffset => exact .of_nextTask _ ⟨rfl, rfl, rfl, rfl⟩

theorem passDone_memoryKept {o : Operation} (h : passDone o s = .next t) : MemoryKept s t := by
  unfold passDone at h
  split at h
  · cases h
    exact .of_cal rfl rfl rfl
  · obtain ⟨v, -, h⟩ := withRes_next.mp h
    cases h
    exact .of_cal rfl rfl rfl

theorem runPhase_memoryKept {o : Operation} (h : runPhase o s = .next t) : MemoryKept s t := by
  cases hp : o.phase <;> simp only [runPhase, hp] at h
  case swSettle | swTrigger | hwSettle | hwArm | drainTrigger | stopCtrl | stopEoc => cases h; exact .of_cal rfl rfl rfl
  case swWait | drainWait => cases h; split <;> exact .of_cal rfl rfl rfl
  case swFinish => exact passDone_memoryKept h
  case stopIdle => cases h; exact .of_nextTask o (.of_cal rfl rfl rfl)
  case task =>
    split at h
    · cases h
      exact .of_cal rfl rfl rfl
    · cases h
      exact runTask_memoryKept _ _

/-- An input is a complete step, or it writes none of the memories (R52). -/
theorem runInput_memoryKept (h : runInput x s = .next t) :
    MemoryKept s t ∨ ∃ draw, x = .engineComplete draw ∧ engineComplete draw s = .next t := by
  rcases runInput_next h with ⟨cw, -, ⟨code, rfl⟩ | ⟨i, -, h⟩⟩ | ⟨-, -, rfl⟩ | ⟨o, -, -, h⟩ | ⟨g, b, -, rfl⟩ |
    ⟨event, -, h⟩ | ⟨draw, hx, h⟩
  · exact .inl (.of_cal rfl rfl rfl)
  · exact .inl (effect_memoryKept h)
  · exact .inl (.of_cal rfl rfl rfl)
  · exact .inl (runPhase_memoryKept h)
  · unfold sourceEvent
    split <;> exact .inl (.of_cal rfl rfl rfl)
  · rcases engineBegin_next h with rfl | ⟨e, -, -, -, -, rfl⟩ <;> exact .inl (.of_cal rfl rfl rfl)
  · exact .inr ⟨draw, hx, h⟩

theorem step_memoryKept (h : step s = .next t) :
    MemoryKept s t ∨ ∃ draw, s.nextInput = .engineComplete draw ∧ engineComplete draw s.dropInput = .next t := by
  refine (runInput_memoryKept h).imp_left fun hkept => ?_
  obtain ⟨hcfg, hres, hvalid, hoff⟩ := dropInput_memoryKept s
  exact ⟨hkept.cfg.trans hcfg, hkept.res.trans hres, hkept.storedValid.trans hvalid, hkept.storedOff.trans hoff⟩

/-- A complete step writes no RES word but the one at destination plus pointer (R135). -/
theorem engineComplete_readRes {draw : Word} (hwf : s.resWf = true) (h : engineComplete draw s = .next t) {a : Nat}
    (ha : a ≠ (s.adc.dbase + s.adc.idx).toNat) : t.readRes a = s.readRes a := by
  rcases engineComplete_next h with ⟨-, rfl⟩ | ⟨s1, e, -, hstore, -, rfl⟩
  · rfl
  · rcases storeSample_some.mp hstore with ⟨-, rfl⟩ | ⟨-, hwrite⟩
    · rfl
    · exact (readRes_writeRes hwf hwrite).trans (if_neg ha)

theorem resWf_dropInput (s : State) : s.dropInput.resWf = s.resWf := by
  simp only [State.resWf, State.dropInput_res, State.dropInput_cfg]

end

end Sys2Proof.Machine

open Sys2Proof Sys2Proof.Machine

/-- Settles O40: a step keeps RES whole, or it is a complete step, which stores at destination plus pointer. -/
theorem resIsWrittenByCompletionsOnly : Obligations.ResIsWrittenByCompletionsOnly := by
  unfold Obligations.ResIsWrittenByCompletionsOnly
  intro s t hwf h
  rcases step_memoryKept h with hkept | ⟨draw, hx, hcomplete⟩
  · exact ⟨fun _ => hkept.res, fun a _ => hkept.readRes a⟩
  · refine ⟨fun hno => absurd hx (hno draw), fun a ha => ?_⟩
    calc t.readRes a
      _ = s.dropInput.readRes a :=
        engineComplete_readRes ((resWf_dropInput s).trans hwf) hcomplete (by rwa [State.dropInput_adc])
      _ = s.readRes a := (dropInput_memoryKept s).readRes a

/-- Settles O41: a complete step leaves the configuration and the whole calibration state, any other step the three items. -/
theorem configurationAndStoredOffsetAreConstant : Obligations.ConfigurationAndStoredOffsetAreConstant := by
  unfold Obligations.ConfigurationAndStoredOffsetAreConstant
  intro s t h
  rcases step_memoryKept h with ⟨hcfg, -, hvalid, hoff⟩ | ⟨draw, -, hcomplete⟩
  · exact ⟨hcfg, hvalid, hoff⟩
  · obtain ⟨hcfg, -, hcal, -⟩ := engineComplete_frame hcomplete
    rw [hcfg, hcal]
    simp

end

section
/-! The reads (R57): the answer is all they change. -/

namespace Sys2Proof.Machine

open Sys2Proof.Claims

/-- A read that is accepted does nothing but answer. -/
theorem effect_of_isRead {i : Instr} {s t : State} (hread : isRead i = true) (h : effect i s t) :
    ∃ v0 v1, t = s.respond v0 v1 := by
  cases i with
  | icVector _ | icRdpend _ | icRdmask _ => obtain ⟨grp, -, rfl⟩ := h; exact ⟨_, _, rfl⟩
  | adcRdstat => exact ⟨_, _, h⟩
  | adcRdres _ => obtain ⟨w, -, rfl⟩ := h; exact ⟨_, _, rfl⟩
  | adcSelectTable _ _ _ => obtain ⟨topo, -, -, rfl⟩ := h; exact ⟨_, _, rfl⟩
  | getSupplyV | getMotorV | getPhaseV => obtain ⟨raw, -, -, rfl⟩ := h; exact ⟨_, _, rfl⟩
  | getCurRaw _ => obtain ⟨topo, rawA, rawB, -, -, -, rfl⟩ := h; exact ⟨_, _, rfl⟩
  | getCurScaled _ => obtain ⟨topo, rawA, rawB, -, -, -, -, rfl⟩ := h; exact ⟨_, _, rfl⟩
  | icInit | icEnable _ _ | icDisable _ _ | icAck _ _ | adcInit | adcConfigure _ _ | adcStartSw _ _ | adcStartHw _ _
  | adcStop | adcPowerOff | adcStart _ _ | adcEocIe _ | adcEocAck | calRails | calPins | calMeasureOffset
  | calValidateOffset | calSelftest | getChipTemp _ => cases hread

/-- `GET_CHIP_TEMP` writes `last_temp` and answers, nothing else (R179). -/
theorem effect_getChipTemp_frame {first : Bool} {s t : State} (h : effect (.getChipTemp first) s t) :
    ∃ v, t = State.respond { s with cal := { s.cal with lastTemp := t.cal.lastTemp } } v 0 := by
  obtain ⟨raw, -, -, rfl⟩ := h
  exact ⟨_, rfl⟩

end Sys2Proof.Machine

open Sys2Proof Sys2Proof.Machine

/-- Settles O42, by the inversion of `exec`: the answer, and for `GET_CHIP_TEMP` also `last_temp`, is all that changes. -/
theorem readsHaveNoSideEffect : Obligations.ReadsHaveNoSideEffect := by
  unfold Obligations.ReadsHaveNoSideEffect
  intro i s t h
  have heffect := exec_next.mp h
  refine ⟨fun hread => effect_of_isRead hread heffect, ?_⟩
  rintro first rfl
  exact effect_getChipTemp_frame heffect

end

section
/-! The decoder against the operation map (R70 to R73): what it answers for the word of an operation, for a word whose `OP` has
a row of the map, and for any other word. -/

namespace Sys2Proof

open Sys2Proof.Claims Sys2Proof.Laws.OpcodeRow

/-! ### The bits a mask keeps -/

theorem CwFields.ofWord_and (cw m : CommandWord) :
    CwFields.ofWord (cw &&& m) = masked (CwFields.ofWord cw) (CwFields.ofWord m) := by
  simp [CwFields.ofWord, masked, BitVec.extractLsb'_and]

theorem CwFields.ofWord_inj {v w : CommandWord} : CwFields.ofWord v = CwFields.ofWord w ↔ v = w := by
  refine ⟨fun h => ?_, congrArg CwFields.ofWord⟩
  rw [← CwFields.toWord_ofWord v, h, CwFields.toWord_ofWord]

/-- The bits a mask keeps are zero in a word exactly when they are zero in its fields (R70). -/
theorem and_eq_zero_iff_masked {cw m : CommandWord} :
    cw &&& m = 0 ↔ masked (CwFields.ofWord cw) (CwFields.ofWord m) = CwFields.ofWord 0 := by
  rw [← CwFields.ofWord_and, CwFields.ofWord_inj]

theorem and_full4 (v : BitVec 4) : v &&& 0xF#4 = v := BitVec.and_allOnes

theorem and_full16 (v : Word) : v &&& 0xFFFF#16 = v := BitVec.and_allOnes

theorem flagReserved_iff {b : BitVec 4} : flagReserved b = true ↔ b &&& 0xE#4 = 0#4 := by
  revert b; decide

@[simp] theorem flagReserved_flagField (v : Bool) : flagReserved (flagField v) = true := by cases v <;> rfl

@[simp] theorem flagOf_flagField (v : Bool) : flagOf (flagField v) = v := by cases v <;> rfl

/-- The field of a flag operand holds nothing but the flag when its upper bits are zero (R71). -/
theorem flagField_flagOf {b : BitVec 4} : b &&& 0xE#4 = 0#4 → flagField (flagOf b) = b := by
  revert b; decide

/-! ### The decoder on fields -/

/-- The fields of an operation decode to it (R72). -/
theorem decodeFields_fields (i : Instr) : decodeFields i.fields = .ok i := by
  cases i with
  | adcSelectTable _ _ _ | adcEocIe _ | getChipTemp _ => simp [decodeFields, Instr.fields, reservedZero]
  | _ => rfl

/-- Under a row whose must-be-zero bits are `m`, the fields `f` are those of an operation when these bits are zero, and are
refused when they are not (R73). -/
def DecodesUnder (m f : CwFields) : Prop :=
  (masked f m = CwFields.ofWord 0 → ∃ i : Instr, decodeFields f = .ok i ∧ i.fields = f) ∧
    (masked f m ≠ CwFields.ofWord 0 → decodeFields f = .error .reservedField)

/-- It is enough that the decoder's reserved-field check tests the bits of the mask. -/
theorem DecodesUnder.of_reservedZero {m f : CwFields} {zero : Bool} {i : Instr} (hdec : decodeFields f = reservedZero zero i)
    (hzero : zero = true ↔ masked f m = CwFields.ofWord 0) (hfields : masked f m = CwFields.ofWord 0 → i.fields = f) :
    DecodesUnder m f := by
  refine ⟨fun h => ⟨i, ?_, hfields h⟩, fun h => ?_⟩
  · rw [hdec, reservedZero, if_pos (hzero.mpr h)]
  · rw [hdec, reservedZero, if_neg (mt hzero.mp h)]

/-- Fields whose `OP` has a row of the operation map are decoded by that row (R72, R73). -/
theorem decodeFields_of_row :
    ∀ row ∈ operationMap, ∀ f : CwFields, f.op = row.1 → DecodesUnder (CwFields.ofWord row.2) f := by
  simp only [operationMap, List.cons_append, List.nil_append, List.forall_mem_cons, List.not_mem_nil, false_implies,
    implies_true, and_true]
  and_intros
  all_goals
    rintro ⟨op, g, b, x, y⟩ rfl
    refine .of_reservedZero rfl ?_ ?_
    · simp [masked, CwFields.ofWord, flagReserved_iff, and_full4, and_full16, and_assoc]
    · simp +contextual [masked, CwFields.ofWord, Instr.fields, flagField_flagOf, and_full4, and_full16]

/-- Fields whose `OP` has no row of the operation map are illegal (R73). -/
theorem decodeFields_of_no_row {f : CwFields} (h : ∀ row ∈ operationMap, f.op ≠ row.1) :
    decodeFields f = .error .illegalOp := by
  have hop : f.op.toNat ∉ operationMap.map (·.1.toNat) := by
    intro hmem
    obtain ⟨row, hrow, heq⟩ := List.mem_map.mp hmem
    exact h row hrow (BitVec.eq_of_toNat_eq heq.symm)
  unfold decodeFields
  split
  case h_31 => rfl
  all_goals
    rename_i hrow
    rw [hrow] at hop
    exact absurd (by decide) hop

/-! ### The decoder on words -/

/-- A word whose `OP` has no row of the operation map is illegal (R73). -/
theorem decode_of_no_row {cw : CommandWord} (h : ∀ row ∈ operationMap, opOf cw ≠ row.1) : decode cw = .error .illegalOp :=
  decodeFields_of_no_row h

section

variable {row : BitVec 8 × CommandWord} {cw : CommandWord}

/-- A word with a legal `OP` and no must-be-zero bit set is the word of an operation (R72). -/
theorem decode_of_reserved_zero (hrow : row ∈ operationMap) (hop : opOf cw = row.1) (hzero : cw &&& row.2 = 0) :
    ∃ i, decode cw = .ok i ∧ encode i = cw := by
  obtain ⟨i, hdec, hfields⟩ := (decodeFields_of_row row hrow (.ofWord cw) hop).1 (and_eq_zero_iff_masked.mp hzero)
  exact ⟨i, hdec, by rw [encode, hfields, CwFields.toWord_ofWord]⟩

/-- A word with a legal `OP` and a must-be-zero bit set is refused for that (R73). -/
theorem decode_of_reserved_ne_zero (hrow : row ∈ operationMap) (hop : opOf cw = row.1) (hne : cw &&& row.2 ≠ 0) :
    decode cw = .error .reservedField :=
  (decodeFields_of_row row hrow (.ofWord cw) hop).2 (mt and_eq_zero_iff_masked.mpr hne)

end

/-- Inversion of the decoder: a word that decodes has a legal `OP` and no must-be-zero bit set. -/
theorem decode_ok {cw : CommandWord} {i : Instr} (h : decode cw = .ok i) :
    ∃ row ∈ operationMap, opOf cw = row.1 ∧ cw &&& row.2 = 0 := by
  by_contra! hno
  by_cases hop : ∀ row ∈ operationMap, opOf cw ≠ row.1
  · rw [decode_of_no_row hop] at h
    cases h
  · push Not at hop
    obtain ⟨row, hrow, hop⟩ := hop
    rw [decode_of_reserved_ne_zero hrow hop (hno row hrow hop)] at h
    cases h

end Sys2Proof

open Sys2Proof Sys2Proof.Machine

/-- Settles O1: the fields of a word built of fields are those fields, and each operation's fields decode to it. -/
theorem decodeOfEncodeIsTheOperation : Obligations.DecodeOfEncodeIsTheOperation := by
  unfold Obligations.DecodeOfEncodeIsTheOperation
  intro i
  rw [encode, decode, CwFields.ofWord_toWord, decodeFields_fields]

/-- Settles O2: a word that decodes has every must-be-zero bit zero, so it is the word of an operation, and of no other. -/
theorem encodeOfDecodeIsTheWord : Obligations.EncodeOfDecodeIsTheWord := by
  unfold Obligations.EncodeOfDecodeIsTheWord
  intro cw i h
  obtain ⟨row, hrow, hop, hzero⟩ := decode_ok h
  obtain ⟨j, hj, hword⟩ := decode_of_reserved_zero hrow hop hzero
  obtain rfl : i = j := Except.ok.inj (h.symm.trans hj)
  exact hword

/-- Settles O4: the decoder computes on words written out. -/
theorem wordsOfTheManualDecode : Obligations.WordsOfTheManualDecode := by
  unfold Obligations.WordsOfTheManualDecode
  exact ⟨rfl, rfl, rfl, rfl, rfl, rfl⟩

end

section
/-! The checks of the operands (R74, R75) and what is left to refuse when they pass (R204). -/

namespace Sys2Proof.Machine

open Sys2Proof.Claims

/-- The refusals of an operation whose operands are in range: for the sequencer's state, a table or the result (R204). -/
def Refusal.pastOperands : Refusal → Bool
  | .badState | .badTable | .resultRange => true
  | _ => false

/-- The outcome is no refusal for an operand. -/
def OperandsAccepted (k : Result) : Prop := ∀ r, k = .refused r → r.pastOperands = true

section

variable {c : Config} {s : State} {g b t : BitVec 4} {e : OperandError} {k : Result}

/-! ### The ranges of R75 -/

theorem srcCountOfField_eq (c : Config) (g : BitVec 4) : c.srcCountOfField g = (groupOfField g).map c.srcCount.get := by
  unfold Config.srcCountOfField groupOfField
  generalize g.toNat = n
  match n with
  | 0 | 1 | 2 | 3 | 4 | _ + 5 => rfl

theorem groupError_some : c.groupError g = some e ↔ groupOfField g = none ∧ e = .groupRange := by
  rw [Config.groupError, srcCountOfField_eq]
  cases groupOfField g <;> simp [eq_comm]

theorem groupError_none : c.groupError g = none ↔ ∃ grp, groupOfField g = some grp := by
  rw [Config.groupError, srcCountOfField_eq]
  cases groupOfField g <;> simp

theorem sourceError_some : c.sourceError g b = some e ↔
    (groupOfField g = none ∧ e = .groupRange) ∨
      ∃ grp, groupOfField g = some grp ∧ c.srcCount.get grp ≤ b.toNat ∧ e = .bitRange := by
  rw [Config.sourceError, srcCountOfField_eq]
  cases groupOfField g <;> simp [eq_comm]

theorem sourceError_none : c.sourceError g b = none ↔
    ∃ grp, groupOfField g = some grp ∧ b.toNat < c.srcCount.get grp := by
  rw [Config.sourceError, srcCountOfField_eq]
  cases groupOfField g <;> simp

theorem topologyError_some : c.topologyError t = some e ↔ topologyOf c t = none ∧ e = .badTopology := by
  simp [Config.topologyError, topologyOf, eq_comm]

theorem topologyError_none : c.topologyError t = none ↔ ∃ topo, topologyOf c t = some topo := by
  simp [Config.topologyError, topologyOf, ← Option.isSome_iff_exists]

/-! ### An operand out of range -/

theorem withGroup_of_error {k : Group → Result} (h : c.groupError g = some e) :
    withGroup g k = .refused (refusalOfOperand e) := by
  obtain ⟨hg, rfl⟩ := groupError_some.mp h
  exact withGroup_refused.mpr (.inl ⟨hg, rfl⟩)

theorem withSource_of_error {k : Group → Result} (h : s.cfg.sourceError g b = some e) :
    withSource g b s k = .refused (refusalOfOperand e) := by
  rcases sourceError_some.mp h with ⟨hg, rfl⟩ | ⟨grp, hg, hb, rfl⟩
  · exact withSource_refused.mpr (.inl ⟨hg, rfl⟩)
  · exact withSource_refused.mpr (.inr ⟨grp, hg, .inl ⟨hb, rfl⟩⟩)

theorem withTopology_of_error {k : Topology → Result} (h : s.cfg.topologyError t = some e) :
    withTopology t s k = .refused (refusalOfOperand e) := by
  obtain ⟨ht, rfl⟩ := topologyError_some.mp h
  exact withTopology_refused.mpr (.inl ⟨ht, rfl⟩)

/-- An operand out of range is what the operation is refused for, before anything else is looked at (R74, R75). -/
theorem exec_of_operandError {i : Instr} (h : i.operandError s.cfg = some e) : exec i s = .refused (refusalOfOperand e) := by
  cases i with
  | icEnable _ _ | icDisable _ _ | icAck _ _ => exact withSource_of_error h
  | icVector _ | icRdpend _ | icRdmask _ => exact withGroup_of_error h
  | adcSelectTable _ _ _ | adcStart _ _ | getCurRaw _ | getCurScaled _ => exact withTopology_of_error h
  | adcRdres a =>
    simp only [Instr.operandError] at h
    split at h
    · cases h
    · rename_i ha
      cases h
      simp only [exec, execAdcRdres, readRes_none.mpr (Nat.le_of_not_lt ha)]
      rfl
  | icInit | adcInit | adcConfigure _ _ | adcStartSw _ _ | adcStartHw _ _ | adcStop | adcPowerOff | adcEocIe _ | adcEocAck
  | adcRdstat | calRails | calPins | calMeasureOffset | calValidateOffset | calSelftest | getSupplyV | getMotorV
  | getPhaseV | getChipTemp _ => cases h

/-! ### Operands in range -/

theorem withGroup_of_some {grp : Group} {k : Group → Result} (hg : groupOfField g = some grp) : withGroup g k = k grp := by
  simp only [withGroup, hg]

theorem withSource_of_some {grp : Group} {k : Group → Result} (hg : groupOfField g = some grp)
    (hb : b.toNat < s.cfg.srcCount.get grp) : withSource g b s k = k grp := by
  simp only [withSource, withGroup_of_some hg, require, hb, decide_true, if_true]

theorem withTopology_of_some {topo : Topology} {k : Topology → Result} (ht : topologyOf s.cfg t = some topo) :
    withTopology t s k = k topo := by
  simp only [withTopology, ht]

theorem OperandsAccepted.next (u : State) : OperandsAccepted (.next u) := nofun

theorem OperandsAccepted.require {cond : Bool} {r : Refusal} (hr : r.pastOperands = true) (hk : OperandsAccepted k) :
    OperandsAccepted (require cond r k) := by
  intro q h
  rcases require_refused.mp h with ⟨-, rfl⟩ | ⟨-, h⟩
  · exact hr
  · exact hk q h

theorem OperandsAccepted.requireIdle (hk : OperandsAccepted k) : OperandsAccepted (requireIdle s k) := .require rfl hk

theorem OperandsAccepted.requireStoppable (hk : OperandsAccepted k) : OperandsAccepted (requireStoppable s k) :=
  .require rfl hk

theorem OperandsAccepted.requireSelectable (hk : OperandsAccepted k) : OperandsAccepted (requireSelectable s k) :=
  .require rfl hk

theorem OperandsAccepted.withRes {a : Nat} {k : Word → Result} (hk : ∀ w, OperandsAccepted (k w)) :
    OperandsAccepted (withRes s a k) := by
  intro q h
  obtain ⟨w, -, h⟩ := withRes_refused.mp h
  exact hk w q h

theorem OperandsAccepted.respondSigned (v : Int) : OperandsAccepted (respondSigned s v) := .require rfl (.next _)

theorem OperandsAccepted.startLoop (table dest : Word) : OperandsAccepted (startLoop table dest s) := by
  refine .requireIdle (.require rfl ?_)
  dsimp only
  split <;> exact .next _

theorem OperandsAccepted.withGroup {k : Group → Result} (h : c.groupError g = none) (hk : ∀ grp, OperandsAccepted (k grp)) :
    OperandsAccepted (withGroup g k) := by
  obtain ⟨grp, hg⟩ := groupError_none.mp h
  rw [withGroup_of_some hg]
  exact hk grp

theorem OperandsAccepted.withSource {k : Group → Result} (h : s.cfg.sourceError g b = none)
    (hk : ∀ grp, OperandsAccepted (k grp)) : OperandsAccepted (withSource g b s k) := by
  obtain ⟨grp, hg, hb⟩ := sourceError_none.mp h
  rw [withSource_of_some hg hb]
  exact hk grp

theorem OperandsAccepted.withTopology {k : Topology → Result} (h : s.cfg.topologyError t = none)
    (hk : ∀ topo, OperandsAccepted (k topo)) : OperandsAccepted (withTopology t s k) := by
  obtain ⟨topo, ht⟩ := topologyError_none.mp h
  rw [withTopology_of_some ht]
  exact hk topo

theorem OperandsAccepted.withCurrentSum {k : Word → Result} (h : s.cfg.topologyError t = none)
    (hk : ∀ w, OperandsAccepted (k w)) : OperandsAccepted (withCurrentSum t s k) :=
  .withTopology h fun _ => .withRes fun _ => .withRes fun _ => hk _

/-- An operation whose operands are in range is refused for the state, a table or the result only (R74, R204). -/
theorem exec_operandsAccepted {i : Instr} (h : i.operandError s.cfg = none) : OperandsAccepted (exec i s) := by
  cases i with
  | icInit | adcEocIe _ | adcEocAck | adcRdstat => exact .next _
  | icEnable _ _ | icDisable _ _ | icAck _ _ => exact .withSource h fun _ => .next _
  | icVector _ | icRdpend _ | icRdmask _ => exact .withGroup h fun _ => .next _
  | adcInit | calValidateOffset => exact .requireIdle (.next _)
  | adcConfigure _ _ | adcStartSw _ _ | calRails | calPins | calMeasureOffset | calSelftest =>
    exact .requireIdle (.require rfl (.next _))
  | adcStartHw table dest => exact .startLoop table dest
  | adcStart _ _ => exact .withTopology h fun _ => .startLoop _ _
  | adcStop => exact .requireStoppable (.next _)
  | adcPowerOff => exact .requireStoppable (.require rfl (.next _))
  | adcSelectTable _ _ _ => exact .withTopology h fun _ => .requireSelectable (.next _)
  | adcRdres a =>
    simp only [Instr.operandError] at h
    split at h
    · rename_i ha
      simp only [exec, execAdcRdres, State.readRes, if_pos ha]
      exact .next _
    · cases h
  | getSupplyV | getMotorV | getPhaseV | getChipTemp _ => exact .withRes fun _ => .respondSigned _
  | getCurRaw top =>
    unfold exec execGetCurRaw
    exact .withCurrentSum h fun _ => .next _
  | getCurScaled top =>
    unfold exec execGetCurScaled
    exact .withCurrentSum h fun _ => .require rfl (.next _)

theorem refusalOfOperand_pastOperands (e : OperandError) : (refusalOfOperand e).pastOperands = false := by
  cases e <;> rfl

end

end Sys2Proof.Machine

open Sys2Proof Sys2Proof.Machine

/-- Settles O8: each operation checks its operands first, and none of its other checks has the name of an operand's range. -/
theorem operandRangesAreChecked : Obligations.OperandRangesAreChecked := by
  unfold Obligations.OperandRangesAreChecked
  intro i s
  refine ⟨fun e h => exec_of_operandError h, fun hwf e hexec => ?_, fun t psd index ht hselect => ?_⟩
  · have haccepted := exec_operandsAccepted (beq_iff_eq.mp hwf) _ hexec
    rw [refusalOfOperand_pastOperands] at haccepted
    cases haccepted
  · obtain ⟨topo, htopo⟩ := topologyError_none.mp (if_pos ht)
    exact ⟨_, exec_next.mpr ⟨topo, htopo, hselect, rfl⟩⟩

end

section
/-! What a step on a command word does: it decodes the word, and answers every refusal (R73, R79; log 2). -/

namespace Sys2Proof.Machine

open Sys2Proof.Claims

section

variable {s : State} {r : Refusal}

/-! ### The codes of R204 -/

theorem refusalCode_refusalOfOperand (e : OperandError) : ∃ code, refusalCode (refusalOfOperand e) = some code := by
  cases e <;> exact ⟨_, rfl⟩

theorem refusalCode_refusalOfDecode (e : DecodeError) : ∃ code, refusalCode (refusalOfDecode e) = some code := by
  cases e <;> exact ⟨_, rfl⟩

theorem refusalCode_of_pastOperands (h : r.pastOperands = true) : ∃ code, refusalCode r = some code := by
  cases r with
  | badState | badTable | resultRange => exact ⟨_, rfl⟩
  | notModelled _ | illegalOp | reservedField | groupRange | bitRange | addrRange | badTopology => cases h

/-- Every operation has a meaning: what it is refused for has a code (R204). -/
theorem refusalCode_of_exec {i : Instr} (h : exec i s = .refused r) : ∃ code, refusalCode r = some code := by
  cases hop : i.operandError s.cfg with
  | none => exact refusalCode_of_pastOperands (exec_operandsAccepted hop r h)
  | some e =>
    obtain rfl : refusalOfOperand e = r := Host.Outcome.refused.inj ((exec_of_operandError hop).symm.trans h)
    exact refusalCode_refusalOfOperand e

/-! ### A command word -/

theorem answerRefused_of_code {code : BitVec 8} (h : refusalCode r = some code) :
    answerRefused r s = .next (answered s code 0 0) :=
  answerRefused_next h

theorem runCommand_of_error {cw : CommandWord} {e : DecodeError} (h : decode cw = .error e) :
    runCommand cw s = answerRefused (refusalOfDecode e) s := by
  simp only [runCommand, h]

section

variable {cw : CommandWord} {i : Instr} (hi : decode cw = .ok i)
include hi

theorem runCommand_of_next {t : State} (h : exec i s = .next t) : runCommand cw s = .next t := by
  simp only [runCommand, hi, h]

theorem runCommand_of_fault {f : Fault} (h : exec i s = .fault f) : runCommand cw s = .fault f := by
  simp only [runCommand, hi, h]

theorem runCommand_of_refused (h : exec i s = .refused r) : runCommand cw s = answerRefused r s := by
  simp only [runCommand, hi, h]

end

/-- A step with an input pending takes the oldest one (R60; log 1). -/
theorem step_of_inputs {x : Input} {rest : List Input} (h : s.port.inputs = x :: rest) :
    step s = runInput x (s.withInputs rest) := by
  simp only [step, State.nextInput, State.dropInput, State.withInputs, h]

/-! ### No refusal is left unanswered -/

theorem answerRefused_ne_refused {q : Refusal} (h : ∃ code, refusalCode r = some code) : answerRefused r s ≠ .refused q := by
  obtain ⟨code, hcode⟩ := h
  rw [answerRefused_of_code hcode]
  exact nofun

theorem runCommand_ne_refused (cw : CommandWord) : runCommand cw s ≠ .refused r := by
  cases hi : decode cw with
  | error e =>
    rw [runCommand_of_error hi]
    exact answerRefused_ne_refused (refusalCode_refusalOfDecode e)
  | ok i =>
    cases hexec : exec i s with
    | next t => rw [runCommand_of_next hi hexec]; exact nofun
    | fault f => rw [runCommand_of_fault hi hexec]; exact nofun
    | refused q =>
      rw [runCommand_of_refused hi hexec]
      exact answerRefused_ne_refused (refusalCode_of_exec hexec)

theorem passDone_ne_refused (o : Operation) : passDone o s ≠ .refused r := by
  intro h
  unfold passDone at h
  split at h
  · cases h
  · obtain ⟨v, -, hv⟩ := withRes_refused.mp h
    cases hv

theorem runPhase_ne_refused (o : Operation) : runPhase o s ≠ .refused r := by
  cases hp : o.phase <;> simp only [runPhase, hp]
  case swFinish => exact passDone_ne_refused o
  case task => split <;> exact nofun
  all_goals exact nofun

theorem proceed_ne_refused : proceed s ≠ .refused r := by
  unfold proceed
  split
  · exact nofun
  · exact runPhase_ne_refused _

theorem engineBegin_ne_refused (event : Option (BitVec 4)) : engineBegin event s ≠ .refused r := by
  unfold engineBegin
  repeat' split
  all_goals exact nofun

theorem engineComplete_ne_refused (draw : Word) : engineComplete draw s ≠ .refused r := by
  unfold engineComplete
  repeat' split
  all_goals exact nofun

theorem runInput_ne_refused (x : Input) : runInput x s ≠ .refused r := by
  cases x with
  | command cw => exact runCommand_ne_refused cw
  | proceed => exact proceed_ne_refused
  | source g b => exact nofun
  | hwEvent n => exact engineBegin_ne_refused _
  | engineBegin => exact engineBegin_ne_refused _
  | engineComplete draw => exact engineComplete_ne_refused draw

end

end Sys2Proof.Machine

open Sys2Proof Sys2Proof.Machine

/-- Settles O3: the decoder on the operation map, and the answers to its two errors. -/
theorem illegalAndReservedWordsAreRefused : Obligations.IllegalAndReservedWordsAreRefused := by
  unfold Obligations.IllegalAndReservedWordsAreRefused
  intro s cw rest hinputs
  have hstep : step s = runCommand cw (s.withInputs rest) := step_of_inputs hinputs
  refine ⟨fun hno => ?_, fun row hrow hop => ⟨fun hne => ?_, fun hzero => ?_⟩⟩
  · rw [hstep, runCommand_of_error (decode_of_no_row hno)]
    exact answerRefused_of_code rfl
  · rw [hstep, runCommand_of_error (decode_of_reserved_ne_zero hrow hop hne)]
    exact answerRefused_of_code rfl
  · obtain ⟨i, hdec, -⟩ := decode_of_reserved_zero hrow hop hzero
    exact ⟨i, hdec⟩

/-- Settles O5, by the three outcomes of `exec`. -/
theorem stepRunsTheDecodedOperation : Obligations.StepRunsTheDecodedOperation := by
  unfold Obligations.StepRunsTheDecodedOperation
  intro s cw rest i hinputs hi
  have hstep : step s = runCommand cw (s.withInputs rest) := step_of_inputs hinputs
  refine ⟨fun t h => ?_, fun f h => ?_, fun r code h hcode => ?_⟩
  · rw [hstep, runCommand_of_next hi h]
  · rw [hstep, runCommand_of_fault hi h]
  · rw [hstep, runCommand_of_refused hi h, answerRefused_of_code hcode]

/-- Settles O9: an operation and the decoder refuse under the names of R204 only, which are answered; nothing else refuses. -/
theorem noStepIsRefused : Obligations.NoStepIsRefused := by
  unfold Obligations.NoStepIsRefused
  intro s r
  exact runInput_ne_refused s.nextInput

end

section
/-! The interrupt registers as every reader sees them, bit by bit, and what each operation does to them (R13 to R15, R91 to R96,
R101). -/

namespace Sys2Proof.Machine

section

variable {s t : State} {g g' grp : Group} {b b' : BitVec 4}

/-! ### The bits of a word -/

@[simp] theorem bitPattern_getLsbD (b b' : BitVec 4) : (bitPattern b).getLsbD b'.toNat = decide (b' = b) := by
  have hlt := b'.isLt
  have hone : bitPattern b = BitVec.twoPow 16 b.toNat := rfl
  rw [hone, BitVec.getLsbD_twoPow, ← Bool.decide_and, decide_eq_decide, BitVec.toNat_eq]
  omega

/-- A bit index names every bit of a word. -/
theorem word_eq_zero_iff {w : Word} : w = 0 ↔ ∀ b : BitVec 4, w.getLsbD b.toNat = false := by
  refine ⟨fun h b => by rw [h, BitVec.ofNat_eq_ofNat, BitVec.getLsbD_zero], fun h => BitVec.eq_of_getLsbD_eq fun i hi => ?_⟩
  have hbit := h (BitVec.ofNatLT i hi)
  rw [BitVec.toNat_ofNatLT] at hbit
  rw [hbit, BitVec.ofNat_eq_ofNat, BitVec.getLsbD_zero]

theorem set_set {α : Type} (p : PerGroup α) (g : Group) (v w : α) : (p.set g v).set g w = p.set g w := by
  cases g <;> rfl

/-- One bit set in the register of one group (R92, R101). -/
theorem getLsbD_set_or_bitPattern (p : PerGroup Word) (g g' : Group) (b b' : BitVec 4) :
    ((p.set g (p.get g ||| bitPattern b)).get g').getLsbD b'.toNat =
      (decide (g' = g ∧ b' = b) || (p.get g').getLsbD b'.toNat) := by
  rw [get_set]
  split
  · rename_i hg
    simp only [hg, true_and, BitVec.getLsbD_or, bitPattern_getLsbD, Bool.or_comm]
  · rename_i hg
    simp [hg]

/-- One bit cleared in the register of one group (R93, R94). -/
theorem getLsbD_set_and_not_bitPattern (p : PerGroup Word) (g g' : Group) (b b' : BitVec 4) :
    ((p.set g (p.get g &&& ~~~ bitPattern b)).get g').getLsbD b'.toNat =
      (!decide (g' = g ∧ b' = b) && (p.get g').getLsbD b'.toNat) := by
  have hlt : b'.toNat < 16 := b'.isLt
  rw [get_set]
  split
  · rename_i hg
    simp only [hg, true_and, BitVec.getLsbD_and, BitVec.getLsbD_not, bitPattern_getLsbD, hlt, decide_true, Bool.true_and,
      Bool.and_comm]
  · rename_i hg
    simp [hg]

/-! ### The registers as they are read (R15) -/

theorem readPend_getLsbD (s : State) (g : Group) (b : BitVec 4) : (s.readPend g).getLsbD b.toNat =
    (decide (b.toNat < s.cfg.srcCount.get g) && (s.ic.pend.get g).getLsbD b.toNat) := by
  rw [State.readPend, BitVec.getLsbD_and, implementedBits_getLsbD, Bool.and_comm]

theorem readMask_getLsbD (s : State) (g : Group) (b : BitVec 4) : (s.readMask g).getLsbD b.toNat =
    (decide (b.toNat < s.cfg.srcCount.get g) && (s.ic.mask.get g).getLsbD b.toNat) := by
  rw [State.readMask, BitVec.getLsbD_and, implementedBits_getLsbD, Bool.and_comm]

theorem readPend_congr (hcfg : t.cfg = s.cfg) (hpend : t.ic.pend = s.ic.pend) (g : Group) : t.readPend g = s.readPend g := by
  rw [State.readPend, hcfg, hpend, State.readPend]

theorem readMask_congr (hcfg : t.cfg = s.cfg) (hmask : t.ic.mask = s.ic.mask) (g : Group) : t.readMask g = s.readMask g := by
  rw [State.readMask, hcfg, hmask, State.readMask]

theorem readPend_of_pend_zero (h : s.ic.pend = PerGroup.all 0) : s.readPend g = 0 := by
  rw [State.readPend, h, get_all]
  exact BitVec.zero_and

theorem readMask_of_mask_zero (h : s.ic.mask = PerGroup.all 0) : s.readMask g = 0 := by
  rw [State.readMask, h, get_all]
  exact BitVec.zero_and

@[simp] theorem readPend_respond (v0 v1 : Word) (g : Group) : (s.respond v0 v1).readPend g = s.readPend g := rfl
@[simp] theorem readMask_respond (v0 v1 : Word) (g : Group) : (s.respond v0 v1).readMask g = s.readMask g := rfl
@[simp] theorem readMask_latch (b : BitVec 4) (g g' : Group) : (s.latch g b).readMask g' = s.readMask g' := rfl
@[simp] theorem readMask_unlatch (b : BitVec 4) (g g' : Group) : (s.unlatch g b).readMask g' = s.readMask g' := rfl
@[simp] theorem readPend_allow (b : BitVec 4) (g g' : Group) : (s.allow g b).readPend g' = s.readPend g' := rfl
@[simp] theorem readPend_disallow (b : BitVec 4) (g g' : Group) : (s.disallow g b).readPend g' = s.readPend g' := rfl

/-- A source that reads pending and enabled is implemented (R15). -/
theorem lt_srcCount_of_active (h : (s.readPend g &&& s.readMask g).getLsbD b.toNat = true) :
    b.toNat < s.cfg.srcCount.get g := by
  rw [BitVec.getLsbD_and, readPend_getLsbD] at h
  by_contra hb
  simp [hb] at h

/-- An implemented source that is latched reads pending; every other bit reads as before (R92, R101). -/
theorem readPend_latch_getLsbD (hb : b.toNat < s.cfg.srcCount.get g) (g' : Group) (b' : BitVec 4) :
    ((s.latch g b).readPend g').getLsbD b'.toNat = (decide (g' = g ∧ b' = b) || (s.readPend g').getLsbD b'.toNat) := by
  rw [readPend_getLsbD, readPend_getLsbD, State.latch_cfg, State.latch_ic_pend, getLsbD_set_or_bitPattern]
  by_cases hsrc : g' = g ∧ b' = b
  · obtain ⟨rfl, rfl⟩ := hsrc
    simp [hb]
  · simp [hsrc]

/-- An implemented source that is allowed reads enabled; every other bit reads as before (R92). -/
theorem readMask_allow_getLsbD (hb : b.toNat < s.cfg.srcCount.get g) (g' : Group) (b' : BitVec 4) :
    ((s.allow g b).readMask g').getLsbD b'.toNat = (decide (g' = g ∧ b' = b) || (s.readMask g').getLsbD b'.toNat) := by
  rw [readMask_getLsbD, readMask_getLsbD, State.allow_cfg, State.allow_ic_mask, getLsbD_set_or_bitPattern]
  by_cases hsrc : g' = g ∧ b' = b
  · obtain ⟨rfl, rfl⟩ := hsrc
    simp [hb]
  · simp [hsrc]

theorem readPend_unlatch_getLsbD (s : State) (g g' : Group) (b b' : BitVec 4) :
    ((s.unlatch g b).readPend g').getLsbD b'.toNat = (!decide (g' = g ∧ b' = b) && (s.readPend g').getLsbD b'.toNat) := by
  rw [readPend_getLsbD, readPend_getLsbD, State.unlatch_cfg, State.unlatch_ic_pend, getLsbD_set_and_not_bitPattern,
    Bool.and_left_comm]

theorem readMask_disallow_getLsbD (s : State) (g g' : Group) (b b' : BitVec 4) :
    ((s.disallow g b).readMask g').getLsbD b'.toNat = (!decide (g' = g ∧ b' = b) && (s.readMask g').getLsbD b'.toNat) := by
  rw [readMask_getLsbD, readMask_getLsbD, State.disallow_cfg, State.disallow_ic_mask, getLsbD_set_and_not_bitPattern,
    Bool.and_left_comm]

/-- A group line is high exactly while a source of the group reads pending and enabled (R192). -/
theorem irqOut_iff : s.irqOut g = true ↔ ∃ b : BitVec 4, (s.readPend g &&& s.readMask g).getLsbD b.toNat = true := by
  simp only [State.irqOut, bne_iff_ne, ne_eq, ← BitVec.ofNat_eq_ofNat, word_eq_zero_iff, not_forall, Bool.not_eq_false]

theorem irqOut_eq_false (h : s.readPend g &&& s.readMask g = 0) : s.irqOut g = false := by
  rw [State.irqOut, h]
  rfl

/-! ### Operands (R75) -/

theorem groupOfField_eq_none {g : BitVec 4} : groupOfField g = none ↔ 4 < g.toNat := by
  revert g; decide

theorem fieldOfGroup_inj : fieldOfGroup g = fieldOfGroup g' ↔ g = g' := by
  refine ⟨fun h => ?_, congrArg fieldOfGroup⟩
  rw [← Option.some_inj, ← groupOfField_fieldOfGroup, h, groupOfField_fieldOfGroup]

section

variable {i : Instr} {f : BitVec 4}

theorem exec_group_outside (hi : i.operandError s.cfg = s.cfg.groupError f) (hf : 4 < f.toNat) :
    exec i s = .refused .groupRange :=
  exec_of_operandError (hi.trans (groupError_some.mpr ⟨groupOfField_eq_none.mpr hf, rfl⟩))

variable (hi : i.operandError s.cfg = s.cfg.sourceError f b)
include hi

theorem exec_source_group_outside (hf : 4 < f.toNat) : exec i s = .refused .groupRange :=
  exec_of_operandError (hi.trans (sourceError_some.mpr (.inl ⟨groupOfField_eq_none.mpr hf, rfl⟩)))

theorem exec_source_bit_outside (hf : f = fieldOfGroup grp) (hb : s.cfg.srcCount.get grp ≤ b.toNat) :
    exec i s = .refused .bitRange :=
  exec_of_operandError (hi.trans (sourceError_some.mpr (.inr ⟨grp, hf ▸ groupOfField_fieldOfGroup grp, hb, rfl⟩)))

end

/-! ### What the operations on a source do when its operands are in range (R92 to R94, R101) -/

section

variable (hb : b.toNat < s.cfg.srcCount.get grp)
include hb

theorem exec_icEnable : exec (.icEnable (fieldOfGroup grp) b) s = .next (((s.latch grp b).allow grp b).respond 0 0) :=
  exec_next.mpr ⟨grp, groupOfField_fieldOfGroup grp, hb, rfl⟩

theorem exec_icDisable : exec (.icDisable (fieldOfGroup grp) b) s = .next ((s.disallow grp b).respond 0 0) :=
  exec_next.mpr ⟨grp, groupOfField_fieldOfGroup grp, hb, rfl⟩

theorem exec_icAck : exec (.icAck (fieldOfGroup grp) b) s = .next ((s.unlatch grp b).respond 0 0) :=
  exec_next.mpr ⟨grp, groupOfField_fieldOfGroup grp, hb, rfl⟩

theorem sourceEvent_inside : sourceEvent grp b s = s.latch grp b := if_pos hb

/-- The pending bits read after `IC_ENABLE` (R92). -/
theorem readPend_enable_getLsbD (g' : Group) (b' : BitVec 4) :
    ((((s.latch grp b).allow grp b).respond 0 0).readPend g').getLsbD b'.toNat =
      (decide (g' = grp ∧ b' = b) || (s.readPend g').getLsbD b'.toNat) := by
  rw [readPend_respond, readPend_allow, readPend_latch_getLsbD hb]

/-- The mask bits read after `IC_ENABLE` (R92). -/
theorem readMask_enable_getLsbD (g' : Group) (b' : BitVec 4) :
    ((((s.latch grp b).allow grp b).respond 0 0).readMask g').getLsbD b'.toNat =
      (decide (g' = grp ∧ b' = b) || (s.readMask g').getLsbD b'.toNat) := by
  rw [readMask_respond, readMask_allow_getLsbD (s := s.latch grp b) hb, readMask_latch]

/-- After `IC_ENABLE` the source is pending and enabled (R103). -/
theorem active_enable : ((((s.latch grp b).allow grp b).respond 0 0).readPend grp &&&
    (((s.latch grp b).allow grp b).respond 0 0).readMask grp).getLsbD b.toNat = true := by
  rw [BitVec.getLsbD_and, readPend_enable_getLsbD hb, readMask_enable_getLsbD hb]
  simp

theorem irqOut_enable : (((s.latch grp b).allow grp b).respond 0 0).irqOut grp = true :=
  irqOut_iff.mpr ⟨b, active_enable hb⟩

end

/-- A condition that is latched already is not counted twice (R101). -/
theorem latch_latch (s : State) (g : Group) (b : BitVec 4) : (s.latch g b).latch g b = s.latch g b := by
  simp only [State.latch, get_set_same, BitVec.or_assoc, BitVec.or_self, set_set]

end

end Sys2Proof.Machine

open Sys2Proof Sys2Proof.Machine

/-- Settles O10: the operation computes; registers that are all zero keep every line low. -/
theorem icInitClearsEveryGroup : Obligations.IcInitClearsEveryGroup := by
  unfold Obligations.IcInitClearsEveryGroup
  refine ⟨rfl, fun s => ⟨_, rfl, rfl, fun g => irqOut_eq_false ?_⟩⟩
  rw [readPend_of_pend_zero rfl]
  exact BitVec.zero_and

/-- Settles O11, by the bits of the two registers after a latch and an enable. -/
theorem icEnableSetsBothBits : Obligations.IcEnableSetsBothBits := by
  unfold Obligations.IcEnableSetsBothBits
  intro s g b
  refine ⟨rfl, exec_source_group_outside rfl, ?_⟩
  rintro grp rfl
  refine ⟨exec_source_bit_outside rfl rfl, fun hb => ⟨_, exec_icEnable hb, ?_, ?_, ?_, rfl⟩⟩
  · exact readPend_enable_getLsbD hb
  · exact readMask_enable_getLsbD hb
  · exact irqOut_enable hb

/-- Settles O12, by the bits of the mask register after a disable. -/
theorem icDisableClearsTheMaskBit : Obligations.IcDisableClearsTheMaskBit := by
  unfold Obligations.IcDisableClearsTheMaskBit
  intro s g b
  refine ⟨rfl, exec_source_group_outside rfl, ?_⟩
  rintro grp rfl
  refine ⟨exec_source_bit_outside rfl rfl, fun hb => ⟨_, exec_icDisable hb, fun g' b' => ?_, rfl⟩⟩
  exact readMask_disallow_getLsbD s grp g' b b'

/-- Settles O13, by the bits of the pending register after an acknowledge. -/
theorem icAckClearsThePendingBit : Obligations.IcAckClearsThePendingBit := by
  unfold Obligations.IcAckClearsThePendingBit
  intro s g b
  refine ⟨rfl, exec_source_group_outside rfl, ?_⟩
  rintro grp rfl
  refine ⟨exec_source_bit_outside rfl rfl, fun hb => ⟨_, exec_icAck hb, fun g' b' => ?_, rfl⟩⟩
  exact readPend_unlatch_getLsbD s grp g' b b'

/-- Settles O14: the answers are the registers as they are read, whose bits are known. -/
theorem icReadsAnswerTheRegisters : Obligations.IcReadsAnswerTheRegisters := by
  unfold Obligations.IcReadsAnswerTheRegisters
  intro s g
  refine ⟨rfl, rfl, fun hg => ⟨exec_group_outside rfl hg, exec_group_outside rfl hg⟩, ?_⟩
  rintro grp rfl
  have hgrp := groupOfField_fieldOfGroup grp
  refine ⟨s.readPend grp, s.readMask grp, ?_, ?_, fun b => ⟨?_, ?_⟩⟩
  · exact exec_next.mpr ⟨grp, hgrp, rfl⟩
  · exact exec_next.mpr ⟨grp, hgrp, rfl⟩
  · exact readPend_getLsbD s grp b
  · exact readMask_getLsbD s grp b

/-- Settles O17: the event of an implemented source is a latch, and a latch is idempotent. -/
theorem sourceEventLatches : Obligations.SourceEventLatches := by
  unfold Obligations.SourceEventLatches
  intro s grp b hb
  refine ⟨s.latch grp b, ?_, readPend_latch_getLsbD hb, rfl, ?_⟩
  · exact congrArg Host.Outcome.next (sourceEvent_inside hb)
  · exact congrArg Host.Outcome.next ((sourceEvent_inside (s := s.latch grp b) hb).trans (latch_latch s grp b))

end

section
/-! The histories of R102: what each input does to the pending and the mask bit of one source. -/

namespace Sys2Proof

/-- The operations that write the interrupt registers (R91 to R94). -/
def Instr.writesIc : Instr → Bool
  | .icInit | .icEnable _ _ | .icDisable _ _ | .icAck _ _ => true
  | _ => false

end Sys2Proof

namespace Sys2Proof.Machine

/-- From `s` to `t` the pending and the mask bit of source (g, b) change as R102 counts the input `x`. -/
def FollowsHistory (grp : Group) (b : BitVec 4) (x : Input) (s t : State) : Prop :=
  (t.readPend grp).getLsbD b.toNat = pendHistory (fieldOfGroup grp) grp b ((s.readPend grp).getLsbD b.toNat) x ∧
    (t.readMask grp).getLsbD b.toNat = maskHistory (fieldOfGroup grp) b ((s.readMask grp).getLsbD b.toNat) x

section

variable {x : Input} {s t : State} {grp : Group} {b : BitVec 4}

/-! ### Inputs that write no interrupt register -/

/-- The history does not count the input `x` for source (g, b). -/
def HistoryIgnores (grp : Group) (b : BitVec 4) (x : Input) : Prop :=
  ∀ before, pendHistory (fieldOfGroup grp) grp b before x = before ∧ maskHistory (fieldOfGroup grp) b before x = before

theorem FollowsHistory.of_frame (hx : HistoryIgnores grp b x) (hcfg : t.cfg = s.cfg) (hic : t.ic = s.ic) :
    FollowsHistory grp b x s t := by
  have hpend : t.readPend grp = s.readPend grp := readPend_congr hcfg (congrArg IntCtl.pend hic) grp
  have hmask : t.readMask grp = s.readMask grp := readMask_congr hcfg (congrArg IntCtl.mask hic) grp
  unfold FollowsHistory
  rw [hpend, hmask]
  exact ⟨(hx _).1.symm, (hx _).2.symm⟩

theorem stopFirst_ic (todo : List Task) (s : State) : (stopFirst todo s).ic = s.ic := (stopFirst_frame todo s).2.1

theorem loopEffect_ic {table dest : Word} (h : loopEffect table dest s t) : t.ic = s.ic := by
  obtain ⟨-, -, -, rfl⟩ := h
  split <;> rfl

/-- The other operations leave the interrupt registers alone. -/
theorem effect_ic {i : Instr} (hi : i.writesIc = false) (h : effect i s t) : t.ic = s.ic := by
  cases i with
  | icInit | icEnable _ _ | icDisable _ _ | icAck _ _ => cases hi
  | icVector _ | icRdpend _ | icRdmask _ => obtain ⟨_, -, rfl⟩ := h; rfl
  | adcInit | calValidateOffset => obtain ⟨-, -, rfl⟩ := h; rfl
  | adcConfigure _ _ | adcStartSw _ _ => obtain ⟨-, -, -, rfl⟩ := h; rfl
  | adcStartHw _ _ => exact loopEffect_ic h
  | adcStart _ _ => obtain ⟨_, -, h⟩ := h; exact loopEffect_ic h
  | adcStop => obtain ⟨-, -, rfl⟩ := h; exact stopFirst_ic _ _
  | adcPowerOff => obtain ⟨-, -, -, rfl⟩ := h; exact stopFirst_ic _ _
  | adcSelectTable _ _ _ => obtain ⟨_, -, -, rfl⟩ := h; rfl
  | adcEocIe _ | adcEocAck | adcRdstat => cases h; rfl
  | adcRdres _ => obtain ⟨_, -, rfl⟩ := h; rfl
  | calRails | calPins | calMeasureOffset | calSelftest => obtain ⟨-, -, -, rfl⟩ := h; exact State.issueTasks_ic _ _ _
  | getSupplyV | getMotorV | getPhaseV | getChipTemp _ => obtain ⟨_, -, -, rfl⟩ := h; rfl
  | getCurRaw _ => obtain ⟨_, _, _, -, -, -, rfl⟩ := h; rfl
  | getCurScaled _ => obtain ⟨_, _, _, -, -, -, -, rfl⟩ := h; rfl

theorem runTask_ic (k : Task) (o : Operation) (s : State) : (runTask k o s).ic = s.ic := by
  cases k <;> simp [runTask]

theorem passDone_ic {o : Operation} (h : passDone o s = .next t) : t.ic = s.ic := by
  unfold passDone at h
  split at h
  · cases h; rfl
  · obtain ⟨_, -, h⟩ := withRes_next.mp h
    cases h; rfl

/-- The later steps of an operation leave the interrupt registers alone. -/
theorem runPhase_ic {o : Operation} (h : runPhase o s = .next t) : t.ic = s.ic := by
  cases hp : o.phase <;> simp only [runPhase, hp] at h
  case swSettle | swTrigger | hwSettle | hwArm | drainTrigger | stopCtrl | stopEoc => cases h; rfl
  case swWait | drainWait => cases h; split <;> rfl
  case swFinish => exact passDone_ic h
  case stopIdle => cases h; exact State.nextTask_ic _ o
  case task =>
    split at h
    · cases h; rfl
    · cases h; exact runTask_ic _ _ s

theorem engineBegin_ic {event : Option (BitVec 4)} (h : engineBegin event s = .next t) : t.ic = s.ic := by
  rcases engineBegin_next h with rfl | ⟨_, -, -, -, -, rfl⟩ <;> rfl

/-- No input writes the configuration (R41). -/
theorem runInput_cfg (h : runInput x s = .next t) : t.cfg = s.cfg := by
  rcases runInput_memoryKept h with hkept | ⟨draw, -, hcomplete⟩
  · exact hkept.cfg
  · exact (engineComplete_frame hcomplete).1

/-! ### Command words -/

theorem historyIgnores_of_error {cw : CommandWord} {e : DecodeError} (h : decode cw = .error e) :
    HistoryIgnores grp b (.command cw) := by
  intro before
  simp [pendHistory, maskHistory, h]

section

variable {cw : CommandWord} {i : Instr} (hdec : decode cw = .ok i)
include hdec

theorem historyIgnores_of_writesIc (hi : i.writesIc = false) : HistoryIgnores grp b (.command cw) := by
  intro before
  cases i with
  | icInit | icEnable _ _ | icDisable _ _ | icAck _ _ => cases hi
  | _ => simp [pendHistory, maskHistory, hdec]

/-- An operation on an implemented source is not refused: what is refused names another source (R75). -/
theorem historyIgnores_of_refused {r : Refusal} (hb : b.toNat < s.cfg.srcCount.get grp) (h : exec i s = .refused r) :
    HistoryIgnores grp b (.command cw) := by
  have hother : ∀ {f b' : BitVec 4} {k : Group → State}, withSource f b' s (fun g => .next (k g)) = .refused r →
      ¬ (f = fieldOfGroup grp ∧ b' = b) := by
    rintro f b' k h ⟨rfl, rfl⟩
    rw [withSource_of_some (groupOfField_fieldOfGroup grp) hb] at h
    cases h
  cases hi : i.writesIc with
  | false => exact historyIgnores_of_writesIc hdec hi
  | true =>
    intro before
    cases i with
    | icInit => cases h
    | icEnable f b' | icDisable f b' | icAck f b' =>
      simp [pendHistory, maskHistory, hdec, hother h]
    | _ => cases hi

/-- An operation that is accepted changes the two bits as R102 counts it. -/
theorem effect_followsHistory (h : effect i s t) (hcfg : t.cfg = s.cfg) :
    FollowsHistory grp b (.command cw) s t := by
  cases hi : i.writesIc with
  | false => exact .of_frame (historyIgnores_of_writesIc hdec hi) hcfg (effect_ic hi h)
  | true =>
    unfold FollowsHistory
    cases i with
    | icInit =>
      cases h
      rw [readPend_of_pend_zero rfl, readMask_of_mask_zero rfl]
      simp [pendHistory, maskHistory, hdec]
    | icEnable f b' =>
      obtain ⟨grp', hg, hb', rfl⟩ := h
      obtain rfl := fieldOfGroup_of_groupOfField hg
      rw [readPend_enable_getLsbD hb', readMask_enable_getLsbD hb']
      simp [pendHistory, maskHistory, hdec, fieldOfGroup_inj, eq_comm]
    | icDisable f b' =>
      obtain ⟨grp', hg, -, rfl⟩ := h
      obtain rfl := fieldOfGroup_of_groupOfField hg
      rw [readPend_respond, readMask_respond, readPend_disallow, readMask_disallow_getLsbD]
      simp [pendHistory, maskHistory, hdec, fieldOfGroup_inj, eq_comm]
    | icAck f b' =>
      obtain ⟨grp', hg, -, rfl⟩ := h
      obtain rfl := fieldOfGroup_of_groupOfField hg
      rw [readPend_respond, readMask_respond, readMask_unlatch, readPend_unlatch_getLsbD]
      simp [pendHistory, maskHistory, hdec, fieldOfGroup_inj, eq_comm]
    | _ => cases hi

end

theorem answerRefused_followsHistory {r : Refusal} (hx : HistoryIgnores grp b x) (h : answerRefused r s = .next t) :
    FollowsHistory grp b x s t := by
  unfold answerRefused at h
  split at h
  · cases h
    exact .of_frame hx rfl rfl
  · cases h

theorem runCommand_followsHistory {cw : CommandWord} (hb : b.toNat < s.cfg.srcCount.get grp)
    (h : runCommand cw s = .next t) : FollowsHistory grp b (.command cw) s t := by
  have hcfg : t.cfg = s.cfg := runInput_cfg (x := .command cw) h
  cases hdec : decode cw with
  | error e =>
    rw [runCommand_of_error hdec] at h
    exact answerRefused_followsHistory (historyIgnores_of_error hdec) h
  | ok i =>
    cases hexec : exec i s with
    | next u =>
      rw [runCommand_of_next hdec hexec] at h
      cases h
      exact effect_followsHistory hdec (exec_next.mp hexec) hcfg
    | fault f =>
      rw [runCommand_of_fault hdec hexec] at h
      cases h
    | refused r =>
      rw [runCommand_of_refused hdec hexec] at h
      exact answerRefused_followsHistory (historyIgnores_of_refused hdec hb hexec) h

/-! ### Every input -/

/-- The event of another source leaves the two bits alone; the event of this one latches it (R101). -/
theorem sourceEvent_followsHistory (hb : b.toNat < s.cfg.srcCount.get grp) (grp' : Group) (b' : BitVec 4) :
    FollowsHistory grp b (.source grp' b') s (sourceEvent grp' b' s) := by
  unfold FollowsHistory
  by_cases hb' : b'.toNat < s.cfg.srcCount.get grp'
  · rw [sourceEvent_inside hb', readPend_latch_getLsbD hb', readMask_latch]
    simp [pendHistory, maskHistory, eq_comm]
  · have hother : ¬ (grp' = grp ∧ b' = b) := by
      rintro ⟨rfl, rfl⟩
      exact hb' hb
    rw [sourceEvent, if_neg hb']
    simp [pendHistory, maskHistory, hother]

/-- Each input of any agent changes the two bits of an implemented source as R102 counts it. -/
theorem runInput_followsHistory (hb : b.toNat < s.cfg.srcCount.get grp) (h : runInput x s = .next t) :
    FollowsHistory grp b x s t := by
  have hcfg : t.cfg = s.cfg := runInput_cfg h
  cases x with
  | command cw => exact runCommand_followsHistory hb h
  | source grp' b' =>
    cases h
    exact sourceEvent_followsHistory hb grp' b'
  | proceed =>
    refine .of_frame (fun _ => ⟨rfl, rfl⟩) hcfg ?_
    simp only [runInput, proceed] at h
    split at h
    · cases h; rfl
    · exact runPhase_ic h
  | hwEvent n => exact .of_frame (fun _ => ⟨rfl, rfl⟩) hcfg (engineBegin_ic h)
  | engineBegin => exact .of_frame (fun _ => ⟨rfl, rfl⟩) hcfg (engineBegin_ic h)
  | engineComplete draw => exact .of_frame (fun _ => ⟨rfl, rfl⟩) hcfg (engineComplete_frame h).2.1

end

end Sys2Proof.Machine

open Sys2Proof Sys2Proof.Machine

/-- Settles O18, by induction on the inputs: each changes the two bits as its history counts it. -/
theorem pendAndMaskFollowTheirHistories : Obligations.PendAndMaskFollowTheirHistories := by
  unfold Obligations.PendAndMaskFollowTheirHistories
  intro xs s t grp b hb h
  induction xs generalizing s with
  | nil =>
    rw [next_iff.mp h]
    exact ⟨rfl, rfl⟩
  | cons x xs ih =>
    obtain ⟨u, hx, hxs⟩ := runInputs_cons_next h
    obtain ⟨hpend, hmask⟩ := runInput_followsHistory hb hx
    rw [List.foldl_cons, List.foldl_cons, ← hpend, ← hmask]
    exact ih u (by rwa [runInput_cfg hx]) hxs

end

section
/-! The dispatch lookup (R97), and the service of a line by repeated lookups (R98 to R100, R103). -/

namespace Sys2Proof.Machine

/-- Bit `b` is the lowest bit of `v` that is 1 (R7). -/
def IsLowest (v : Word) (b : BitVec 4) : Prop :=
  v.getLsbD b.toNat = true ∧ ∀ b' : BitVec 4, b' < b → v.getLsbD b'.toNat = false

/-! ### The lowest bit -/

theorem lowestBit_eq_none {v : Word} : lowestBit v = none ↔ v = 0 := by
  rw [word_eq_zero_iff, lowestBit, Option.map_eq_none_iff, List.find?_range_eq_none]
  refine ⟨fun h b => by simpa using h b.toNat b.isLt, fun h i hi => ?_⟩
  have hbit := h (BitVec.ofNatLT i hi)
  rw [BitVec.toNat_ofNatLT] at hbit
  simp only [hbit, Bool.not_false]

theorem lowestBit_eq_some {v : Word} {b : BitVec 4} (h : lowestBit v = some b) : IsLowest v b := by
  obtain ⟨i, hi, rfl⟩ := Option.map_eq_some_iff.mp h
  obtain ⟨hbit, hmem, hlow⟩ := List.find?_range_eq_some.mp hi
  have hlt : i < 16 := List.mem_range.mp hmem
  have htoNat : (BitVec.ofNat 4 i).toNat = i := Nat.mod_eq_of_lt hlt
  refine ⟨by rwa [htoNat], fun b' hb' => ?_⟩
  rw [BitVec.lt_def, htoNat] at hb'
  simpa using hlow b'.toNat hb'

section

variable {v : Word} {b b' : BitVec 4} (h : IsLowest v b)
include h

theorem IsLowest.le (hbit : v.getLsbD b'.toNat = true) : b ≤ b' :=
  BitVec.not_lt.mp fun hlt => Bool.false_ne_true ((h.2 b' hlt).symm.trans hbit)

theorem IsLowest.lt (hbit : v.getLsbD b'.toNat = true) (hne : b' ≠ b) : b.toNat < b'.toNat :=
  Nat.lt_of_le_of_ne (h.le hbit) fun heq => hne (BitVec.eq_of_toNat_eq heq.symm)

end

/-- A word with a bit set has a lowest bit set. -/
theorem exists_isLowest {v : Word} {b : BitVec 4} (h : v.getLsbD b.toNat = true) :
    ∃ b', lowestBit v = some b' ∧ IsLowest v b' := by
  cases hv : lowestBit v with
  | none =>
    have hzero := word_eq_zero_iff.mp (lowestBit_eq_none.mp hv) b
    exact absurd (hzero.symm.trans h) Bool.false_ne_true
  | some b' => exact ⟨b', rfl, lowestBit_eq_some hv⟩

theorem IsLowest.lowestBit {v : Word} {b : BitVec 4} (h : IsLowest v b) : lowestBit v = some b := by
  obtain ⟨b', hb', hlow⟩ := exists_isLowest h.1
  rw [hb', BitVec.le_antisymm (hlow.le h.1) (h.le hlow.1)]

section

variable {s t : State} {g : Group} {b : BitVec 4}

/-! ### The answer of the lookup -/

theorem vectorAnswer_quiet (h : s.readPend g &&& s.readMask g = 0) : vectorAnswer s g = (0, 0) := by
  rw [vectorAnswer, lowestBit_eq_none.mpr h]
  rfl

theorem vectorAnswer_lowest (h : IsLowest (s.readPend g &&& s.readMask g) b) :
    vectorAnswer s g = (0x8000 ||| b.setWidth 16, handlerOf s.cfg g b) := by
  rw [vectorAnswer, h.lowestBit]
  rfl

/-- The lookup always answers, and the answer is all it changes (R97). -/
theorem exec_icVector (s : State) (g : Group) :
    exec (.icVector (fieldOfGroup g)) s = .next (s.respond (vectorAnswer s g).1 (vectorAnswer s g).2) :=
  exec_next.mpr ⟨g, groupOfField_fieldOfGroup g, rfl⟩

theorem exec_icVector_lowest (h : IsLowest (s.readPend g &&& s.readMask g) b) :
    exec (.icVector (fieldOfGroup g)) s = .next (s.respond (0x8000 ||| b.setWidth 16) (handlerOf s.cfg g b)) := by
  rw [exec_icVector, vectorAnswer_lowest h]

theorem vectorWord_valid (b : BitVec 4) : ((0x8000 : Word) ||| b.setWidth 16).getLsbD 15 = true := by
  revert b; decide

theorem vectorWord_index (b : BitVec 4) : ((0x8000 : Word) ||| b.setWidth 16).extractLsb' 0 4 = b := by
  revert b; decide

/-! ### One turn of the service -/

/-- The service ends at a lookup that finds no source; the answer is all it changes (R98). -/
theorem dispatch_none {h : Handlers} (turns : Nat) (hnone : s.readPend g &&& s.readMask g = 0) :
    dispatch h g (turns + 1) s = { invoked := [], final := some (s.respond 0 0) } := by
  have hanswer := vectorAnswer_quiet hnone
  rw [dispatch_quiet turns (by rw [hanswer]; rfl), hanswer]

/-- A turn invokes the handler of the lowest source, and goes on from the state it leaves (R98). -/
theorem dispatch_lowest {h : Handlers} (turns : Nat) (hlow : IsLowest (s.readPend g &&& s.readMask g) b)
    (hr : (h.withDefault (handlerOf s.cfg g b) g b).result
      (s.respond (0x8000 ||| b.setWidth 16) (handlerOf s.cfg g b)) = some t) :
    dispatch h g (turns + 1) s =
      { invoked := (handlerOf s.cfg g b, b) :: (dispatch h g turns t).invoked, final := (dispatch h g turns t).final } := by
  have hanswer := vectorAnswer_lowest hlow
  rw [dispatch_turn (t := t) turns] <;> simp only [hanswer, vectorWord_index]
  · exact vectorWord_valid b
  · exact hr

/-- The default handler returns at once and has changed nothing (R100). -/
theorem withDefault_zero_result (h : Handlers) (g : Group) (b : BitVec 4) (s : State) :
    (h.withDefault 0 g b).result s = some s :=
  HandlerRun.result_some.mpr ⟨[], rfl, rfl⟩

/-- A bound handler that only acknowledges returns with the pending bit of its source clear (R94, R198). -/
theorem acknowledging_result {id : Word} (hid : id ≠ 0) (hb : b.toNat < s.cfg.srcCount.get g) :
    (Handlers.acknowledging.withDefault id g b).result s = some ((s.unlatch g b).respond 0 0) := by
  refine HandlerRun.result_some.mpr ⟨[acknowledgeWord g b], if_neg hid, ?_⟩
  have hrun : runInput (acknowledgeWord g b) s = .next ((s.unlatch g b).respond 0 0) :=
    runCommand_of_next (decodeOfEncodeIsTheOperation _) (exec_icAck hb)
  exact runInputs_cons hrun []

/-- The completion handler that only acknowledges returns with the completion no longer pending (R130, R198). -/
theorem acknowledgingCompletion_result (s : State) : HandlerRun.acknowledgingCompletion.result s =
    some (State.respond { s with adc := { s.adc with eocPend := false } } 0 0) := by
  refine HandlerRun.result_some.mpr ⟨_, rfl, ?_⟩
  have hrun : runInput completionAcknowledgeWord s =
      .next (State.respond { s with adc := { s.adc with eocPend := false } } 0 0) :=
    runCommand_of_next (decodeOfEncodeIsTheOperation .adcEocAck) rfl
  exact runInputs_cons hrun []

/-- The state after the turn that serves source (g, b): answered, acknowledged, and answered again. -/
def State.served (s : State) (g : Group) (b : BitVec 4) : State :=
  ((s.respond (0x8000 ||| b.setWidth 16) (handlerOf s.cfg g b)).unlatch g b).respond 0 0

/-- A turn leaves the other sources of the group pending and enabled as they were, and its own no longer. -/
theorem served_active_iff {b' : BitVec 4} :
    ((s.served g b).readPend g &&& (s.served g b).readMask g).getLsbD b'.toNat = true ↔
      b' ≠ b ∧ (s.readPend g &&& s.readMask g).getLsbD b'.toNat = true := by
  have hpend := readPend_unlatch_getLsbD (s.respond (0x8000 ||| b.setWidth 16) (handlerOf s.cfg g b)) g g b b'
  simp only [true_and, readPend_respond] at hpend
  simp only [State.served, BitVec.getLsbD_and, readPend_respond, readMask_respond, readMask_unlatch, hpend, Bool.and_assoc,
    Bool.and_eq_true, Bool.not_eq_true', decide_eq_false_iff_not, ne_eq]

/-! ### The whole service -/

/-- The service `r` of group `g` from state `s` ends in `t`: with the line low, each source that was pending and enabled
invoked, in ascending order, and nothing changed but the pending registers and the answer (R98, R99). -/
structure Service.Serves (r : Service) (g : Group) (s t : State) : Prop where
  final : r.final = some t
  low : t.irqOut g = false
  ascending : (r.invoked.map fun p => p.2.toNat).Pairwise (· < ·)
  invoked : ∀ b : BitVec 4, b ∈ r.invoked.map Prod.snd ↔ (s.readPend g &&& s.readMask g).getLsbD b.toNat = true
  mask : t.ic.mask = s.ic.mask
  adc : t.adc = s.adc
  res : t.res = s.res
  cal : t.cal = s.cal
  pins : t.pins = s.pins

/-- A group without a pending and enabled source is served at once (R98). -/
theorem dispatch_serves_none {h : Handlers} (turns : Nat) (hnone : s.readPend g &&& s.readMask g = 0) :
    ∃ t, (dispatch h g (turns + 1) s).Serves g s t := by
  rw [dispatch_none turns hnone]
  exact ⟨_, {
    final := rfl
    low := irqOut_eq_false hnone
    ascending := List.Pairwise.nil
    invoked := fun b => by simp [word_eq_zero_iff.mp hnone b]
    mask := rfl, adc := rfl, res := rfl, cal := rfl, pins := rfl }⟩

/-- Serving the lowest source first, and then the rest in ascending order, serves all of them in ascending order. -/
theorem Service.Serves.cons {r : Service} (id : Word) (hlow : IsLowest (s.readPend g &&& s.readMask g) b)
    (h : r.Serves g (s.served g b) t) : Service.Serves { invoked := (id, b) :: r.invoked, final := r.final } g s t where
  final := h.final
  low := h.low
  ascending := by
    refine List.pairwise_cons.mpr ⟨fun n hn => ?_, h.ascending⟩
    obtain ⟨p, hp, rfl⟩ := List.mem_map.mp hn
    obtain ⟨hne, hbit⟩ := served_active_iff.mp ((h.invoked p.2).mp (List.mem_map_of_mem hp))
    exact hlow.lt hbit hne
  invoked b' := by
    rw [List.map_cons, List.mem_cons, h.invoked b', served_active_iff]
    by_cases heq : b' = b
    · subst heq
      simp only [hlow.1, true_or]
    · simp only [heq, false_or, ne_eq, not_false_eq_true, true_and]
  mask := h.mask
  adc := h.adc
  res := h.res
  cal := h.cal
  pins := h.pins

/-- With every source bound, `turns + 1` turns serve a group whose sources in question have the last `turns` indices. -/
theorem dispatch_serves (turns : Nat) {s : State}
    (hbound : ∀ b : BitVec 4, (s.readPend g &&& s.readMask g).getLsbD b.toNat = true → handlerOf s.cfg g b ≠ 0)
    (hturns : ∀ b : BitVec 4, (s.readPend g &&& s.readMask g).getLsbD b.toNat = true → 16 ≤ b.toNat + turns) :
    ∃ t, (dispatch Handlers.acknowledging g (turns + 1) s).Serves g s t := by
  induction turns generalizing s with
  | zero =>
    refine dispatch_serves_none 0 (word_eq_zero_iff.mpr fun b => Bool.eq_false_iff.mpr fun h => ?_)
    exact absurd (hturns b h) (Nat.not_le.mpr b.isLt)
  | succ n ih =>
    cases hlowest : lowestBit (s.readPend g &&& s.readMask g) with
    | none => exact dispatch_serves_none (n + 1) (lowestBit_eq_none.mp hlowest)
    | some b =>
      have hlow := lowestBit_eq_some hlowest
      have hturn := dispatch_lowest (n + 1) hlow
        (acknowledging_result (hbound b hlow.1) (lt_srcCount_of_active hlow.1))
      obtain ⟨t, ht⟩ : ∃ t, (dispatch Handlers.acknowledging g (n + 1) (s.served g b)).Serves g (s.served g b) t := by
        refine ih (fun b' h => hbound b' (served_active_iff.mp h).2) fun b' h => ?_
        obtain ⟨hne, hbit⟩ := served_active_iff.mp h
        have hlt := hlow.lt hbit hne
        have hb := hturns b hlow.1
        omega
      rw [hturn]
      exact ⟨t, .cons _ hlow ht⟩

/-- An unbound lowest source is selected at every turn, whatever the other handlers are (R100). -/
theorem dispatch_unbound (h : Handlers) (turns : Nat) {s : State} (hlow : IsLowest (s.readPend g &&& s.readMask g) b)
    (hunbound : handlerOf s.cfg g b = 0) :
    dispatch h g turns s = { invoked := List.replicate turns (0, b), final := none } := by
  induction turns generalizing s with
  | zero => rfl
  | succ n ih =>
    have hreturn := withDefault_zero_result h g b (s.respond (0x8000 ||| b.setWidth 16) 0)
    rw [dispatch_lowest n hlow (by rw [hunbound]; exact hreturn), ih (s := s.respond _ _) hlow hunbound, hunbound,
      List.replicate_succ]

end

end Sys2Proof.Machine

open Sys2Proof Sys2Proof.Machine

/-- Settles O15, by the lowest bit of the pending and enabled sources. -/
theorem icVectorAnswersTheLowestSource : Obligations.IcVectorAnswersTheLowestSource := by
  unfold Obligations.IcVectorAnswersTheLowestSource
  intro s g
  refine ⟨rfl, exec_group_outside rfl, ?_⟩
  rintro grp rfl
  refine ⟨fun hnone => ?_, fun b hbit hlower => exec_icVector_lowest ⟨hbit, hlower⟩⟩
  rw [exec_icVector, vectorAnswer_quiet hnone]
  rfl

/-- Settles O16: the source enabled is pending and enabled, so there is a lowest such source, not above it. -/
theorem enableForcesADispatch : Obligations.EnableForcesADispatch := by
  unfold Obligations.EnableForcesADispatch
  intro s grp b hb
  have hactive := active_enable hb
  obtain ⟨b', -, hlow⟩ := exists_isLowest hactive
  exact ⟨_, exec_icEnable hb, irqOut_enable hb, hactive, b', _, hlow.le hactive, exec_icVector_lowest hlow⟩

/-- Settles O20, by induction on the turns: each serves the lowest source and leaves the higher ones to the rest. -/
theorem dispatchServesEverySourceInOrder : Obligations.DispatchServesEverySourceInOrder := by
  unfold Obligations.DispatchServesEverySourceInOrder
  intro s
  refine ⟨fun grp hbound => ?_, fun hhigh => ?_⟩
  · obtain ⟨t, ht⟩ := dispatch_serves 16 hbound fun b _ => Nat.le_add_left 16 b.toNat
    exact ⟨t, ht.final, ht.low, ht.ascending, ht.invoked, ht.mask, ht.adc, ht.res, ht.cal, ht.pins⟩
  · refine ⟨_, ?_, rfl, rfl⟩
    rw [serveCompletion_turn 1 hhigh (acknowledgingCompletion_result s), serveCompletion_quiet 0 rfl]
    rfl

/-- Settles O21, by induction on the turns: the default handler leaves the sources as they were. -/
theorem unboundSourceIsDispatchedForEver : Obligations.UnboundSourceIsDispatchedForEver := by
  unfold Obligations.UnboundSourceIsDispatchedForEver
  intro s grp b h turns hbit hlower hunbound
  rw [dispatch_unbound h turns ⟨hbit, hlower⟩ hunbound]
  exact ⟨rfl, rfl⟩

end

section
/-! The operations that leave the sequencer and the operation in progress alone, and the waits they cannot end (R120,
R142). -/

namespace Sys2Proof

/-- The operations that start, stop or set up the sequencer, or begin an operation of several steps (R120). -/
def Instr.drivesSequencer : Instr → Bool
  | .adcInit | .adcConfigure _ _ | .adcStartSw _ _ | .adcStartHw _ _ | .adcStart _ _ | .adcStop | .adcPowerOff
  | .calRails | .calPins | .calMeasureOffset | .calSelftest => true
  | _ => false

end Sys2Proof

namespace Sys2Proof.Machine

/-- From `s` to `t` the pins, the operation in progress and the sequencer stay, but for `eoc_pend` and `eoc_ie`. -/
structure SequencerKept (s t : State) : Prop where
  pins : t.pins = s.pins
  op : t.port.op = s.port.op
  adc : ∃ pend ie, t.adc = { s.adc with eocPend := pend, eocIe := ie }

section

variable {x : Input} {s t : State} {o : Operation}

theorem SequencerKept.of_adc (hpins : t.pins = s.pins) (hop : t.port.op = s.port.op) (hadc : t.adc = s.adc) :
    SequencerKept s t :=
  ⟨hpins, hop, s.adc.eocPend, s.adc.eocIe, hadc⟩

theorem sourceEvent_sequencerKept (g : Group) (b : BitVec 4) : SequencerKept s (sourceEvent g b s) := by
  unfold sourceEvent
  split <;> exact .of_adc rfl rfl rfl

/-- The other operations touch no more of the sequencer than the completion and its enable (R129, R130). -/
theorem effect_sequencerKept {i : Instr} (hi : i.drivesSequencer = false) (h : effect i s t) : SequencerKept s t := by
  cases i with
  | adcInit | adcConfigure _ _ | adcStartSw _ _ | adcStartHw _ _ | adcStart _ _ | adcStop | adcPowerOff
  | calRails | calPins | calMeasureOffset | calSelftest => cases hi
  | icInit | adcRdstat => cases h; exact .of_adc rfl rfl rfl
  | icEnable _ _ | icDisable _ _ | icAck _ _ => obtain ⟨_, -, -, rfl⟩ := h; exact .of_adc rfl rfl rfl
  | icVector _ | icRdpend _ | icRdmask _ => obtain ⟨_, -, rfl⟩ := h; exact .of_adc rfl rfl rfl
  | adcSelectTable _ _ _ => obtain ⟨_, -, -, rfl⟩ := h; exact .of_adc rfl rfl rfl
  | adcEocIe en => cases h; exact ⟨rfl, rfl, s.adc.eocPend, en, rfl⟩
  | adcEocAck => cases h; exact ⟨rfl, rfl, false, s.adc.eocIe, rfl⟩
  | adcRdres _ => obtain ⟨_, -, rfl⟩ := h; exact .of_adc rfl rfl rfl
  | calValidateOffset => obtain ⟨-, -, rfl⟩ := h; exact .of_adc rfl rfl rfl
  | getSupplyV | getMotorV | getPhaseV | getChipTemp _ => obtain ⟨_, -, -, rfl⟩ := h; exact .of_adc rfl rfl rfl
  | getCurRaw _ => obtain ⟨_, _, _, -, -, -, rfl⟩ := h; exact .of_adc rfl rfl rfl
  | getCurScaled _ => obtain ⟨_, _, _, -, -, -, -, rfl⟩ := h; exact .of_adc rfl rfl rfl

/-- An operation that drives the sequencer is accepted between operations only (R120). -/
theorem effect_not_busy {i : Instr} (hi : i.drivesSequencer = true) (h : effect i s t) : s.adc.busyOp = false := by
  cases i with
  | adcInit | adcStop => obtain ⟨-, hbusy, -⟩ := h; exact hbusy
  | adcConfigure _ _ | adcStartSw _ _ | adcStartHw _ _ | adcPowerOff => obtain ⟨-, hbusy, -, -⟩ := h; exact hbusy
  | adcStart _ _ => obtain ⟨_, -, -, hbusy, -, -⟩ := h; exact hbusy
  | calRails | calPins | calMeasureOffset | calSelftest => obtain ⟨-, hbusy, -, -⟩ := h; exact hbusy
  | _ => cases hi

/-! ### The waits -/

theorem State.Inv.is_busy (hinv : s.Inv) (hop : s.port.op = some o) : s.adc.busyOp = true := by
  rw [hinv.busy, hop]; rfl

/-- The operation `o` is in progress, the start flag set and the sequencer busy. -/
structure Waiting (o : Operation) (s : State) : Prop where
  op : s.port.op = some o
  start : s.adc.start = true
  busy : s.adc.busyOp = true

theorem Waiting.of_kept (hw : Waiting o s) (h : SequencerKept s t) : Waiting o t := by
  obtain ⟨hop, hstart, hbusy⟩ := hw
  obtain ⟨-, hkept, pend, ie, hadc⟩ := h
  refine ⟨hkept.trans hop, ?_, ?_⟩
  · rw [hadc]; exact hstart
  · rw [hadc]; exact hbusy

/-- While the flag is set, the step of a wait changes nothing (R142). -/
theorem runPhase_wait (hp : o.phase = .swWait ∨ o.phase = .drainWait) (hstart : s.adc.start = true) :
    runPhase o s = .next s := by
  rcases hp with hp | hp <;> simp [runPhase, hp, hstart]

/-- An input that is no complete step leaves an operation at its wait (R142). -/
theorem runInput_waiting (hp : o.phase = .swWait ∨ o.phase = .drainWait) (hx : ∀ d, x ≠ .engineComplete d)
    (hw : Waiting o s) (h : runInput x s = .next t) : Waiting o t := by
  rcases runInput_next h with ⟨cw, rfl, ⟨code, rfl⟩ | ⟨i, -, h⟩⟩ | ⟨rfl, -, rfl⟩ | ⟨o', rfl, ho', h⟩ | ⟨g, b, rfl, rfl⟩ |
    ⟨event, -, h⟩ | ⟨draw, rfl, -⟩
  · exact hw.of_kept (.of_adc rfl rfl rfl)
  · cases hi : i.drivesSequencer with
    | false => exact hw.of_kept (effect_sequencerKept hi h)
    | true => exact absurd (hw.busy.symm.trans (effect_not_busy hi h)) Bool.noConfusion
  · exact hw
  · obtain rfl : o' = o := Option.some.inj (ho'.symm.trans hw.op)
    rw [runPhase_wait hp hw.start] at h
    cases h
    exact hw
  · exact hw.of_kept (sourceEvent_sequencerKept g b)
  · rcases engineBegin_next h with rfl | ⟨e, -, -, -, -, rfl⟩
    · exact hw
    · exact ⟨hw.op, hw.start, hw.busy⟩
  · exact absurd rfl (hx draw)

end

end Sys2Proof.Machine

open Sys2Proof Sys2Proof.Machine

/-- Settles O60, by induction on the inputs: each leaves the operation at its wait. -/
theorem waitsHaveNoTimeout : Obligations.WaitsHaveNoTimeout := by
  unfold Obligations.WaitsHaveNoTimeout
  intro xs s t o hinv hop hp hstart hno hrun
  have hwait : Waiting o s := ⟨hop, hstart, hinv.is_busy hop⟩
  clear hinv hop hstart
  suffices hend : Waiting o t from ⟨hend.op, hend.start, hend.busy⟩
  induction xs generalizing s with
  | nil => cases hrun; exact hwait
  | cons x xs ih =>
    obtain ⟨u, hx, hxs⟩ := runInputs_cons_next hrun
    have hx' : ∀ d, x ≠ .engineComplete d := fun d hd => hno d (by simp [hd])
    exact ih u (fun d hd => hno d (by simp [hd])) hxs (runInput_waiting hp hx' hwait hx)

end

section
/-! The moves of the sequencer's state machine (R120): which input may make each, said once for every step. -/

namespace Sys2Proof.Machine

open Sys2Proof.Claims

/-- Every way input `x` can move the sequencer's state `q` while the tasks `tasks` and the phases `phases` are due (R120). -/
inductive StateMove (x : Input) (tasks : Task → Prop) (phases : Phase → Prop) (q : AdcState) : AdcState → Prop
  | stay : StateMove x tasks phases q q
  | startPass (hq : q = .idle) (hx : (∃ table dest, x.isCommand (.adcStartSw table dest)) ∨
      (x = .proceed ∧ (tasks .refOff ∨ ∃ ch, tasks (.measure ch)))) : StateMove x tasks phases q .runSW
  | endPass (hq : q = .runSW) (hx : x = .proceed ∧ phases .swFinish) : StateMove x tasks phases q .idle
  | startLoop (hq : q = .idle) (hx : (∃ table dest, x.isCommand (.adcStartHw table dest)) ∨
      ∃ top index, x.isCommand (.adcStart top index)) : StateMove x tasks phases q .runHW
  | endStop (hq : q = .runHW) (hx : x = .proceed ∧ phases .stopIdle) : StateMove x tasks phases q .idle

/-- The sequencer's state moves from `s` to `t` only as `x` may move it. -/
def MoveAllowed (x : Input) (s t : State) : Prop :=
  StateMove x (dueTask s) (duePhase s) s.adc.state t.adc.state

section

variable {x : Input} {s t : State} {o : Operation}

theorem MoveAllowed.of_state (h : t.adc.state = s.adc.state) : MoveAllowed x s t := by
  unfold MoveAllowed
  rw [h]
  exact .stay

theorem MoveAllowed.of_kept (h : SequencerKept s t) : MoveAllowed x s t := by
  obtain ⟨-, -, pend, ie, hadc⟩ := h
  exact .of_state (by rw [hadc])

theorem opHolds_some (hop : s.port.op = some o) :
    s.opHolds ↔ o.phase.holds s.adc ∧ ∀ k ∈ o.todo, k.tableReady s := by
  simp only [State.opHolds, hop]

/-- What the invariant says of the operation in progress. -/
theorem State.Inv.op_some (hinv : s.Inv) (hop : s.port.op = some o) :
    o.phase.holds s.adc ∧ ∀ k ∈ o.todo, k.tableReady s :=
  (opHolds_some hop).mp hinv.op

theorem loopEffect_moveAllowed {table dest : Word} (h : loopEffect table dest s t)
    (hx : (∃ table dest, x.isCommand (.adcStartHw table dest)) ∨ ∃ top index, x.isCommand (.adcStart top index)) :
    MoveAllowed x s t := by
  obtain ⟨hidle, -, -, rfl⟩ := h
  split <;> exact .startLoop hidle hx

/-- Only the three starts move the state in an operation's first step. -/
theorem effect_moveAllowed {cw : CommandWord} {i : Instr} (hdec : decode cw = .ok i) (h : effect i s t) :
    MoveAllowed (.command cw) s t := by
  have hx : (Input.command cw).isCommand i := ⟨cw, rfl, hdec⟩
  cases hi : i.drivesSequencer with
  | false => exact .of_kept (effect_sequencerKept hi h)
  | true =>
    cases i with
    | adcInit => obtain ⟨-, -, rfl⟩ := h; exact .of_state rfl
    | adcConfigure _ _ => obtain ⟨-, -, -, rfl⟩ := h; exact .of_state rfl
    | adcStartSw table dest => obtain ⟨hidle, -, -, rfl⟩ := h; exact .startPass hidle (.inl ⟨table, dest, hx⟩)
    | adcStartHw table dest => exact loopEffect_moveAllowed h (.inl ⟨table, dest, hx⟩)
    | adcStart top index => obtain ⟨_, -, h⟩ := h; exact loopEffect_moveAllowed h (.inr ⟨top, index, hx⟩)
    | adcStop => obtain ⟨-, -, rfl⟩ := h; exact .of_state (by simp [stopFirst_frame])
    | adcPowerOff => obtain ⟨-, -, -, rfl⟩ := h; exact .of_state (by simp [stopFirst_frame])
    | calRails | calPins | calMeasureOffset | calSelftest => obtain ⟨-, -, -, rfl⟩ := h; exact .of_state (by simp)
    | _ => cases hi

/-- A task that is due finds the sequencer `Idle`; the reference-off pass and a measurement start a software pass. -/
theorem runTask_moveAllowed {k : Task} (hidle : s.adc.state = .idle) (hdue : dueTask s k) :
    MoveAllowed .proceed s (runTask k o s) := by
  cases k with
  | refOff => exact .startPass hidle (.inr ⟨rfl, .inl hdue⟩)
  | measure ch => exact .startPass hidle (.inr ⟨rfl, .inr ⟨ch, hdue⟩⟩)
  | _ => exact .of_state (by simp [runTask])

theorem passDone_state (h : passDone o s = .next t) : t.adc.state = .idle := by
  unfold passDone at h
  split at h
  · cases h; rfl
  · obtain ⟨_, -, h⟩ := withRes_next.mp h
    cases h; rfl

/-- The end of a pass and the last step of a stop lead to `Idle`, a due task may lead out of it; no other step moves. -/
theorem runPhase_moveAllowed (hinv : s.Inv) (hop : s.port.op = some o) (h : runPhase o s = .next t) :
    MoveAllowed .proceed s t := by
  obtain ⟨hphase, -⟩ := hinv.op_some hop
  cases hp : o.phase <;> simp only [runPhase, hp] at h <;> simp only [hp, Phase.holds] at hphase
  case swSettle | swTrigger | hwSettle | hwArm | drainTrigger | stopCtrl | stopEoc => cases h; exact .of_state rfl
  case swWait | drainWait => cases h; split <;> exact .of_state rfl
  case swFinish =>
    unfold MoveAllowed
    rw [passDone_state h]
    exact .endPass hphase.1 ⟨rfl, o, hop, hp⟩
  case stopIdle =>
    cases h
    have hidle : (stopDone o s).adc.state = .idle := by simp [stopDone]
    obtain ⟨hstop, -⟩ := hphase
    cases hs : s.adc.state with
    | idle => exact .of_state (hidle.trans hs.symm)
    | runSW => exact absurd hs hstop
    | runHW =>
      unfold MoveAllowed
      rw [hidle]
      exact .endStop hs ⟨rfl, o, hop, hp⟩
  case task =>
    split at h
    · cases h; exact .of_state rfl
    · rename_i k rest htodo
      cases h
      exact runTask_moveAllowed hphase.1 ⟨o, rest, hop, hp, htodo⟩

theorem runInput_moveAllowed (hinv : s.Inv) (h : runInput x s = .next t) : MoveAllowed x s t := by
  rcases runInput_next h with ⟨cw, rfl, ⟨code, rfl⟩ | ⟨i, hdec, h⟩⟩ | ⟨rfl, -, rfl⟩ | ⟨o, rfl, hop, h⟩ | ⟨g, b, rfl, rfl⟩ |
    ⟨event, -, h⟩ | ⟨draw, rfl, h⟩
  · exact .of_state rfl
  · exact effect_moveAllowed hdec h
  · exact .of_state rfl
  · exact runPhase_moveAllowed hinv hop h
  · exact .of_kept (sourceEvent_sequencerKept g b)
  · rcases engineBegin_next h with rfl | ⟨e, -, -, -, -, rfl⟩ <;> exact .of_state rfl
  · rcases engineComplete_next h with ⟨-, rfl⟩ | ⟨s1, e, -, -, -, rfl⟩
    · exact .of_state rfl
    · exact .of_state (by rw [Sequencer.completed_eq])

theorem step_moveAllowed (hinv : s.Inv) (h : step s = .next t) : MoveAllowed s.nextInput s t := by
  have := runInput_moveAllowed hinv.dropInput h
  rwa [MoveAllowed, dueTask_dropInput, duePhase_dropInput, State.dropInput_adc] at this

end

end Sys2Proof.Machine

open Sys2Proof Sys2Proof.Machine

/-- Settles O36: each move of the state is one that the input taken is allowed to make. -/
theorem sequencerTransitionsAreExactly : Obligations.SequencerTransitionsAreExactly := by
  unfold Obligations.SequencerTransitionsAreExactly
  intro s t hinv h hne
  have hmove := step_moveAllowed hinv h
  unfold MoveAllowed at hmove
  generalize t.adc.state = q at hmove hne ⊢
  cases hmove with
  | stay => exact absurd rfl hne
  | startPass hidle hx => exact .inl ⟨hidle, rfl, hx⟩
  | endPass hrun hx => exact .inr (.inl ⟨hrun, rfl, hx⟩)
  | startLoop hidle hx => exact .inr (.inr (.inl ⟨hidle, rfl, hx⟩))
  | endStop hrun hx => exact .inr (.inr (.inr ⟨hrun, rfl, hx⟩))

end

section
/-! Every step keeps the invariant (R15, R20, R53, R120): the registers' unimplemented bits, and the agreement of the
operation in progress, the sequencer and its active table. -/

namespace Sys2Proof.Machine

/-- A whole table stands at the source base, the pointer inside it and its results in RES; see `State.tableHolds`. -/
def ActiveTable (c : Config) (q : Sequencer) : Prop :=
  ∃ es, tableEntries c q.sbase.toNat = some es ∧ 1 ≤ es.length ∧ q.idx.toNat ≤ es.length ∧
    (q.inflight = true ∨ q.state = .runHW → q.idx.toNat < es.length) ∧ q.dbase.toNat + es.length - 1 < c.resWords

theorem tableHolds_iff {s : State} : s.tableHolds ↔ (s.adc.state ≠ .idle → ActiveTable s.cfg s.adc) := Iff.rfl

/-- The operation in progress, the sequencer and the active table agree: the part of the invariant that the sequencer's
steps move. -/
structure State.Consistent (s : State) : Prop where
  busy : s.adc.busyOp = s.port.op.isSome
  op : s.opHolds
  table : s.tableHolds

/-- The bits of unimplemented sources are 0 in both registers (R15). -/
def State.unimplementedClear (s : State) : Prop :=
  ∀ g, s.ic.pend.get g &&& ~~~ implementedBits s.cfg g = 0#16 ∧ s.ic.mask.get g &&& ~~~ implementedBits s.cfg g = 0#16

section

variable {x : Input} {s t : State} {o : Operation} {c : Config} {q : Sequencer} {p : Phase}

/-! ### What an agreeing operation says of the control register -/

theorem opHolds_none (hop : s.port.op = none) : s.opHolds ↔
    (s.adc.state = .idle ∧ s.adc.ctrl = 0#16 ∧ s.adc.quiet) ∨
      (s.adc.state = .runHW ∧ s.adc.ctrl = 3#16 ∧ s.adc.start = false) := by
  simp only [State.opHolds, hop]

/-- Every phase fixes the control register, and an idle sequencer is quiet in it. -/
theorem Phase.holds_ctrl (h : p.holds q) :
    (q.ctrl = 0#16 ∨ q.ctrl = 2#16) ∧ (q.state = .idle → q.ctrl = 0#16 ∧ q.quiet) := by
  cases p <;> simp only [Phase.holds] at h <;> obtain ⟨hstate, hctrl, hrest⟩ := h
  case task | stopEoc | stopIdle => exact ⟨.inl hctrl, fun _ => ⟨hctrl, hrest⟩⟩
  all_goals simp [hstate, hctrl]

theorem State.opHolds.ctrl (h : s.opHolds) : s.adc.ctrl = 0#16 ∨ s.adc.ctrl = 2#16 ∨ s.adc.ctrl = 3#16 := by
  cases hop : s.port.op with
  | none =>
    rcases (opHolds_none hop).mp h with ⟨-, hctrl, -⟩ | ⟨-, hctrl, -⟩
    · exact .inl hctrl
    · exact .inr (.inr hctrl)
  | some o =>
    obtain ⟨hphase, -⟩ := (opHolds_some hop).mp h
    exact (Phase.holds_ctrl hphase).1.imp_right .inl

theorem State.opHolds.idle_quiet (h : s.opHolds) (hidle : s.adc.state = .idle) : s.adc.ctrl = 0#16 ∧ s.adc.quiet := by
  cases hop : s.port.op with
  | none =>
    rcases (opHolds_none hop).mp h with ⟨-, hquiet⟩ | ⟨hrun, -⟩
    · exact hquiet
    · rw [hidle] at hrun; cases hrun
  | some o =>
    obtain ⟨hphase, -⟩ := (opHolds_some hop).mp h
    exact (Phase.holds_ctrl hphase).2 hidle

/-- The agreement, with the parts of the invariant that other lemmas keep, is the invariant. -/
theorem State.Consistent.inv (h : s.Consistent) (hcfg : s.cfg.wf = true) (hres : s.resWf = true)
    (hclear : s.unimplementedClear) : s.Inv where
  cfg := hcfg
  res := hres
  unimplemented := hclear
  ctrlReserved := by rcases h.op.ctrl with hctrl | hctrl | hctrl <;> rw [hctrl] <;> rfl
  idleQuiet hidle := by
    obtain ⟨hctrl, hinflight, hstart⟩ := h.op.idle_quiet hidle
    exact ⟨hinflight, hstart, hctrl⟩
  busy := h.busy
  op := h.op
  table := h.table

theorem State.Inv.consistent (hinv : s.Inv) : s.Consistent := ⟨hinv.busy, hinv.op, hinv.table⟩

theorem State.Inv.op_none (hinv : s.Inv) (hbusy : s.adc.busyOp = false) : s.port.op = none := by
  rw [hinv.busy] at hbusy
  simpa using hbusy

theorem State.Inv.idle_task (hinv : s.Inv) (hidle : s.adc.state = .idle) : Phase.task.holds s.adc :=
  ⟨hidle, hinv.op.idle_quiet hidle⟩

theorem State.Inv.not_busy (hinv : s.Inv) (hop : s.port.op = none) : s.adc.busyOp = false := by
  rw [hinv.busy, hop]; rfl

/-- Between operations the sequencer is `Idle`, or in the hardware loop with both control bits set (R20, R124). -/
theorem State.Inv.loop_between (hinv : s.Inv) (hop : s.port.op = none) (hrun : s.adc.state ≠ .idle) :
    s.adc.state = .runHW ∧ s.adc.ctrl = 3#16 ∧ s.adc.start = false :=
  ((opHolds_none hop).mp hinv.op).resolve_left fun h => hrun h.1

/-! ### How the agreement comes about -/

theorem State.Consistent.of_idle (hop : s.port.op = none) (hbusy : s.adc.busyOp = false)
    (hidle : Phase.task.holds s.adc) : s.Consistent :=
  ⟨by rw [hbusy, hop]; rfl, (opHolds_none hop).mpr (.inl hidle), fun hrun => absurd hidle.1 hrun⟩

theorem State.Consistent.of_op (hop : s.port.op = some o) (hbusy : s.adc.busyOp = true) (hphase : o.phase.holds s.adc)
    (htodo : ∀ k ∈ o.todo, k.tableReady s) (htable : s.adc.state ≠ .idle → ActiveTable s.cfg s.adc) : s.Consistent :=
  ⟨by rw [hbusy, hop]; rfl, (opHolds_some hop).mpr ⟨hphase, htodo⟩, htable⟩

theorem State.Consistent.of_loop (hop : s.port.op = none) (hbusy : s.adc.busyOp = false) (hstate : s.adc.state = .runHW)
    (hctrl : s.adc.ctrl = 3#16) (hstart : s.adc.start = false) (htable : ActiveTable s.cfg s.adc) : s.Consistent :=
  ⟨by rw [hbusy, hop]; rfl, (opHolds_none hop).mpr (.inr ⟨hstate, hctrl, hstart⟩), fun _ => htable⟩

theorem ActiveTable.of_tableOk {mode : TableMode} (h : tableOk c q.sbase.toNat q.dbase.toNat mode = true)
    (hidx : q.idx = 0#16) : ActiveTable c q := by
  obtain ⟨es, hes, hlen, -, hres⟩ := tableOk_iff.mp h
  have hzero : q.idx.toNat = 0 := by rw [hidx]; rfl
  exact ⟨es, hes, hlen, by omega, fun _ => by omega, hres⟩

/-- The reference-off table is a table of one entry, whose result word is in RES (R126). -/
theorem ActiveTable.of_refoffOk (hc : c.wf = true) (h : refoffOk c = true) (hsbase : q.sbase = c.refoffTable)
    (hdbase : q.dbase = 0#16) (hidx : q.idx = 0#16) : ActiveTable c q := by
  obtain ⟨-, -, -, hscratch, -⟩ := Config.wf_sizes hc
  refine ⟨[0x07FF#16], ?_, Nat.le_refl 1, ?_, fun _ => ?_, ?_⟩
  · rw [hsbase]; exact tableEntries_seqHolds h rfl rfl
  · rw [hidx]; exact Nat.zero_le 1
  · rw [hidx]; exact Nat.one_pos
  · rw [hdbase]
    simp
    omega

/-- The self-test tables that are present stand below 2^16 (R161). -/
theorem stTable_toNat (hc : c.wf = true) {ch : BitVec 8} (h : stTableOk c ch = true) :
    (BitVec.ofNat 16 (stTable c ch)).toNat = stTable c ch := by
  obtain ⟨hseq, -⟩ := Config.wf_sizes hc
  simp only [stTableOk, seqHolds, Bool.and_eq_true, decide_eq_true_eq] at h
  rw [BitVec.toNat_ofNat]
  exact Nat.mod_eq_of_lt (by omega)

/-! ### Inputs that leave the sequencer alone -/

/-- A present table stays present; a pin that is no output any more needs none. -/
theorem tableReady_of_subset {k : Task} (hcfg : t.cfg = s.cfg)
    (hoe : ∀ i, t.pins.gpioOe.getLsbD i = true → s.pins.gpioOe.getLsbD i = true) (h : k.tableReady s) :
    k.tableReady t := by
  cases k with
  | pin i =>
    simp only [Task.tableReady, hcfg] at h ⊢
    exact fun hi => h (hoe i hi)
  | refOff | measure _ | forceDriver => simpa only [Task.tableReady, hcfg] using h
  | railsVerdict | drivePin _ _ | pinVerdict _ | restoreDriver _ | averageOffset | validateOffset => trivial

theorem tableReady_congr {k : Task} (hcfg : t.cfg = s.cfg) (hpins : t.pins = s.pins) (h : k.tableReady s) :
    k.tableReady t :=
  tableReady_of_subset hcfg (fun i => by rw [hpins]; exact id) h

theorem State.Consistent.of_kept (h : s.Consistent) (hcfg : t.cfg = s.cfg) (hkept : SequencerKept s t) : t.Consistent := by
  obtain ⟨hbusy, hop, htable⟩ := h
  obtain ⟨hpins, hport, pend, ie, hadc⟩ := hkept
  refine ⟨by rw [hadc, hport]; exact hbusy, ?_, ?_⟩
  · cases ho : s.port.op with
    | none =>
      rw [opHolds_none (hport.trans ho), hadc]
      exact (opHolds_none ho).mp hop
    | some o =>
      obtain ⟨hphase, htodo⟩ := (opHolds_some ho).mp hop
      rw [opHolds_some (hport.trans ho), hadc]
      exact ⟨hphase, fun k hk => tableReady_congr hcfg hpins (htodo k hk)⟩
  · rw [tableHolds_iff, hcfg, hadc]
    exact htable

/-! ### The first step of an operation -/

theorem loopEffect_consistent {table dest : Word} (hinv : s.Inv) (h : loopEffect table dest s t) : t.Consistent := by
  obtain ⟨hidle, hbusy, htable, rfl⟩ := h
  obtain ⟨-, hctrl, hinflight, hstart⟩ := hinv.idle_task hidle
  have hop := hinv.op_none hbusy
  split
  · exact .of_loop hop hbusy rfl rfl hstart (.of_tableOk htable rfl)
  · exact .of_op rfl rfl ⟨rfl, hctrl, hinflight, hstart⟩ nofun fun _ => .of_tableOk htable rfl

/-- A stop begins with the hardware loop disarmed, or from a quiet `Idle` (R125). -/
theorem stopFirst_consistent {todo : List Task} (hinv : s.Inv) (hbusy : s.adc.busyOp = false)
    (htodo : ∀ k ∈ todo, k.tableReady s) : (stopFirst todo s).Consistent := by
  unfold stopFirst
  by_cases hidle : s.adc.state = .idle
  · obtain ⟨-, -, hquiet⟩ := hinv.idle_task hidle
    rw [if_neg (by simp [hidle])]
    exact .of_op rfl rfl ⟨by simp [hidle], rfl, hquiet⟩ (fun k hk => tableReady_congr rfl rfl (htodo k hk)) hinv.table
  · obtain ⟨hrun, hctrl, hstart⟩ := hinv.loop_between (hinv.op_none hbusy) hidle
    rw [if_pos (by simp [hrun])]
    refine .of_op rfl rfl ⟨hrun, ?_, hstart⟩ (fun k hk => tableReady_congr rfl rfl (htodo k hk)) hinv.table
    simp only [State.issueOp_adc, hctrl]
    rfl

/-- A calibration operation begins from a quiet `Idle`, and is done at once when it has no task (R162 to R166). -/
theorem issueTasks_consistent {todo : List Task} {a : Answer} (hidle : Phase.task.holds s.adc)
    (htodo : ∀ k ∈ todo, k.tableReady s) : (s.issueTasks todo a).Consistent := by
  have hphase : Phase.task.holds (s.issueTasks todo a).adc := by rw [State.issueTasks_adc]; exact hidle
  cases todo with
  | nil => exact .of_idle (by simp) (by simp) hphase
  | cons k rest =>
    refine .of_op (o := Operation.fresh .task (k :: rest) a) (by simp) (by simp) hphase ?_ fun hrun => absurd hphase.1 hrun
    exact fun j hj => tableReady_congr (by simp) (by simp) (htodo j hj)

theorem railsTasks_ready (h : railTablesOk s = true) : ∀ k ∈ railsTasks, k.tableReady s := by
  simp only [railTablesOk, Bool.and_eq_true] at h
  obtain ⟨h0, h1⟩ := h
  simp [railsTasks, Task.tableReady, h0, h1]

theorem pinsTasks_ready (h : pinTablesOk s = true) : ∀ k ∈ pinsTasks s.cfg, k.tableReady s := by
  simp only [pinTablesOk, List.all_eq_true, Bool.or_eq_true, Bool.not_eq_true'] at h
  intro k hk
  obtain ⟨i, hi, rfl⟩ := List.mem_map.mp hk
  exact fun hoe => (h i hi).resolve_left (by simp [hoe])

theorem offsetTasks_ready (h : zeroTableOk s = true) : ∀ k ∈ offsetTasks, k.tableReady s := by
  simpa [offsetTasks, Task.tableReady, zeroTableOk] using h

theorem selftestTasks_ready (hrails : railTablesOk s = true) (hpins : pinTablesOk s = true) (hzero : zeroTableOk s = true) :
    ∀ k ∈ railsTasks ++ pinsTasks s.cfg ++ offsetTasks ++ [.validateOffset], k.tableReady s := by
  simp only [List.mem_append, List.mem_singleton]
  rintro k (((hk | hk) | hk) | rfl)
  · exact railsTasks_ready hrails k hk
  · exact pinsTasks_ready hpins k hk
  · exact offsetTasks_ready hzero k hk
  · exact trivial

/-- The first step of an operation keeps the agreement: it starts from a state that allows it (R120). -/
theorem effect_consistent {i : Instr} (hinv : s.Inv) (hcfg : t.cfg = s.cfg) (h : effect i s t) : t.Consistent := by
  cases hi : i.drivesSequencer with
  | false => exact hinv.consistent.of_kept hcfg (effect_sequencerKept hi h)
  | true =>
    have hbusy := effect_not_busy hi h
    have hop := hinv.op_none hbusy
    cases i with
    | adcInit => obtain ⟨hidle, -, rfl⟩ := h; exact .of_idle hop hbusy ⟨hidle, rfl, rfl, rfl⟩
    | adcConfigure _ _ => obtain ⟨hidle, -, -, rfl⟩ := h; exact .of_idle hop hbusy (hinv.idle_task hidle)
    | adcStartSw _ _ =>
      obtain ⟨hidle, -, htable, rfl⟩ := h
      obtain ⟨-, -, hquiet⟩ := hinv.idle_task hidle
      exact .of_op rfl rfl ⟨rfl, rfl, hquiet⟩ nofun fun _ => .of_tableOk htable rfl
    | adcStartHw _ _ => exact loopEffect_consistent hinv h
    | adcStart _ _ => obtain ⟨_, -, h⟩ := h; exact loopEffect_consistent hinv h
    | adcStop => obtain ⟨-, -, rfl⟩ := h; exact stopFirst_consistent hinv hbusy nofun
    | adcPowerOff =>
      obtain ⟨-, -, hrefoff, rfl⟩ := h
      exact stopFirst_consistent hinv hbusy (by simpa [Task.tableReady] using hrefoff)
    | calRails =>
      obtain ⟨hidle, -, hrails, rfl⟩ := h
      exact issueTasks_consistent (hinv.idle_task hidle) (railsTasks_ready hrails)
    | calPins =>
      obtain ⟨hidle, -, hpins, rfl⟩ := h
      exact issueTasks_consistent (hinv.idle_task hidle) (pinsTasks_ready hpins)
    | calMeasureOffset =>
      obtain ⟨hidle, -, hzero, rfl⟩ := h
      exact issueTasks_consistent (hinv.idle_task hidle) (offsetTasks_ready hzero)
    | calSelftest =>
      obtain ⟨hidle, -, ⟨hrails, hpins, hzero⟩, rfl⟩ := h
      exact issueTasks_consistent (hinv.idle_task hidle) (selftestTasks_ready hrails hpins hzero)
    | _ => cases hi

/-! ### The later steps of an operation -/

/-- From a quiet `Idle` an operation goes on with its next task, or ends. -/
theorem nextTask_consistent (hidle : Phase.task.holds s.adc) (hbusy : s.adc.busyOp = true)
    (htodo : ∀ k ∈ o.todo, k.tableReady s) : (s.nextTask o).Consistent := by
  rcases nextTask_cases s o with ⟨-, h⟩ | ⟨-, h⟩ <;> rw [h]
  · exact .of_idle rfl rfl hidle
  · exact .of_op rfl hbusy hidle (fun k hk => tableReady_congr rfl rfl (htodo k hk)) fun hrun => absurd hidle.1 hrun

theorem getLsbD_setPin_false {v : BitVec 32} {i j : Nat} (h : (setPin v i false).getLsbD j = true) :
    v.getLsbD j = true := by
  simp only [setPin, Bool.false_eq_true, if_false, BitVec.getLsbD_and, Bool.and_eq_true] at h
  exact h.1

/-- The pin verdict may take a pin out of output mode, and puts none into it (R163). -/
theorem recordPin_gpioOe (i : Nat) (vh vl : Word) {j : Nat} (h : (s.recordPin i vh vl).pins.gpioOe.getLsbD j = true) :
    s.pins.gpioOe.getLsbD j = true := by
  unfold State.recordPin at h
  split at h
  · exact h
  · exact getLsbD_setPin_false h

theorem pinCheck_ready {i : Nat} {orig : Bool} (h : stTableOk s.cfg (chGpio i) = true) :
    ∀ k ∈ pinCheck i orig, k.tableReady s := by
  simp [pinCheck, Task.tableReady, h]

theorem offsetMeasure_ready {saved : Word} (h : stTableOk s.cfg s.cfg.chZero = true) :
    ∀ k ∈ offsetMeasure s.cfg saved, k.tableReady s := by
  simp [offsetMeasure, Task.tableReady, h]

/-- A task that is due, its table present, keeps the agreement (R126, R161 to R166). -/
theorem runTask_consistent {k : Task} (hc : s.cfg.wf = true) (hidle : Phase.task.holds s.adc) (hbusy : s.adc.busyOp = true)
    (hk : k.tableReady s) (htodo : ∀ j ∈ o.todo, j.tableReady s) : (runTask k o s).Consistent := by
  have hready : ∀ {u : State}, u.cfg = s.cfg → u.pins = s.pins → ∀ j ∈ o.todo, j.tableReady u :=
    fun hcfg hpins j hj => tableReady_congr hcfg hpins (htodo j hj)
  have ⟨_, hctrl, hquiet⟩ := hidle
  cases k with
  | refOff =>
    refine .of_op rfl hbusy ⟨rfl, hctrl, nofun⟩ (hready rfl rfl) fun _ => ?_
    exact .of_refoffOk hc hk rfl rfl rfl
  | measure ch =>
    have htable : tableOk s.cfg (BitVec.ofNat 16 (stTable s.cfg ch)).toNat s.cfg.scratchBase.toNat .sw = true := by
      rw [stTable_toNat hc hk]
      simp only [Task.tableReady, stTableOk, Bool.and_eq_true] at hk
      exact hk.2
    exact .of_op rfl hbusy ⟨rfl, rfl, hquiet⟩ (hready rfl rfl) fun _ => .of_tableOk htable rfl
  | railsVerdict =>
    exact nextTask_consistent (by simpa using hidle) (by simpa using hbusy) (hready (by simp) (by simp))
  | pinVerdict i =>
    refine nextTask_consistent (by simpa using hidle) (by simpa using hbusy) fun j hj => ?_
    exact tableReady_of_subset (by simp) (fun _ => recordPin_gpioOe i _ _) (htodo j hj)
  | pin i =>
    refine nextTask_consistent hidle hbusy fun j hj => ?_
    rcases List.mem_append.mp hj with hj | hj
    · split at hj
      · rename_i hoe
        exact pinCheck_ready (hk hoe) j hj
      · cases hj
    · exact htodo j hj
  | forceDriver =>
    simp only [runTask]
    refine nextTask_consistent hidle hbusy fun j hj => ?_
    rcases List.mem_append.mp hj with hj | hj
    · exact tableReady_of_subset rfl (fun _ => id) (offsetMeasure_ready hk j hj)
    · exact tableReady_of_subset rfl (fun _ => id) (htodo j hj)
  | drivePin _ _ | restoreDriver _ =>
    exact nextTask_consistent hidle hbusy fun j hj => tableReady_of_subset rfl (fun _ => id) (htodo j hj)
  | averageOffset | validateOffset => exact nextTask_consistent hidle hbusy (hready rfl rfl)

/-- The end of a pass leaves the sequencer `Idle`, the operation at its next task or over (R123, R126, R161). -/
theorem passDone_consistent (hquiet : s.adc.ctrl = 0#16 ∧ s.adc.quiet) (hbusy : s.adc.busyOp = true)
    (htodo : ∀ k ∈ o.todo, k.tableReady s) (h : passDone o s = .next t) : t.Consistent := by
  have hidle : Phase.task.holds { s.adc with state := .idle } := ⟨rfl, hquiet⟩
  unfold passDone at h
  split at h
  · cases h
    exact .of_idle rfl rfl hidle
  · obtain ⟨v, -, h⟩ := withRes_next.mp h
    cases h
    exact .of_op rfl hbusy hidle (fun k hk => tableReady_congr rfl rfl (htodo k hk)) fun hrun => absurd rfl hrun

/-- The next step of the operation in progress leads from what its phase says of the sequencer to what the next one says. -/
theorem runPhase_consistent (hinv : s.Inv) (hop : s.port.op = some o) (h : runPhase o s = .next t) : t.Consistent := by
  obtain ⟨hphase, htodo⟩ := hinv.op_some hop
  have hbusy := hinv.is_busy hop
  have hready : ∀ {u : State}, u.cfg = s.cfg → u.pins = s.pins → ∀ k ∈ o.todo, k.tableReady u :=
    fun hcfg hpins k hk => tableReady_congr hcfg hpins (htodo k hk)
  cases hp : o.phase <;> simp only [runPhase, hp] at h <;> simp only [hp, Phase.holds] at hphase
  case swSettle | hwSettle => cases h; exact .of_op rfl hbusy hphase (hready rfl rfl) hinv.table
  case swTrigger | drainTrigger =>
    obtain ⟨hstate, hctrl, -⟩ := hphase
    cases h
    exact .of_op rfl hbusy ⟨hstate, hctrl, nofun⟩ (hready rfl rfl) hinv.table
  case swWait | drainWait =>
    cases h
    split
    · exact hinv.consistent
    · rename_i hstart
      obtain ⟨hstate, hctrl, hwait⟩ := hphase
      have hstart := Bool.eq_false_of_not_eq_true hstart
      exact .of_op rfl hbusy ⟨hstate, hctrl, hwait hstart, hstart⟩ (hready rfl rfl) hinv.table
  case swFinish => exact passDone_consistent hphase.2 hbusy htodo h
  case hwArm =>
    obtain ⟨hstate, -, -, hstart⟩ := hphase
    cases h
    exact ⟨rfl, .inr ⟨hstate, rfl, hstart⟩, hinv.table⟩
  case stopCtrl =>
    obtain ⟨hstate, -, hquiet⟩ := hphase
    cases h
    exact .of_op rfl hbusy ⟨by simp [hstate], rfl, hquiet⟩ (hready rfl rfl) hinv.table
  case stopEoc => cases h; exact .of_op rfl hbusy hphase (hready rfl rfl) hinv.table
  case stopIdle =>
    cases h
    exact nextTask_consistent ⟨rfl, hphase.2⟩ hbusy (hready rfl rfl)
  case task =>
    split at h
    · cases h
      exact .of_idle rfl rfl hphase
    · rename_i k rest hlist
      rw [hlist] at htodo
      cases h
      exact runTask_consistent hinv.cfg hphase hbusy (htodo k (by simp)) fun j hj => htodo j (by simp [hj])

/-! ### The engine -/

/-- Without a start flag and without hardware triggering nothing begins (R133, R134). -/
theorem Sequencer.mayBegin_unarmed (hstart : q.start = false) (hctrl : q.hwTrigEn = false) : q.mayBegin = false := by
  simp [Sequencer.mayBegin, Sequencer.armed, hstart, hctrl]

/-- In every phase the hardware trigger is disabled. -/
theorem Phase.holds_hwTrigEn (h : p.holds q) : q.hwTrigEn = false := by
  unfold Sequencer.hwTrigEn
  rcases (Phase.holds_ctrl h).1 with hctrl | hctrl <;> rw [hctrl] <;> rfl

/-- During an operation a conversion begins at a wait only, whose flag is set. -/
theorem Phase.holds_begin (h : p.holds q) (hbegin : q.mayBegin = true) (e : Word) :
    p.holds { q with cur := e, inflight := true } := by
  have hstart : q.start ≠ false := fun hstart =>
    Bool.false_ne_true ((Sequencer.mayBegin_unarmed hstart (Phase.holds_hwTrigEn h)).symm.trans hbegin)
  cases p <;> simp only [Phase.holds] at h <;> obtain ⟨hstate, hctrl, hrest⟩ := h
  case swWait | drainWait => exact ⟨hstate, hctrl, fun hfalse => absurd hfalse hstart⟩
  case drainTrigger => exact absurd hrest hstart
  all_goals exact absurd hrest.2 hstart

/-- The word at a pointer of the active table is a marker exactly at the table's end (R76, R133). -/
theorem entryEnd_iff (hc : s.cfg.wf = true) {es : List Word} (hes : tableEntries s.cfg s.adc.sbase.toNat = some es)
    {w e : Word} (hw : w.toNat ≤ es.length) (he : s.entry w = some e) : entryEnd e = true ↔ w.toNat = es.length := by
  obtain ⟨-, hentry, hmarker⟩ := tableEntries_some hes
  rw [entry_inside hc hes hw, Option.some.injEq] at he
  subst he
  refine ⟨fun hend => ?_, fun hlen => hlen ▸ hmarker⟩
  by_contra hne
  obtain ⟨heq, hno⟩ := hentry w.toNat _ (List.getElem?_eq_getElem (by omega))
  rw [heq, hno] at hend
  cases hend

theorem engineBegin_consistent {event : Option (BitVec 4)} (hinv : s.Inv) (h : engineBegin event s = .next t) :
    t.Consistent := by
  rcases engineBegin_next h with rfl | ⟨e, hbegin, he, hend, -, rfl⟩
  · exact hinv.consistent
  · have hrun : s.adc.state ≠ .idle := fun hidle => by simp [Sequencer.mayBegin, hidle] at hbegin
    have htable : ActiveTable s.cfg { s.adc with cur := e, inflight := true } := by
      obtain ⟨es, hes, hlen, hidx, -, hres⟩ := hinv.table hrun
      refine ⟨es, hes, hlen, hidx, fun _ => lt_of_le_of_ne hidx fun heq => ?_, hres⟩
      exact Bool.false_ne_true (hend.symm.trans ((entryEnd_iff hinv.cfg hes hidx he).mpr heq))
    cases hop : s.port.op with
    | none =>
      obtain ⟨hstate, hctrl, hstart⟩ := hinv.loop_between hop hrun
      exact .of_loop hop (hinv.not_busy hop) hstate hctrl hstart htable
    | some o =>
      obtain ⟨hphase, htodo⟩ := hinv.op_some hop
      exact .of_op hop (hinv.is_busy hop) (Phase.holds_begin hphase hbegin e)
        (fun k hk => tableReady_congr rfl rfl (htodo k hk)) fun _ => htable

/-- The pointer of a running sequencer does not wrap (R50, R139). -/
theorem idx_succ_toNat (hc : c.wf = true) {es : List Word} (hes : tableEntries c q.sbase.toNat = some es)
    (hidx : q.idx.toNat < es.length) : (q.idx + 1).toNat = q.idx.toNat + 1 := by
  obtain ⟨hinside, -⟩ := tableEntries_some hes
  obtain ⟨hseq, -⟩ := Config.wf_sizes hc
  rw [BitVec.toNat_add]
  exact Nat.mod_eq_of_lt (by simp; omega)

/-- A complete step ends the wait of a drain, and leaves a software pass with nothing in flight (R135, R137). -/
theorem Phase.holds_completed (h : p.holds q) (hfl : q.inflight = true) (last : Bool) : p.holds (q.completed last) := by
  have htrig := Phase.holds_hwTrigEn h
  rw [Sequencer.completed_eq]
  cases p <;> simp only [Phase.holds] at h <;> obtain ⟨hstate, hctrl, hrest⟩ := h
  case swWait | drainWait => exact ⟨hstate, hctrl, fun _ => rfl⟩
  case drainTrigger => exact ⟨hstate, hctrl, by simp [hstate, htrig]⟩
  all_goals exact absurd (hrest.1.symm.trans hfl) Bool.false_ne_true

/-- While a conversion of the hardware loop is in flight the loop bit is set, during a stop too (R124, R125). -/
theorem State.Inv.loops (hinv : s.Inv) (hrun : s.adc.state = .runHW) (hfl : s.adc.inflight = true) :
    s.adc.loops = true := by
  have hctrl : s.adc.ctrl = 2#16 ∨ s.adc.ctrl = 3#16 := by
    cases hop : s.port.op with
    | none => exact .inr (hinv.loop_between hop (by simp [hrun])).2.1
    | some o =>
      obtain ⟨hphase, -⟩ := hinv.op_some hop
      cases hp : o.phase <;> simp [hp, Phase.holds, Sequencer.quiet, hrun, hfl] at hphase
      case drainTrigger | drainWait => exact .inl hphase.1
  unfold Sequencer.loops
  rcases hctrl with hctrl | hctrl <;> rw [hctrl] <;> rfl

/-- A complete step moves the pointer on inside the table; at its end a loop wraps, a software pass stands on the marker. -/
theorem ActiveTable.completed (hinv : s.Inv) (hfl : s.adc.inflight = true) (hrun : s.adc.state ≠ .idle) {e : Word}
    (he : s.entry (s.adc.idx + 1) = some e) : ActiveTable s.cfg (s.adc.completed (entryEnd e)) := by
  obtain ⟨es, hes, hlen, -, hin, hres⟩ := hinv.table hrun
  have hidx := hin (.inl hfl)
  have hnext := idx_succ_toNat hinv.cfg hes hidx
  have hlast := entryEnd_iff hinv.cfg hes (by omega) he
  rw [Sequencer.completed_eq]
  refine ⟨es, hes, hlen, ?_, ?_, hres⟩
  · dsimp only
    split
    · exact Nat.zero_le _
    · omega
  · rintro (hfalse | hhw)
    · cases hfalse
    · dsimp only
      split
      · exact hlen
      · rename_i hwrap
        simp only [hinv.loops hhw hfl, Bool.and_true] at hwrap
        have hne : (s.adc.idx + 1).toNat ≠ es.length := fun heq => hwrap (hlast.mpr heq)
        omega

theorem engineComplete_consistent {draw : Word} (hinv : s.Inv) (h : engineComplete draw s = .next t) : t.Consistent := by
  rcases engineComplete_next h with ⟨-, rfl⟩ | ⟨s1, e, hfl, -, he, ht⟩
  · exact hinv.consistent
  · have hadc : t.adc = s.adc.completed (entryEnd e) := by rw [ht]
    obtain ⟨hcfg, -, -, hpins, hport⟩ := engineComplete_frame h
    have hrun : s.adc.state ≠ .idle := fun hidle => by simp [hinv.idleQuiet hidle] at hfl
    have htable : ActiveTable t.cfg t.adc := by
      rw [hcfg, hadc]
      exact .completed hinv hfl hrun he
    cases hop : s.port.op with
    | none =>
      obtain ⟨hstate, hctrl, hstart⟩ := hinv.loop_between hop hrun
      have hbusy := hinv.not_busy hop
      rw [Sequencer.completed_eq] at hadc
      exact .of_loop (by rw [hport, hop]) (by rw [hadc, hbusy]) (by rw [hadc, hstate]) (by rw [hadc, hctrl])
        (by simp [hadc, hstart]) htable
    | some o =>
      obtain ⟨hphase, htodo⟩ := hinv.op_some hop
      refine .of_op (by rw [hport, hop]) ?_ (hadc ▸ Phase.holds_completed hphase hfl _)
        (fun k hk => tableReady_congr hcfg hpins (htodo k hk)) fun _ => htable
      rw [hadc, Sequencer.completed_eq]
      exact hinv.is_busy hop

/-! ### The registers of the interrupt controller -/

theorem unimplementedClear_iff : s.unimplementedClear ↔ ∀ g (b : BitVec 4), s.cfg.srcCount.get g ≤ b.toNat →
    (s.ic.pend.get g).getLsbD b.toNat = false ∧ (s.ic.mask.get g).getLsbD b.toNat = false := by
  have hword : ∀ (g : Group) (v : Word), v &&& ~~~ implementedBits s.cfg g = 0#16 ↔
      ∀ b : BitVec 4, s.cfg.srcCount.get g ≤ b.toNat → v.getLsbD b.toNat = false := by
    intro g v
    refine word_eq_zero_iff.trans (forall_congr' fun b => ?_)
    have hb := b.isLt
    rw [BitVec.getLsbD_and, BitVec.getLsbD_not, implementedBits_getLsbD]
    simp only [hb, decide_true, Bool.true_and, Bool.and_eq_false_iff, Bool.not_eq_false', decide_eq_true_eq]
    rw [or_iff_not_imp_right, Nat.not_lt]
  simp only [State.unimplementedClear, hword]
  exact ⟨fun h g b hb => ⟨(h g).1 b hb, (h g).2 b hb⟩, fun h g => ⟨fun b hb => (h g b hb).1, fun b hb => (h g b hb).2⟩⟩

theorem State.unimplementedClear.of_ic (h : s.unimplementedClear) (hcfg : t.cfg = s.cfg) (hic : t.ic = s.ic) :
    t.unimplementedClear := by
  unfold State.unimplementedClear
  rw [hcfg, hic]
  exact h

section

variable {grp : Group} {b : BitVec 4} (h : s.unimplementedClear)
include h

/-- A source that is latched is implemented (R92, R101). -/
theorem State.unimplementedClear.latch (hb : b.toNat < s.cfg.srcCount.get grp) : (s.latch grp b).unimplementedClear := by
  rw [unimplementedClear_iff] at h ⊢
  intro g b' hb'
  simp only [State.latch_cfg, State.latch_ic_mask, State.latch_ic_pend, getLsbD_set_or_bitPattern] at hb' ⊢
  have hne : ¬ (g = grp ∧ b' = b) := by rintro ⟨rfl, rfl⟩; omega
  simpa [hne] using h g b' hb'

theorem State.unimplementedClear.allow (hb : b.toNat < s.cfg.srcCount.get grp) : (s.allow grp b).unimplementedClear := by
  rw [unimplementedClear_iff] at h ⊢
  intro g b' hb'
  simp only [State.allow_cfg, State.allow_ic_pend, State.allow_ic_mask, getLsbD_set_or_bitPattern] at hb' ⊢
  have hne : ¬ (g = grp ∧ b' = b) := by rintro ⟨rfl, rfl⟩; omega
  simpa [hne] using h g b' hb'

theorem State.unimplementedClear.unlatch : (s.unlatch grp b).unimplementedClear := by
  rw [unimplementedClear_iff] at h ⊢
  intro g b' hb'
  simp [getLsbD_set_and_not_bitPattern, h g b' hb']

theorem State.unimplementedClear.disallow : (s.disallow grp b).unimplementedClear := by
  rw [unimplementedClear_iff] at h ⊢
  intro g b' hb'
  simp [getLsbD_set_and_not_bitPattern, h g b' hb']

theorem State.unimplementedClear.sourceEvent : (sourceEvent grp b s).unimplementedClear := by
  unfold Machine.sourceEvent
  split
  · exact h.latch ‹_›
  · exact h

/-- The operations of the interrupt controller write bits of implemented sources, or clear bits (R91 to R94). -/
theorem State.unimplementedClear.effect {i : Instr} (hcfg : t.cfg = s.cfg) (heffect : effect i s t) :
    t.unimplementedClear := by
  cases hi : i.writesIc with
  | false => exact h.of_ic hcfg (effect_ic hi heffect)
  | true =>
    cases i with
    | icInit =>
      cases heffect
      intro g
      simp
    | icEnable _ _ =>
      obtain ⟨grp, -, hb, rfl⟩ := heffect
      exact ((h.latch hb).allow hb).of_ic rfl rfl
    | icDisable _ _ =>
      obtain ⟨grp, -, -, rfl⟩ := heffect
      exact h.disallow.of_ic rfl rfl
    | icAck _ _ =>
      obtain ⟨grp, -, -, rfl⟩ := heffect
      exact h.unlatch.of_ic rfl rfl
    | _ => cases hi

end

/-! ### Every step -/

theorem engineComplete_resWf {draw : Word} (hres : s.resWf = true) (h : engineComplete draw s = .next t) :
    t.resWf = true := by
  rcases engineComplete_next h with ⟨-, rfl⟩ | ⟨s1, e, -, hstore, -, rfl⟩
  · exact hres
  · rcases storeSample_some.mp hstore with ⟨-, rfl⟩ | ⟨-, hwrite⟩
    · exact hres
    · have hs1 : s1.resWf = true := writeRes_resWf hres hwrite
      exact hs1

theorem runInput_resWf (hres : s.resWf = true) (h : runInput x s = .next t) : t.resWf = true := by
  rcases runInput_memoryKept h with ⟨hcfg, hkept, -⟩ | ⟨draw, -, hcomplete⟩
  · simpa only [State.resWf, hcfg, hkept] using hres
  · exact engineComplete_resWf hres hcomplete

theorem runInput_unimplementedClear (hclear : s.unimplementedClear) (h : runInput x s = .next t) :
    t.unimplementedClear := by
  have hcfg := runInput_cfg h
  rcases runInput_next h with ⟨cw, -, ⟨code, rfl⟩ | ⟨i, -, h⟩⟩ | ⟨-, -, rfl⟩ | ⟨o, -, -, h⟩ | ⟨g, b, -, rfl⟩ |
    ⟨event, -, h⟩ | ⟨draw, -, h⟩
  · exact hclear.of_ic rfl rfl
  · exact hclear.effect hcfg h
  · exact hclear
  · exact hclear.of_ic hcfg (runPhase_ic h)
  · exact hclear.sourceEvent
  · exact hclear.of_ic hcfg (engineBegin_ic h)
  · exact hclear.of_ic hcfg (engineComplete_frame h).2.1

theorem runInput_consistent (hinv : s.Inv) (h : runInput x s = .next t) : t.Consistent := by
  have hcfg := runInput_cfg h
  rcases runInput_next h with ⟨cw, -, ⟨code, rfl⟩ | ⟨i, -, h⟩⟩ | ⟨-, -, rfl⟩ | ⟨o, -, hop, h⟩ | ⟨g, b, -, rfl⟩ |
    ⟨event, -, h⟩ | ⟨draw, -, h⟩
  · exact hinv.consistent.of_kept hcfg (.of_adc rfl rfl rfl)
  · exact effect_consistent hinv hcfg h
  · exact hinv.consistent
  · exact runPhase_consistent hinv hop h
  · exact hinv.consistent.of_kept hcfg (sourceEvent_sequencerKept g b)
  · exact engineBegin_consistent hinv h
  · exact engineComplete_consistent hinv h

/-- Every input keeps the invariant. -/
theorem runInput_inv (hinv : s.Inv) (h : runInput x s = .next t) : t.Inv := by
  refine (runInput_consistent hinv h).inv ?_ (runInput_resWf hinv.res h) (runInput_unimplementedClear hinv.unimplemented h)
  rw [runInput_cfg h]
  exact hinv.cfg

end

end Sys2Proof.Machine

open Sys2Proof Sys2Proof.Machine

/-- Settles O58: taking an input keeps the invariant, and so does every step of the agent it names. -/
theorem stepKeepsTheInvariant : Obligations.StepKeepsTheInvariant := by
  unfold Obligations.StepKeepsTheInvariant
  intro s t hinv h
  exact runInput_inv hinv.dropInput h

end

section
/-! The engine's two steps as rules (R133 to R137): when each has an effect, and which; when neither has one (R141). -/

namespace Sys2Proof.Machine

/-- From `s` to `t` the conversion in flight is completed with the draw `d`, the word after its entry being `next`
(R135, R137). -/
structure Completed (d next : Word) (s t : State) : Prop where
  adc : t.adc = s.adc.completed (entryEnd next)
  readRes : ∀ a, t.readRes a = if a = (s.adc.dbase + s.adc.idx).toNat ∧ entryCh s.adc.cur ≠ chNone then
    some (sampleOf s.cfg d) else s.readRes a
  res_none : entryCh s.adc.cur = chNone → t.res = s.res
  frame : t = { s with adc := t.adc, res := t.res }

section

variable {s t : State} {o : Operation} {e : Word} {event : Option (BitVec 4)}

/-! ### The begin step -/

/-- The begin step is enabled as far as the engine's own state goes (R133, R134). -/
theorem mayBegin_iff {q : Sequencer} : q.mayBegin = true ↔ q.state ≠ .idle ∧ q.inflight = false ∧
    (q.start = true ∨ (q.state = .runHW ∧ q.ctrl.getLsbD 0 = true)) := by
  simp [Sequencer.mayBegin, Sequencer.armed, Sequencer.hwTrigEn, and_assoc]

/-- Without an event the entry is software-triggered or a drain is due (R133, R134). -/
theorem triggerHolds_none : triggerHolds s e none = true ↔
    entryTrig e = 0 ∨ (s.adc.state = .runHW ∧ s.adc.ctrl.getLsbD 0 = false ∧ s.adc.start = true) := by
  simp [triggerHolds, trigSw, Sequencer.drain, Sequencer.hwTrigEn, and_assoc]

/-- A hardware event begins an entry that waits for it, while hardware triggers are enabled (R134). -/
theorem triggerHolds_some {n : BitVec 4} (hpos : 1 ≤ n.toNat) (hn : n.toNat ≤ s.cfg.nHwEvent) :
    triggerHolds s e (some n) = true ↔ entryTrig e = n ∧ s.adc.ctrl.getLsbD 0 = true := by
  have hsw : n ≠ trigSw := by rintro rfl; exact absurd hpos (by decide)
  simp [triggerHolds, Sequencer.hwTrigEn, hsw, hn]

theorem engineBegin_of_enabled (he : s.entry s.adc.idx = some e) (hbegin : s.adc.mayBegin = true)
    (hend : entryEnd e = false) (htrig : triggerHolds s e event = true) :
    engineBegin event s = .next { s with adc := { s.adc with cur := e, inflight := true } } := by
  simp [engineBegin, hbegin, he, hend, htrig]

theorem engineBegin_of_not_mayBegin (h : s.adc.mayBegin = false) : engineBegin event s = .next s := by
  simp [engineBegin, h]

theorem engineBegin_of_disabled (he : s.entry s.adc.idx = some e)
    (h : ¬ (s.adc.mayBegin = true ∧ entryEnd e = false ∧ triggerHolds s e event = true)) :
    engineBegin event s = .next s := by
  cases hbegin : s.adc.mayBegin with
  | false => exact engineBegin_of_not_mayBegin hbegin
  | true =>
    have hguard : ¬ ((!entryEnd e && triggerHolds s e event) = true) := by simpa [hbegin] using h
    simp [engineBegin, hbegin, he, hguard]

/-! ### The complete step -/

theorem engineComplete_of_not_inflight (d : Word) (h : s.adc.inflight = false) : engineComplete d s = .next s := by
  simp [engineComplete, h]

/-- A conversion in flight can be completed, and that is all it does (R135). -/
theorem engineComplete_of_inflight (hinv : s.Inv) (hfl : s.adc.inflight = true) {next : Word}
    (hnext : s.entry (s.adc.idx + 1) = some next) (d : Word) :
    ∃ t, engineComplete d s = .next t ∧ Completed d next s t := by
  obtain ⟨s1, hs1⟩ := Option.ne_none_iff_exists'.mp (storeSample_ne_none hinv hfl (sampleOf s.cfg d))
  refine ⟨{ s1 with adc := s.adc.completed (entryEnd next) }, ?_, ?_⟩
  · simp only [engineComplete, hfl, if_true, hs1, hnext]
  · rcases storeSample_some.mp hs1 with ⟨hnone, rfl⟩ | ⟨hsome, hwrite⟩
    · exact ⟨rfl, fun a => by simp [hnone, State.readRes], fun _ => rfl, rfl⟩
    · refine ⟨rfl, fun a => ?_, fun hnone => absurd hnone hsome, ?_⟩
      · simpa [hsome, State.readRes] using readRes_writeRes (b := a) hinv.res hwrite
      · obtain ⟨-, rfl⟩ := writeRes_some.mp hwrite
        rfl

/-! ### The quiet engine -/

theorem engineQuiet_of (hbegin : s.adc.mayBegin = false) (hfl : s.adc.inflight = false) : s.engineQuiet :=
  ⟨fun _ => engineBegin_of_not_mayBegin hbegin, fun d => engineComplete_of_not_inflight d hfl⟩

theorem mayBegin_idle {q : Sequencer} (h : q.state = .idle) : q.mayBegin = false := by
  simp [Sequencer.mayBegin, h]

/-- The entry a running sequencer points at inside its table is there, and is no marker (R139). -/
theorem State.Inv.loop_entry (hinv : s.Inv) (hrun : s.adc.state = .runHW) :
    ∃ e, s.entry s.adc.idx = some e ∧ entryEnd e = false := by
  obtain ⟨es, hes, -, hle, hlt, -⟩ := hinv.table (by simp [hrun])
  have hentry := entry_inside hinv.cfg hes hle
  refine ⟨_, hentry, ?_⟩
  have hmarker := (entryEnd_iff hinv.cfg hes hle hentry).mp.mt (Nat.ne_of_lt (hlt (.inr hrun)))
  simpa using hmarker

/-- A drain is due and nothing in flight: the engine can begin the entry at the pointer, whatever its trigger (R134). -/
theorem engineBegin_drain (hinv : s.Inv) (hstate : s.adc.state = .runHW) (hctrl : s.adc.ctrl = 2#16)
    (hstart : s.adc.start = true) (hfl : s.adc.inflight = false) :
    ∃ e, s.entry s.adc.idx = some e ∧
      engineBegin none s = .next { s with adc := { s.adc with cur := e, inflight := true } } := by
  obtain ⟨e, he, hend⟩ := hinv.loop_entry hstate
  refine ⟨e, he, engineBegin_of_enabled he ?_ hend ?_⟩
  · exact mayBegin_iff.mpr ⟨by simp [hstate], hfl, .inl hstart⟩
  · exact triggerHolds_none.mpr (.inr ⟨hstate, by rw [hctrl]; rfl, hstart⟩)

end

end Sys2Proof.Machine

open Sys2Proof Sys2Proof.Machine

/-- Settles O37: the guards of the begin step, each put in the rule's words. -/
theorem beginStepIsTheRule : Obligations.BeginStepIsTheRule := by
  unfold Obligations.BeginStepIsTheRule
  intro s e he ready drain begun
  have hready : ready ↔ s.adc.mayBegin = true ∧ entryEnd e = false := by
    simp only [ready, mayBegin_iff, and_assoc]
  refine ⟨fun ⟨hr, htrig⟩ => ?_, fun hno => ?_, fun n hpos hn => ⟨fun ⟨hr, htrig⟩ => ?_, fun hno => ?_⟩⟩
  · obtain ⟨hbegin, hend⟩ := hready.mp hr
    exact engineBegin_of_enabled he hbegin hend (triggerHolds_none.mpr htrig)
  · refine engineBegin_of_disabled he fun ⟨hbegin, hend, htrig⟩ => hno ?_
    exact ⟨hready.mpr ⟨hbegin, hend⟩, triggerHolds_none.mp htrig⟩
  · obtain ⟨hbegin, hend⟩ := hready.mp hr
    exact engineBegin_of_enabled he hbegin hend ((triggerHolds_some hpos hn).mpr htrig)
  · refine engineBegin_of_disabled he fun ⟨hbegin, hend, htrig⟩ => hno ?_
    exact ⟨hready.mpr ⟨hbegin, hend⟩, .inr (.inr ((triggerHolds_some hpos hn).mp htrig))⟩

/-- Settles O38: the store and the sequencer after a complete step, field by field. -/
theorem completeStepIsTheRule : Obligations.CompleteStepIsTheRule := by
  unfold Obligations.CompleteStepIsTheRule
  intro s d
  refine ⟨engineComplete_of_not_inflight d, fun next hinv hfl hnext => ?_⟩
  obtain ⟨t, hrun, hadc, hres, -, hframe⟩ := engineComplete_of_inflight hinv hfl hnext d
  refine ⟨t, hrun, hres, ?_, hframe⟩
  rw [hadc, Sequencer.completed_eq]
  simp [Sequencer.loops, Sequencer.hwTrigEn]

/-- Settles O28: the last step leaves a quiet `Idle`, in which nothing begins or completes. -/
theorem stopLeavesTheEngineQuiet : Obligations.StopLeavesTheEngineQuiet := by
  unfold Obligations.StopLeavesTheEngineQuiet
  intro s o hinv hop hp htodo
  obtain ⟨hphase, -⟩ := hinv.op_some hop
  simp only [hp, Phase.holds] at hphase
  obtain ⟨-, hctrl, hfl, hstart⟩ := hphase
  have hrun : runInput .proceed s = .next (stopDone o s) := by simp [runInput, proceed, hop, runPhase, hp]
  have hadc : (stopDone o s).adc = { s.adc with state := .idle, idx := 0, busyOp := false } := by simp [stopDone, htodo]
  refine ⟨_, hrun, by rw [hadc], ?_, ?_, ?_, by rw [hadc], by rw [hadc], engineQuiet_of (mayBegin_idle ?_) ?_⟩ <;> rw [hadc]
  · exact hctrl
  · exact hstart
  · exact hfl
  · exact hfl

/-- Settles O29: a drain is due until the one complete step, which clears the start flag; then the engine is unarmed. -/
theorem drainIsExactlyOneCompletion : Obligations.DrainIsExactlyOneCompletion := by
  unfold Obligations.DrainIsExactlyOneCompletion
  intro s o hinv hop hp
  obtain ⟨hphase, -⟩ := hinv.op_some hop
  simp only [hp, Phase.holds] at hphase
  obtain ⟨hstate, hctrl, hquiet⟩ := hphase
  have htrig : s.adc.hwTrigEn = false := by rw [Sequencer.hwTrigEn, hctrl]; rfl
  refine ⟨fun hstart hfl => ?_, fun hstart hfl d => ?_, fun hstart => ?_⟩
  · obtain ⟨e, -, hbegin⟩ := engineBegin_drain hinv hstate hctrl hstart hfl
    exact ⟨_, hbegin, rfl⟩
  · obtain ⟨next, hnext⟩ := Option.ne_none_iff_exists'.mp (nextEntry_ne_none hinv hfl)
    obtain ⟨t, hrun, hadc, -⟩ := engineComplete_of_inflight hinv hfl hnext d
    refine ⟨t, hrun, ?_, ?_⟩ <;> rw [hadc, Sequencer.completed_eq]
    simp [hstate, htrig]
  · exact engineQuiet_of (Sequencer.mayBegin_unarmed hstart htrig) (hquiet hstart)

end

section
/-! A software pass carried through, entry by entry (R123, R134, R135, R137). -/

namespace Sys2Proof.Machine

open Sys2Proof.Claims

/-! ### Runs -/

section

variable {s t : State}

theorem runInputs_inv {xs : List Input} (hinv : s.Inv) (h : runInputs s xs = .next t) : t.Inv := by
  induction xs generalizing s with
  | nil => cases h; exact hinv
  | cons x xs ih =>
    obtain ⟨u, hx, hxs⟩ := runInputs_cons_next h
    exact ih (runInput_inv hinv hx) hxs

/-- The first step of an operation keeps the invariant: it is the step on that operation's word. -/
theorem exec_inv {i : Instr} (hinv : s.Inv) (h : exec i s = .next t) : t.Inv :=
  runInput_inv (x := .command (encode i)) hinv (runCommand_of_next (decodeOfEncodeIsTheOperation i) h)

end

/-! ### A software pass -/

/-- The state with the conversion of entry `e` begun (R134). -/
def State.begun (s : State) (e : Word) : State := { s with adc := { s.adc with cur := e, inflight := true } }

/-- The sequencer after a software pass over the entries `es` still to convert (R135, R137). -/
def Sequencer.passed (q : Sequencer) (es : List Word) : Sequencer :=
  { q with
    idx := q.idx + BitVec.ofNat 16 es.length
    start := false
    inflight := false
    cur := es.getLastD q.cur
    eocPend := true
    fePowered := q.fePowered && es.all fun e => entryRef e != refOff }

/-- The state after S1 to S3 of an accepted `ADC_START_SW`: the pass is triggered (R123). -/
def State.passTriggered (s : State) (table dest : Word) : State :=
  ((s.startPass table dest).issueOp (Operation.fresh .swSettle [] .nothing)).settle.trigger.advance .swWait
    (Operation.fresh .swSettle [] .nothing)

/-- A software pass over the table `es` is running with nothing in flight, and `rest` is still to convert. -/
structure Passing (es rest : List Word) (s : State) : Prop where
  inv : s.Inv
  state : s.adc.state = .runSW
  start : s.adc.start = true
  inflight : s.adc.inflight = false
  table : tableEntries s.cfg s.adc.sbase.toNat = some es
  left : es.drop s.adc.idx.toNat = rest
  trig : ∀ e ∈ rest, entryTrig e = trigSw

/-- From `s` to `t` the engine has converted the entries `es` with these draws, and the pass is over. -/
structure PassConverted (es draws : List Word) (s t : State) : Prop where
  adc : t.adc = s.adc.passed es
  stored : ∀ (k : Nat) (e d : Word), es[k]? = some e → draws[k]? = some d →
    t.readRes (s.adc.dbase.toNat + s.adc.idx.toNat + k) =
      if entryCh e = chNone then s.readRes (s.adc.dbase.toNat + s.adc.idx.toNat + k) else some (sampleOf s.cfg d)
  others : ∀ a, a < s.adc.dbase.toNat + s.adc.idx.toNat ∨ s.adc.dbase.toNat + s.adc.idx.toNat + es.length ≤ a →
    t.readRes a = s.readRes a
  res_none : (∀ e ∈ es, entryCh e = chNone) → t.res = s.res
  frame : t = { s with adc := t.adc, res := t.res }

section

variable {s t : State} {o : Operation} {es rest : List Word} {e : Word}

/-- During a software pass the control register is 0 (R123, R126, R161). -/
theorem State.Inv.pass_ctrl (hinv : s.Inv) (hrun : s.adc.state = .runSW) : s.adc.ctrl = 0#16 := by
  cases hop : s.port.op with
  | none =>
    obtain ⟨hstate, -⟩ := hinv.loop_between hop (by simp [hrun])
    rw [hrun] at hstate; cases hstate
  | some o =>
    obtain ⟨hphase, -⟩ := hinv.op_some hop
    cases hp : o.phase <;> simp [hp, Phase.holds, hrun] at hphase
    all_goals exact hphase.1

theorem State.Inv.pass_loops (hinv : s.Inv) (hrun : s.adc.state = .runSW) : s.adc.loops = false := by
  rw [Sequencer.loops, hinv.pass_ctrl hrun]
  rfl

/-- A pass over a whole table with the front end powered (R123). -/
theorem Sequencer.passed_fresh {q : Sequencer} (hidx : q.idx = 0#16) (hfe : q.fePowered = true) (hne : es ≠ []) :
    q.passed es = { q with
      idx := BitVec.ofNat 16 es.length, start := false, inflight := false, cur := es.getLastD 0, eocPend := true
      fePowered := es.all fun e => entryRef e != refOff } := by
  obtain ⟨e, rest, rfl⟩ := List.exists_cons_of_ne_nil hne
  simp only [Sequencer.passed, hidx, hfe, BitVec.zero_add, Bool.true_and, List.getLastD_cons]

/-- One conversion of a pass, seen from the sequencer: the rest of the pass leads to the same end. -/
theorem Sequencer.passed_cons {q : Sequencer} (hloops : q.loops = false) (last : Bool) (e : Word) (rest : List Word) :
    ({ q with cur := e, inflight := true }.completed last).passed rest = q.passed (e :: rest) := by
  have hidx : q.idx + 1 + BitVec.ofNat 16 rest.length = q.idx + BitVec.ofNat 16 (rest.length + 1) := by
    rw [BitVec.add_assoc, BitVec.ofNat_add, BitVec.add_comm 1]
    rfl
  have hfe : ((if entryRef e == refOff then false else q.fePowered) && rest.all fun e => entryRef e != refOff) =
      (q.fePowered && (e :: rest).all fun e => entryRef e != refOff) := by
    rw [List.all_cons]
    by_cases he : entryRef e = refOff
    · simp [he]
    · simp [bne, beq_false_of_ne he]
  have hloops' : Sequencer.loops { q with cur := e, inflight := true } = false := hloops
  simp only [Sequencer.completed_eq, Sequencer.passed, hloops', Bool.and_false, Bool.false_eq_true, if_false, hidx, hfe,
    List.length_cons, List.getLastD_cons]

theorem Completed.cfg {d next : Word} (h : Completed d next s t) : t.cfg = s.cfg := by
  rw [h.frame]

/-- The entry due next is the one at the pointer, and the rest of the table stands after it. -/
theorem Passing.head (h : Passing es (e :: rest) s) :
    es[s.adc.idx.toNat]? = some e ∧ es.length = s.adc.idx.toNat + 1 + rest.length := by
  have hget : es[s.adc.idx.toNat]? = some e := by
    have hhead : (es.drop s.adc.idx.toNat)[0]? = some e := by rw [h.left]; rfl
    simpa using hhead
  obtain ⟨hlt, -⟩ := List.getElem?_eq_some_iff.mp hget
  have hdrop := congrArg List.length h.left
  simp only [List.length_drop, List.length_cons] at hdrop
  exact ⟨hget, by omega⟩

/-- Neither the pointer nor the result address wraps (R50, R139). -/
theorem Passing.place (h : Passing es (e :: rest) s) : (s.adc.idx + 1).toNat = s.adc.idx.toNat + 1 ∧
    (s.adc.dbase + s.adc.idx).toNat = s.adc.dbase.toNat + s.adc.idx.toNat := by
  obtain ⟨-, hlen⟩ := h.head
  obtain ⟨es', hes', -, -, -, hdest⟩ := h.inv.table (by simp [h.state])
  obtain rfl : es = es' := Option.some.inj (h.table.symm.trans hes')
  obtain ⟨-, hres, -⟩ := Config.wf_sizes h.inv.cfg
  refine ⟨idx_succ_toNat h.inv.cfg h.table (by omega), ?_⟩
  rw [BitVec.toNat_add]
  exact Nat.mod_eq_of_lt (by omega)

/-- One conversion of a pass: the entry at the pointer, with what is left to convert after it. -/
theorem Passing.convert (h : Passing es (e :: rest) s) (d : Word) :
    ∃ t next, runInputs s [.engineBegin, .engineComplete d] = .next t ∧ Completed d next (s.begun e) t ∧
      (entryEnd next = true ↔ rest = []) ∧ (rest ≠ [] → Passing es rest t) := by
  obtain ⟨hget, hlen⟩ := h.head
  obtain ⟨hidx, -⟩ := h.place
  obtain ⟨hinv, hstate, hstart, hfl, htable, hrest, htrig⟩ := h
  obtain ⟨-, hentries, -⟩ := tableEntries_some htable
  obtain ⟨hword, hend⟩ := hentries _ _ hget
  have hentry : s.entry s.adc.idx = some e := by rw [entry_inside hinv.cfg htable (by omega), hword]
  have hnext := entry_inside hinv.cfg htable (w := s.adc.idx + 1) (by omega)
  have hlast := entryEnd_iff hinv.cfg htable (by omega) hnext
  have hbegin : runInput .engineBegin s = .next (s.begun e) :=
    engineBegin_of_enabled hentry (mayBegin_iff.mpr ⟨by simp [hstate], hfl, .inl hstart⟩) hend
      (triggerHolds_none.mpr (.inl (htrig e (by simp))))
  obtain ⟨t, hcomplete, ht⟩ := engineComplete_of_inflight (runInput_inv hinv hbegin) rfl hnext d
  have hrun : runInputs s [.engineBegin, .engineComplete d] = .next t := by
    rw [runInputs_cons hbegin, runInputs_cons (x := .engineComplete d) hcomplete]
    rfl
  have hlast : entryEnd _ = true ↔ rest = [] := hlast.trans (by rw [← List.length_eq_zero_iff]; omega)
  refine ⟨t, _, hrun, ht, hlast, fun hne => ?_⟩
  have hnot := Bool.eq_false_of_not_eq_true (hlast.not.mpr hne)
  have hadc := ht.adc
  rw [Sequencer.completed_eq, hnot] at hadc
  have hcfg : t.cfg = s.cfg := ht.cfg
  refine ⟨runInputs_inv hinv hrun, ?_, ?_, ?_, ?_, ?_, fun e' he' => htrig e' (by simp [he'])⟩ <;> rw [hadc]
  · exact hstate
  · simpa [State.begun, hstate] using hstart
  · rw [hcfg]
    exact htable
  · show es.drop (s.adc.idx + 1).toNat = rest
    rw [hidx, ← List.tail_drop, hrest]
    rfl

/-- After the last entry the pass is over: the flag is clear and the completion pending (R137). -/
theorem Sequencer.passed_nil {q : Sequencer} (hstate : q.state = .runSW) :
    (q.completed true).passed [] = q.completed true := by
  simp [Sequencer.completed_eq, Sequencer.passed, hstate]

theorem PassConverted.nil (h : s.adc.passed [] = s.adc) : PassConverted [] [] s s :=
  ⟨h.symm, nofun, fun _ _ => rfl, fun _ => rfl, rfl⟩

/-- A conversion and then the rest of the pass are the pass. -/
theorem PassConverted.cons {u : State} {d next : Word} {draws : List Word} (h : Passing es (e :: rest) s)
    (hu : Completed d next (s.begun e) u) (ht : PassConverted rest draws u t) :
    PassConverted (e :: rest) (d :: draws) s t := by
  obtain ⟨hidx, haddr⟩ := h.place
  have hloops := h.inv.pass_loops h.state
  have hbase : u.adc.dbase.toNat + u.adc.idx.toNat = s.adc.dbase.toNat + s.adc.idx.toNat + 1 := by
    have hloops' : (s.begun e).adc.loops = false := hloops
    rw [hu.adc, Sequencer.completed_eq, hloops', Bool.and_false]
    show s.adc.dbase.toNat + (s.adc.idx + 1).toNat = _
    omega
  have hread : ∀ a, u.readRes a = if a = s.adc.dbase.toNat + s.adc.idx.toNat ∧ entryCh e ≠ chNone then
      some (sampleOf s.cfg d) else s.readRes a := fun a => haddr ▸ hu.readRes a
  obtain ⟨hadc, hstored, hothers, hnone, hframe⟩ := ht
  rw [hbase] at hstored hothers
  refine ⟨?_, ?_, fun a ha => ?_, fun hall => ?_, ?_⟩
  · rw [hadc, hu.adc]
    exact Sequencer.passed_cons hloops _ e rest
  · rintro (_ | k) e' d' he hd
    · obtain rfl : e = e' := by simpa using he
      obtain rfl : d = d' := by simpa using hd
      rw [hothers _ (.inl (by omega)), hread]
      by_cases hch : entryCh e = chNone <;> simp [hch]
    · have hrest := hstored k e' d' (by simpa using he) (by simpa using hd)
      have hsame : u.readRes (s.adc.dbase.toNat + s.adc.idx.toNat + (k + 1)) =
          s.readRes (s.adc.dbase.toNat + s.adc.idx.toNat + (k + 1)) := by rw [hread, if_neg (by omega)]
      rw [Nat.add_assoc _ 1 k, Nat.add_comm 1 k, hsame, hu.cfg] at hrest
      exact hrest
  · simp only [List.length_cons] at ha
    rw [hothers a (by omega), hread, if_neg (by omega)]
  · rw [hnone fun e' he' => hall e' (by simp [he']), hu.res_none (hall e (by simp))]
    rfl
  · rw [hframe, hu.frame]
    rfl

/-- The engine, moving whenever it can, carries a software pass through. -/
theorem Passing.run {draws : List Word} (h : Passing es rest s) (hne : rest ≠ []) (hlen : draws.length = rest.length) :
    ∃ t, runInputs s (passInputs draws) = .next t ∧ PassConverted rest draws s t := by
  induction rest generalizing s draws with
  | nil => exact absurd rfl hne
  | cons e rest ih =>
    obtain ⟨d, draws, rfl⟩ := List.exists_cons_of_length_eq_add_one hlen
    obtain ⟨u, next, hrun, hu, hlast, hmore⟩ := h.convert d
    obtain ⟨t, hruns, ht⟩ : ∃ t, runInputs u (passInputs draws) = .next t ∧ PassConverted rest draws u t := by
      by_cases hnil : rest = []
      · have hadc := hu.adc
        rw [hlast.mpr hnil] at hadc
        subst hnil
        obtain rfl : draws = [] := by simpa using hlen
        refine ⟨u, rfl, .nil ?_⟩
        rw [hadc]
        exact Sequencer.passed_nil h.state
      · exact ih (hmore hnil) hnil (by simpa using hlen)
    exact ⟨t, (runInputs_append hrun _).trans hruns, .cons h hu ht⟩

/-! ### The end of a pass -/

theorem runInput_proceed (hop : s.port.op = some o) : runInput .proceed s = runPhase o s := by
  simp only [runInput, proceed, hop]

/-- When the flag of a software pass is clear, two more steps end an operation that has nothing left to do (R123 S4, S5). -/
theorem runInputs_endPass (hop : s.port.op = some o) (hp : o.phase = .swWait) (htodo : o.todo = [])
    (hstart : s.adc.start = false) : runInputs s [.proceed, .proceed] =
      .next (State.finishOp { s with adc := { s.adc with state := .idle } } o) := by
  have hwait : runInput .proceed s = .next (s.advance .swFinish o) := by
    simp [runInput_proceed hop, runPhase, hp, hstart]
  have hfinish : runInput .proceed (s.advance .swFinish o) =
      .next (State.finishOp { s with adc := { s.adc with state := .idle } } o) := by
    rw [runInput_proceed (State.advance_port_op _ _ _)]
    simp only [runPhase, passDone, htodo]
    rfl
  rw [runInputs_cons hwait, runInputs_cons hfinish]
  rfl

/-- An accepted `ADC_START_SW` is triggered after two more steps, its whole table then to convert (R123, R139). -/
theorem passing_startSw {table dest : Word} (hinv : s.Inv) (hidle : s.adc.state = .idle) (hbusy : s.adc.busyOp = false)
    (htable : tableOk s.cfg table.toNat dest.toNat .sw = true) (hes : tableEntries s.cfg table.toNat = some es) :
    exec (.adcStartSw table dest) s = .next ((s.startPass table dest).issueOp (Operation.fresh .swSettle [] .nothing)) ∧
      runInputs ((s.startPass table dest).issueOp (Operation.fresh .swSettle [] .nothing)) [.proceed, .proceed] =
        .next (s.passTriggered table dest) ∧
      es ≠ [] ∧ Passing es es (s.passTriggered table dest) := by
  obtain ⟨-, -, hfl, -⟩ := hinv.idle_task hidle
  obtain ⟨es', hes', hpos, hok, -⟩ := tableOk_iff.mp htable
  obtain rfl : es = es' := Option.some.inj (hes.symm.trans hes')
  have hexec := exec_next.mpr (show effect (.adcStartSw table dest) s _ from ⟨hidle, hbusy, htable, rfl⟩)
  refine ⟨hexec, rfl, List.ne_nil_of_length_pos hpos, ?_⟩
  refine ⟨runInputs_inv (xs := [.proceed, .proceed]) (exec_inv hinv hexec) rfl, rfl, rfl, hfl, hes, rfl, fun e he => ?_⟩
  simpa [entryOk] using (Bool.and_eq_true_iff.mp (hok e he)).2

end

end Sys2Proof.Machine

open Sys2Proof Sys2Proof.Machine

/-- Settles O24: the start up to the trigger, the pass by induction on its entries, and the two steps that end it. -/
theorem startSwRunsOnePass : Obligations.StartSwRunsOnePass := by
  unfold Obligations.StartSwRunsOnePass
  intro s table dest es draws hinv hidle hbusy htable hes hlen
  obtain ⟨hexec, htrigger, hne, hpassing⟩ := passing_startSw hinv hidle hbusy htable hes
  obtain ⟨w, hpass, hadc, hstored, hothers, -, hframe⟩ := hpassing.run hne hlen
  have hop : w.port.op = some (Operation.fresh .swWait [] .nothing) := by rw [hframe]; rfl
  have hend := runInputs_endPass hop rfl rfl (by rw [hadc]; rfl)
  have hbase : (s.passTriggered table dest).adc.dbase.toNat + (s.passTriggered table dest).adc.idx.toNat = dest.toNat :=
    Nat.add_zero _
  rw [hbase] at hstored hothers
  refine ⟨_, _, hexec, rfl, (runInputs_append ((runInputs_append htrigger _).trans hpass) _).trans hend, ?_, hstored,
    hothers, ?_⟩
  · rw [State.finishOp_adc, hadc, Sequencer.passed_fresh rfl rfl hne]
    rfl
  · rw [hframe]
    exact ⟨rfl, rfl, rfl, rfl, rfl, rfl⟩

end

section
/-! The stop carried through, with its drain (R125), and the reference-off pass of `ADC_POWER_OFF` (R126). -/

namespace Sys2Proof.Machine

open Sys2Proof.Claims

/-- The state after T4 to T6 of a stop whose operation goes on with `todo` (R125). -/
def State.stopped (s : State) (todo : List Task) : State :=
  State.nextTask
    (State.issueOp { s with adc := { s.adc with state := .idle, ctrl := 0, idx := 0, eocIe := false } }
      (Operation.fresh .stopIdle todo .nothing))
    (Operation.fresh .stopIdle todo .nothing)

/-- The state after T1 of a stop from the hardware loop, which goes on with `todo` (R125). -/
def State.disarmed (s : State) (todo : List Task) : State :=
  State.issueOp { s with adc := { s.adc with ctrl := s.adc.ctrl &&& ~~~ 0x0001#16 } }
    (Operation.fresh .drainTrigger todo .nothing)

/-- The state after T2: the drain is due (R125). -/
def State.draining (s : State) (todo : List Task) : State :=
  (s.disarmed todo).trigger.advance .drainWait (Operation.fresh .drainTrigger todo .nothing)

/-- The state after P2 of a power-off that began in `s`: the reference-off pass is triggered (R126). -/
def State.refOffTriggered (s : State) : State :=
  (s.stopped [.refOff]).startRefOff.advance .swWait (Operation.fresh .task [] .nothing)

/-- The state after the drain of a stop completed the conversion of `e`, the word after it being `next`; RES is then `res`
(R125, R135, R137). -/
def State.drained (s : State) (e next : Word) (res : Cells) : State :=
  { s with
    adc := { s.adc with
      cur := e, inflight := false, start := false
      eocPend := s.adc.eocPend || entryEnd next
      fePowered := if entryRef e = refOff then false else s.adc.fePowered }
    res := res }

/-- The engine steps that complete a drain: the conversion is begun first when none is in flight (R134). -/
def drainInputs (inflight : Bool) (d : Word) : List Input :=
  (if inflight = true then [] else [Input.engineBegin]) ++ [Input.engineComplete d]

section

variable {s t : State} {o : Operation} {todo : List Task}

/-! ### The stop -/

/-- From a state that is not in the hardware loop a stop clears the control register at once (R125, T4 to T6). -/
theorem runInputs_stop_idle (h : s.adc.state ≠ .runHW) :
    runInputs (stopFirst todo s) [.proceed, .proceed] = .next (s.stopped todo) := by
  rw [stopFirst, if_neg (by simpa using h)]
  rfl

/-- The end of a stop whose drain is done: T4, T5 and T6 (R125). -/
theorem runInputs_drained (hop : s.port.op = some o) (hp : o.phase = .drainWait) (hstart : s.adc.start = false) :
    runInputs s [.proceed, .proceed, .proceed, .proceed] = .next (State.nextTask
      { s with adc := { s.adc with state := .idle, ctrl := 0, idx := 0, eocIe := false } }
      { o with phase := .stopIdle }) := by
  have hwait : runInput .proceed s = .next (s.advance .stopCtrl o) := by
    simp [runInput_proceed hop, runPhase, hp, hstart]
  rw [runInputs_cons hwait]
  rfl

theorem State.begun_self (hfl : s.adc.inflight = true) : s.begun s.adc.cur = s := by
  rw [State.begun, ← hfl]

/-- The drain is the conversion in flight, or a fresh one of the entry at the pointer (R125, R134). -/
theorem runInputs_drain (hinv : s.Inv) (hstate : s.adc.state = .runHW) (hctrl : s.adc.ctrl = 2#16)
    (hstart : s.adc.start = true) (d : Word) :
    ∃ t e next, runInputs s (drainInputs s.adc.inflight d) = .next t ∧
      (if s.adc.inflight = true then s.adc.cur = e else s.entry s.adc.idx = some e) ∧
      s.entry (s.adc.idx + 1) = some next ∧ Completed d next (s.begun e) t := by
  cases hfl : s.adc.inflight with
  | true =>
    obtain ⟨next, hnext⟩ := Option.ne_none_iff_exists'.mp (nextEntry_ne_none hinv hfl)
    obtain ⟨t, hrun, ht⟩ := engineComplete_of_inflight hinv hfl hnext d
    refine ⟨t, s.adc.cur, next, runInputs_cons (x := .engineComplete d) hrun [], rfl, hnext, ?_⟩
    rwa [State.begun_self hfl]
  | false =>
    obtain ⟨e, he, hbegin⟩ := engineBegin_drain hinv hstate hctrl hstart hfl
    have hbegin : runInput .engineBegin s = .next (s.begun e) := hbegin
    have hinv' := runInput_inv hinv hbegin
    obtain ⟨next, hnext⟩ := Option.ne_none_iff_exists'.mp (nextEntry_ne_none hinv' rfl)
    obtain ⟨t, hrun, ht⟩ := engineComplete_of_inflight hinv' rfl hnext d
    exact ⟨t, e, next, (runInputs_cons hbegin _).trans (runInputs_cons (x := .engineComplete d) hrun []), he, hnext, ht⟩

/-- During a drain a complete step clears the start flag and wraps at the end of the table (R135, R137). -/
theorem Sequencer.completed_drain {q : Sequencer} (hstate : q.state = .runHW) (hctrl : q.ctrl = 2#16) (last : Bool) :
    q.completed last = { q with
      inflight := false, start := false
      idx := if last then 0#16 else q.idx + 1
      eocPend := q.eocPend || last
      fePowered := if entryRef q.cur = refOff then false else q.fePowered } := by
  rw [Sequencer.completed_eq]
  simp [Sequencer.loops, Sequencer.hwTrigEn, hstate, hctrl]

/-- From the hardware loop a stop disarms it, drains one conversion and clears the sequencer (R125). -/
theorem runInputs_stop_loop (hinv : s.Inv) (hop : s.port.op = none) (hstate : s.adc.state = .runHW)
    (hfirst : (stopFirst todo s).Inv) (d : Word) :
    ∃ e next res, runInputs (stopFirst todo s)
        ([Input.proceed] ++ drainInputs s.adc.inflight d ++
          [Input.proceed, Input.proceed, Input.proceed, Input.proceed]) =
          .next ((s.drained e next res).stopped todo) ∧
      (if s.adc.inflight = true then s.adc.cur = e else s.entry s.adc.idx = some e) ∧
      s.entry (s.adc.idx + 1) = some next ∧
      ∀ a, (s.drained e next res).readRes a =
        if a = (s.adc.dbase + s.adc.idx).toNat ∧ entryCh e ≠ chNone then some (sampleOf s.cfg d) else s.readRes a := by
  obtain ⟨-, hctrl, -⟩ := hinv.loop_between hop (by simp [hstate])
  have hdisarmed : stopFirst todo s = s.disarmed todo := if_pos (by simp [hstate])
  rw [hdisarmed] at hfirst ⊢
  have htrigger : runInput .proceed (s.disarmed todo) = .next (s.draining todo) := rfl
  have hdrain : (s.draining todo).adc.ctrl = 2#16 := by
    show s.adc.ctrl &&& ~~~ 0x0001#16 = 2#16
    rw [hctrl]
    rfl
  obtain ⟨w, e, next, hengine, he, hnext, hadc, hres, -, hframe⟩ :=
    runInputs_drain (runInput_inv hfirst htrigger) hstate hdrain rfl d
  rw [Sequencer.completed_drain (q := ((s.draining todo).begun e).adc) hstate hdrain] at hadc
  have hop' : w.port.op = some (Operation.fresh .drainWait todo .nothing) := by rw [hframe]; rfl
  have hend := runInputs_drained hop' rfl (by rw [hadc])
  have hrun := (runInputs_append ((runInputs_append (runInputs_cons htrigger []) _).trans hengine) _).trans hend
  rw [hadc] at hframe
  generalize w.res = res at hframe
  subst hframe
  exact ⟨e, next, res, hrun, he, hnext, hres⟩

/-- The inputs of a stop from the hardware loop, in the order of its steps (R125). -/
theorem stopInputs_eq (b : Bool) (d : Word) (xs : List Input) :
    [Input.proceed] ++ (if b = true then [] else [Input.engineBegin]) ++ Input.engineComplete d :: xs =
      [Input.proceed] ++ drainInputs b d ++ xs := by
  simp [drainInputs]

/-- The end of an operation that began between operations, seen from the state it began in (R79, R120). -/
theorem State.finishOp_answered (hop : s.port.op = none) (hanswer : o.answer = .nothing) (q : Sequencer)
    (op : Option Operation) (rsp : Option Response) :
    State.finishOp { s with adc := q, port := { s.port with op := op, rsp := rsp } } o =
      answered { s with adc := { q with busyOp := false } } 0 0 0 := by
  obtain ⟨cfg, ic, adc, res, cal, pins, ⟨op', rsp', inputs, tick⟩⟩ := s
  cases hop
  simp only [State.finishOp, hanswer]
  rfl

/-- A stop that nothing follows is over and answered (R125 T6). -/
theorem State.stopped_nil (hop : s.port.op = none) : s.stopped [] = answered
    { s with adc := { s.adc with state := .idle, ctrl := 0, idx := 0, eocIe := false, busyOp := false } } 0 0 0 :=
  State.finishOp_answered (o := Operation.fresh .stopIdle [] .nothing) hop rfl _ _ _

/-! ### The reference-off pass -/

/-- The one entry of the reference-off table switches the front end off (R126, R135). -/
theorem Sequencer.passed_refOff {q : Sequencer} (hidx : q.idx = 0#16) : q.passed [0x07FF#16] = { q with
    idx := 1, start := false, inflight := false, cur := 0x07FF, eocPend := true, fePowered := false } := by
  have hoff : entryRef 0x07FF#16 = refOff := by decide
  simp [Sequencer.passed, hidx, hoff]

/-- The sequencer after `ADC_POWER_OFF` (R126). -/
def Sequencer.switchedOff (q : Sequencer) (refoffTable : Word) : Sequencer :=
  { q with
    state := .idle, ctrl := 0, sbase := refoffTable, dbase := 0, idx := 1, start := false, inflight := false
    cur := 0x07FF, busyOp := false, eocPend := true, eocIe := false, fePowered := false }

/-- P2 to P4: the reference-off pass runs without settling, stores nothing and leaves the front end off (R126). -/
theorem runInputs_refOff (hop : s.port.op = none) (hinv : (s.stopped [.refOff]).Inv) (d : Word) :
    runInputs (s.stopped [.refOff]) [.proceed, .engineBegin, .engineComplete d, .proceed, .proceed] =
      .next (answered { s with adc := s.adc.switchedOff s.cfg.refoffTable } 0 0 0) := by
  obtain ⟨⟨-, -, hfl, -⟩, hready⟩ := hinv.op_some (o := Operation.fresh .task [.refOff] .nothing) rfl
  have hrefoff : refoffOk s.cfg = true := hready .refOff (by simp [Operation.fresh])
  have hstart : runInput .proceed (s.stopped [.refOff]) = .next s.refOffTriggered := rfl
  have hpassing : Passing [0x07FF#16] [0x07FF#16] s.refOffTriggered :=
    ⟨runInput_inv hinv hstart, rfl, rfl, hfl, tableEntries_seqHolds hrefoff rfl rfl, rfl, by simp; decide⟩
  obtain ⟨w, hpass, hadc, -, -, hres, hframe⟩ := hpassing.run (draws := [d]) (by simp) rfl
  rw [hadc, hres (by simp; decide), Sequencer.passed_refOff rfl] at hframe
  have hend := runInputs_endPass (s := w) (o := Operation.fresh .swWait [] .nothing) (by rw [hframe]; rfl) rfl rfl
    (by rw [hframe])
  have hrun := (runInputs_append (runInputs_append (runInputs_cons hstart []) _ |>.trans hpass) _).trans hend
  subst hframe
  exact hrun.trans (congrArg Host.Outcome.next (State.finishOp_answered hop rfl _ _ _))

end

end Sys2Proof.Machine

open Sys2Proof Sys2Proof.Machine Sys2Proof.Claims

/-- Settles O27: from `Idle` the registers are cleared; from the hardware loop one conversion is drained first. -/
theorem stopDrainsOneConversion : Obligations.StopDrainsOneConversion := by
  unfold Obligations.StopDrainsOneConversion
  intro s d hinv hop
  have hbusy := hinv.not_busy hop
  refine ⟨fun hidle => ?_, fun hstate => ?_⟩
  · have hexec : exec .adcStop s = .next (stopFirst [] s) := exec_next.mpr ⟨by simp [hidle], hbusy, rfl⟩
    refine ⟨_, _, hexec, runInputs_stop_idle (by simp [hidle]), ?_⟩
    obtain ⟨-, hctrl, -⟩ := hinv.idle_task hidle
    rw [State.stopped_nil hop]
    simp [hidle, hctrl, hbusy]
  · have hexec : exec .adcStop s = .next (stopFirst [] s) := exec_next.mpr ⟨by simp [hstate], hbusy, rfl⟩
    obtain ⟨e, next, res, hrun, he, hnext, hres⟩ := runInputs_stop_loop hinv hop hstate (exec_inv hinv hexec) d
    obtain ⟨-, -, -, -, -, hadc, -⟩ := stopFirst_frame [] s
    obtain ⟨-, hctrl, hstart⟩ := hinv.loop_between hop (by simp [hstate])
    rw [← stopInputs_eq, State.stopped_nil (s := s.drained e next res) hop] at hrun
    refine ⟨_, _, e, next, hexec, ?_, ?_, hrun, he, hnext, ?_, hres, rfl, rfl, rfl, rfl, hop, rfl⟩
    · rw [hadc, if_pos hstate, hctrl]
      rfl
    · rw [hadc]
      exact hstart
    · simp [answered, State.drained, hbusy]

/-- Settles O30: the stop leads to the reference-off pass, which switches the front end off. -/
theorem powerOffSwitchesTheFrontEndOff : Obligations.PowerOffSwitchesTheFrontEndOff := by
  unfold Obligations.PowerOffSwitchesTheFrontEndOff
  intro s d d' hinv hop hrefoff
  have hbusy := hinv.not_busy hop
  refine ⟨fun hidle => ?_, fun hstate => ?_⟩
  · have hexec : exec .adcPowerOff s = .next (stopFirst [.refOff] s) :=
      exec_next.mpr ⟨by simp [hidle], hbusy, hrefoff, rfl⟩
    have hstop := runInputs_stop_idle (s := s) (todo := [.refOff]) (by simp [hidle])
    have hpass := runInputs_refOff hop (runInputs_inv (exec_inv hinv hexec) hstop) d
    obtain ⟨-, hctrl, hfl, hstart⟩ := hinv.idle_task hidle
    refine ⟨_, _, hexec, (runInputs_append hstop _).trans hpass, ?_, rfl⟩
    simp [answered, Sequencer.switchedOff, hidle, hctrl, hfl, hstart, hbusy]
  · have hexec : exec .adcPowerOff s = .next (stopFirst [.refOff] s) :=
      exec_next.mpr ⟨by simp [hstate], hbusy, hrefoff, rfl⟩
    have hfirst := exec_inv hinv hexec
    obtain ⟨e, next, res, hstop, he, -, hres⟩ := runInputs_stop_loop hinv hop hstate hfirst d'
    have hpass := runInputs_refOff (s := s.drained e next res) hop (runInputs_inv hfirst hstop) d
    have hrun := (runInputs_append hstop _).trans hpass
    rw [List.append_assoc, ← stopInputs_eq] at hrun
    refine ⟨_, _, e, hexec, hrun, he, ?_, hres, rfl⟩
    simp [answered, State.drained, Sequencer.switchedOff, hbusy]

end

section
/-! The table check in the words of R139, and what the sequencer's operations answer or are refused for (R120 to R132,
R136). -/

namespace Sys2Proof.Machine

open Sys2Proof.Claims

section

variable {c : Config} {s : State} {k : Result}

/-! ### The table check -/

/-- A scan that has enough words to look at finds the table before the first marker (R76, R139 (1)). -/
theorem scanTable_of_marker {seq : Cells} {len fuel a : Nat} (hfuel : len < fuel)
    (hmarker : entryEnd (Memory.read Memory.seqUnlisted seq (a + len)) = true)
    (hbefore : ∀ i, i < len → entryEnd (Memory.read Memory.seqUnlisted seq (a + i)) = false) :
    scanTable seq fuel a = some ((List.range len).map fun i => Memory.read Memory.seqUnlisted seq (a + i)) := by
  induction len generalizing fuel a with
  | zero =>
    obtain ⟨n, rfl⟩ := Nat.exists_eq_add_one.mpr hfuel
    simpa [scanTable] using hmarker
  | succ len ih =>
    obtain ⟨n, rfl⟩ := Nat.exists_eq_add_one.mpr (Nat.zero_lt_of_lt hfuel)
    have hhead : entryEnd (Memory.read Memory.seqUnlisted seq a) = false := hbefore 0 (Nat.succ_pos len)
    have htail := ih (fuel := n) (a := a + 1) (by omega) (by rwa [Nat.add_assoc, Nat.add_comm 1])
      fun i hi => by simpa [Nat.add_assoc, Nat.add_comm 1] using hbefore (i + 1) (by omega)
    simp [scanTable, hhead, htail, List.range_succ_eq_map, Nat.add_assoc, Nat.add_comm 1]

/-- The words of SEQ are a table exactly when its marker is the first one (R76, R139 (1)). -/
theorem tableEntries_iff {a : Nat} {es : List Word} : tableEntries c a = some es ↔
    a + es.length < c.seqWords ∧ entryEnd (seqWord c (a + es.length)) = true ∧
      (∀ i, i < es.length → entryEnd (seqWord c (a + i)) = false) ∧
      es = (List.range es.length).map fun i => seqWord c (a + i) := by
  constructor
  · intro h
    obtain ⟨hinside, hentries, hmarker⟩ := tableEntries_some h
    refine ⟨hinside, hmarker, fun i hi => ?_, List.ext_getElem (by simp) fun i hi _ => ?_⟩
    · obtain ⟨hword, hend⟩ := hentries i _ (List.getElem?_eq_getElem hi)
      exact (congrArg entryEnd hword).trans hend
    · simpa [seqWord] using (hentries i _ (List.getElem?_eq_getElem hi)).1.symm
  · rintro ⟨hinside, hmarker, hbefore, hes⟩
    rw [hes]
    exact scanTable_of_marker (by omega) hmarker hbefore

/-- Conditions (2) and (4) of R139 on one entry, in the rule's words. -/
theorem entryOk_iff {mode : TableMode} {e : Word} : entryOk c mode e = true ↔
    ((entryCh e).toNat ≤ 0x09 ∨ (0x40 ≤ (entryCh e).toNat ∧ (entryCh e).toNat < 0x40 + c.nGpio) ∨ entryCh e = 0xFF) ∧
      (entryTrig e).toNat ≤ c.nHwEvent ∧ (mode = .sw → entryTrig e = 0) := by
  cases mode <;> simp [entryOk, channelListed, chNone, trigSw, or_assoc, and_assoc]

/-! ### The checks of the sequencer's state -/

theorem requireIdle_of_idle (hidle : s.adc.state = .idle) (hbusy : s.adc.busyOp = false) : requireIdle s k = k := by
  simp [requireIdle, require, hidle, hbusy]

/-- An operation that needs `Idle` is refused where it is not given (R120). -/
theorem requireIdle_of_not_idle (h : s.adc.state ≠ .idle ∨ s.adc.busyOp = true) :
    requireIdle s k = .refused .badState := by
  rcases h with h | h <;> simp [requireIdle, require, h]

theorem requireStoppable_of_stoppable (hstate : s.adc.state ≠ .runSW) (hbusy : s.adc.busyOp = false) :
    requireStoppable s k = k := by
  simp [requireStoppable, require, hstate, hbusy]

/-- A stop is refused during a software pass and during an operation (R120, R125). -/
theorem requireStoppable_of_not (h : s.adc.state = .runSW ∨ s.adc.busyOp = true) :
    requireStoppable s k = .refused .badState := by
  rcases h with h | h <;> simp [requireStoppable, require, h]

/-- Where R120 is followed, a table selection is refused during an operation (log 12). -/
theorem requireSelectable_of_busy (hselect : s.cfg.busyRefusesSelect = true) (hbusy : s.adc.busyOp = true) :
    requireSelectable s k = .refused .badState := by
  simp [requireSelectable, require, hselect, hbusy]

/-- Every operation of the sequencer and of the self-test that needs `Idle` checks it after its operands (R74, R120). -/
theorem exec_of_not_idle {i : Instr} (hwf : i.wellFormed s.cfg = true) (hneeds : needsIdle i = true)
    (h : s.adc.state ≠ .idle ∨ s.adc.busyOp = true) : exec i s = .refused .badState := by
  cases i with
  | adcInit | adcConfigure _ _ | adcStartSw _ _ | adcStartHw _ _ | calRails | calPins | calMeasureOffset
  | calValidateOffset | calSelftest => exact requireIdle_of_not_idle h
  | adcStart top index =>
    obtain ⟨topo, htopo⟩ := topologyError_none.mp (beq_iff_eq.mp hwf)
    exact (withTopology_of_some htopo).trans (requireIdle_of_not_idle h)
  | _ => cases hneeds

/-- An `Idle` operation whose table check fails is refused for that (R120, R139, R161). -/
theorem requireIdle_badTable {table : Bool} (hidle : s.adc.state = .idle) (hbusy : s.adc.busyOp = false)
    (h : table = false) : requireIdle s (require table .badTable k) = .refused .badTable := by
  rw [requireIdle_of_idle hidle hbusy, h]
  rfl

/-! ### Flags and samples -/

/-- A flag operand in the word of its operation (R71). -/
theorem append_flagField (x : BitVec 12) (v : Bool) : x ++ flagField v = x ++ 0#3 ++ BitVec.ofBool v := by
  have hfield : flagField v = 0#3 ++ BitVec.ofBool v := by cases v <;> rfl
  rw [hfield]
  exact (BitVec.append_assoc (x₁ := x) (x₂ := 0#3) (x₃ := BitVec.ofBool v)).symm

/-- A sample is the draw modulo the number of raw codes (R136). -/
theorem sampleOf_toNat (hc : c.wf = true) (d : Word) : (sampleOf c d).toNat = d.toNat % 2 ^ c.adcBits := by
  obtain ⟨-, -, -, -, -, -, -, hbits⟩ := Config.wf_sizes hc
  have hpow : 2 ^ c.adcBits ≤ 2 ^ 16 := Nat.pow_le_pow_right (by decide) hbits
  rw [sampleOf, BitVec.toNat_and, BitVec.toNat_ofNat, Nat.mod_eq_of_lt (by omega), Nat.and_two_pow_sub_one_eq_mod]

end

end Sys2Proof.Machine

open Sys2Proof Sys2Proof.Machine Sys2Proof.Claims

/-- Settles O23: the table found is the words before the first marker, and its entries are checked one by one. -/
theorem tableCheckIsTheRule : Obligations.TableCheckIsTheRule := by
  unfold Obligations.TableCheckIsTheRule
  intro c a d mode
  rw [tableOk_iff]
  constructor
  · rintro ⟨es, hes, hpos, hok, hres⟩
    obtain ⟨hinside, hmarker, hbefore, hwords⟩ := tableEntries_iff.mp hes
    refine ⟨es.length, hpos, hinside, hmarker, hbefore, fun k hk => entryOk_iff.mp (hok _ ?_), hres⟩
    rw [hwords]
    exact List.mem_map.mpr ⟨k, List.mem_range.mpr (by simpa using hk), rfl⟩
  · rintro ⟨len, hpos, hinside, hmarker, hbefore, hok, hres⟩
    refine ⟨(List.range len).map fun i => seqWord c (a + i), tableEntries_iff.mpr ?_, by simpa using hpos, ?_,
      by simpa using hres⟩
    · simpa using ⟨hinside, hmarker, hbefore⟩
    · intro e he
      obtain ⟨k, hk, rfl⟩ := List.mem_map.mp he
      exact entryOk_iff.mpr (hok k (List.mem_range.mp hk))

/-- Settles O25: the powered start is one step; the unpowered one settles and arms. -/
theorem startHwArmsTheLoop : Obligations.StartHwArmsTheLoop := by
  unfold Obligations.StartHwArmsTheLoop
  intro s table dest hidle hbusy htable
  cases hfe : s.adc.fePowered with
  | true =>
    refine ⟨_, exec_next.mpr ⟨hidle, hbusy, htable, (if_pos hfe).symm⟩, fun _ => rfl, nofun⟩
  | false =>
    refine ⟨_, exec_next.mpr ⟨hidle, hbusy, htable, (if_neg (by simp [hfe])).symm⟩, nofun, fun _ => ⟨rfl, _, rfl, ?_⟩⟩
    exact ⟨rfl, rfl, rfl, rfl, rfl, rfl, rfl, rfl⟩

/-- Settles O26: past the topology check the operation is `ADC_START_HW` of the selected table. -/
theorem startSelectsThenArmsTheLoop : Obligations.StartSelectsThenArmsTheLoop := by
  unfold Obligations.StartSelectsThenArmsTheLoop
  intro s t index
  refine ⟨rfl, fun hout => ?_, fun topo htopo => ?_⟩
  · exact exec_of_operandError (e := .badTopology) (if_neg (Nat.not_lt.mpr hout))
  · have hstart := withTopology_of_some (k := fun topo => startLoop (selectTable s.cfg t topo s.cfg.psdEn index)
      s.cfg.resultsBase s) htopo
    refine ⟨hstart, fun hidle hbusy htable => ?_⟩
    exact ⟨_, hstart.trans (startLoop_next.mpr ⟨hidle, hbusy, htable, rfl⟩)⟩

/-- Settles O34: each operation checks the state of R120 right after its operands. -/
theorem wrongStateIsRefused : Obligations.WrongStateIsRefused := by
  unfold Obligations.WrongStateIsRefused
  intro s i hwf
  refine ⟨exec_of_not_idle hwf, ?_, ?_⟩
  · rintro (rfl | rfl) h <;> exact requireStoppable_of_not h
  · rintro t psd index rfl hselect hbusy
    obtain ⟨topo, htopo⟩ := topologyError_none.mp (beq_iff_eq.mp hwf)
    exact (withTopology_of_some htopo).trans (requireSelectable_of_busy hselect hbusy)

/-- Settles O22: both operations check the state, `ADC_CONFIGURE` then its table. -/
theorem initAndConfigureResults : Obligations.InitAndConfigureResults := by
  unfold Obligations.InitAndConfigureResults
  refine ⟨rfl, fun _ _ => rfl, fun s => ⟨fun h => ⟨requireIdle_of_not_idle h, fun _ _ => requireIdle_of_not_idle h⟩, ?_⟩⟩
  intro hidle hbusy
  refine ⟨requireIdle_of_idle hidle hbusy, fun table dest => ⟨fun htable => ?_, requireIdle_badTable hidle hbusy⟩⟩
  exact exec_next.mpr ⟨hidle, hbusy, htable, rfl⟩

/-- Settles O31: past the topology check the answer is the selected address, unless R120 is followed. -/
theorem tableSelectionIsPure : Obligations.TableSelectionIsPure := by
  unfold Obligations.TableSelectionIsPure
  intro s t psd index
  refine ⟨?_, fun topo htopo => ⟨fun hselect => ?_, fun hselect hbusy => ?_⟩, fun hout => ?_⟩
  · show 0x16#8 ++ t ++ flagField psd ++ index ++ 0#16 = _
    rw [append_flagField]
  · exact exec_next.mpr ⟨topo, htopo, hselect, rfl⟩
  · exact (withTopology_of_some htopo).trans (requireSelectable_of_busy hselect hbusy)
  · exact exec_of_operandError (e := .badTopology) (if_neg (Nat.not_lt.mpr hout))

/-- Settles O32: the two writes compute, and a RES address is in range or not. -/
theorem completionControlAndResultRead : Obligations.CompletionControlAndResultRead := by
  unfold Obligations.CompletionControlAndResultRead
  intro s
  refine ⟨fun en => ⟨by cases en <;> rfl, _, rfl, rfl, rfl⟩, rfl, ⟨_, rfl, rfl, rfl⟩,
    fun x => ⟨rfl, fun hin => ?_, fun hout => ?_⟩⟩
  · exact exec_next.mpr ⟨_, readRes_some.mpr ⟨hin, rfl⟩, rfl⟩
  · exact exec_of_operandError (e := .addrRange) (if_neg (Nat.not_lt.mpr hout))

/-- Settles O33, by the values of the state and of the six flags. -/
theorem statusWordBits : Obligations.StatusWordBits := by
  unfold Obligations.StatusWordBits
  refine ⟨rfl, fun s => ⟨s.statusWord, rfl, ?_⟩⟩
  unfold State.statusWord
  generalize s.adc.state = q, s.adc.start = st, s.adc.fePowered = fe, s.adc.eocPend = pend, s.adc.eocIe = ie,
    s.cal.elecFault = fault
  cases q <;> (revert st fe pend ie fault; decide)

/-- Settles O35: in a state that allows the operation its table check is the next one. -/
theorem missingTablesAreRefused : Obligations.MissingTablesAreRefused := by
  unfold Obligations.MissingTablesAreRefused
  intro s hbusy
  refine ⟨fun hstate hrefoff => ?_, fun hidle => ⟨fun table dest => ⟨?_, ?_⟩, fun ch hch htable => ?_,
    fun p hp hoe htable => ?_, fun htable => ?_⟩⟩
  · refine (requireStoppable_of_stoppable hstate hbusy).trans ?_
    rw [hrefoff]
    rfl
  · exact requireIdle_badTable hidle hbusy
  · exact requireIdle_badTable hidle hbusy
  · have hrails : railTablesOk s = false := by
      have htable' : stTableOk s.cfg chRail0 = false ∨ stTableOk s.cfg chRail1 = false := by
        rcases hch with rfl | rfl
        · exact .inl htable
        · exact .inr htable
      rwa [railTablesOk, Bool.and_eq_false_iff]
    exact ⟨requireIdle_badTable hidle hbusy hrails, requireIdle_badTable hidle hbusy (by simp [hrails])⟩
  · have hpins : pinTablesOk s = false := List.all_eq_false.mpr ⟨p, List.mem_range.mpr hp, by simp [hoe, htable]⟩
    exact ⟨requireIdle_badTable hidle hbusy hpins, requireIdle_badTable hidle hbusy (by simp [hpins])⟩
  · exact ⟨requireIdle_badTable hidle hbusy htable, requireIdle_badTable hidle hbusy (by simp [zeroTableOk, htable])⟩

/-- Settles O39: a sample is the draw modulo 2 to the power ADC_BITS. -/
theorem samplesAreExactlyTheRawCodes : Obligations.SamplesAreExactlyTheRawCodes := by
  unfold Obligations.SamplesAreExactlyTheRawCodes
  intro c hc
  have hpos := Nat.two_pow_pos c.adcBits
  refine ⟨fun d => ?_, fun v hv => BitVec.eq_of_toNat_eq ?_⟩
  · rw [sampleOf_toNat hc]
    exact Nat.le_sub_one_of_lt (Nat.mod_lt _ hpos)
  · rw [sampleOf_toNat hc]
    exact Nat.mod_eq_of_lt (by omega)

end

section
/-! One `measure(ch)` carried through (R161): a software pass over the self-test table of the channel, whose one sample the
next task gets. The calibration operations (R162 to R164) are made of it. -/

namespace Sys2Proof.Machine

open Sys2Proof.Claims

/-- The operation with the tasks `todo` due (R56). -/
def Operation.due (o : Operation) (todo : List Task) : Operation := { o with phase := .task, todo := todo }

/-- The operation after a `measure` whose result is `v` (R161). -/
def Operation.sampled (o : Operation) (v : Word) : Operation := { o with older := o.newer, newer := v }

/-- The state with the operation `o` in progress and nothing else changed. -/
def State.doing (s : State) (o : Operation) : State := { s with port := { s.port with op := some o } }

/-- The entry of the self-test table of channel `ch` (R161). -/
def selftestEntry (ch : BitVec 8) : Word := ch.setWidth 16

/-- The sequencer after `measure(ch)` (R161). -/
def Sequencer.measured (q : Sequencer) (c : Config) (ch : BitVec 8) : Sequencer :=
  { q with
    sbase := BitVec.ofNat 16 (stTable c ch), dbase := c.scratchBase, idx := 1, cur := selftestEntry ch
    eocPend := true, fePowered := true }

/-- The state after S1 to S3 of `measure(ch)` in the operation `o`, with `todo` to follow: the pass is triggered (R161). -/
def State.measureTriggered (s : State) (o : Operation) (ch : BitVec 8) (todo : List Task) : State :=
  (s.startPass (BitVec.ofNat 16 (stTable s.cfg ch)) s.cfg.scratchBase).settle.trigger.doing
    { o.due todo with phase := .swWait }

/-- The state after `measure(ch)` in the operation `o`, with `todo` to follow: its result is `v`, and RES is `res` (R161). -/
def State.measured (s : State) (o : Operation) (ch : BitVec 8) (todo : List Task) (res : Cells) (v : Word) : State :=
  State.doing { s with adc := s.adc.measured s.cfg ch, res := res } ((o.sampled v).due todo)

/-- From `s` to `t` a `measure(ch)` with the draw `d` has written the scratch word only, which holds the result `v`: the
sample, or what it held for `CH_NONE` (R135, R161). -/
structure SampleTaken (ch : BitVec 8) (d v : Word) (s t : State) : Prop where
  read : t.readRes s.cfg.scratchBase.toNat = some v
  value : if ch = chNone then s.readRes s.cfg.scratchBase.toNat = some v else v = sampleOf s.cfg d
  others : ∀ a, a ≠ s.cfg.scratchBase.toNat → t.readRes a = s.readRes a

/-! ### The self-test table -/

@[simp] theorem entryCh_selftestEntry (ch : BitVec 8) : entryCh (selftestEntry ch) = ch := by
  rw [entryCh, ← BitVec.setWidth_eq_extractLsb' (by decide), selftestEntry,
    BitVec.setWidth_setWidth_of_le _ (by decide), BitVec.setWidth_eq]

/-- The upper half of a self-test entry is 0: no marker, software-triggered, reference on (R76, R77). -/
theorem selftestEntry_upper (ch : BitVec 8) : entryEnd (selftestEntry ch) = false ∧
    entryTrig (selftestEntry ch) = trigSw ∧ entryRef (selftestEntry ch) = 0 := by
  revert ch
  decide

theorem tableEntries_stTable {c : Config} (hc : c.wf = true) {ch : BitVec 8} (h : stTableOk c ch = true) :
    tableEntries c (BitVec.ofNat 16 (stTable c ch)).toNat = some [selftestEntry ch] := by
  rw [stTable_toNat hc h]
  simp only [stTableOk, Bool.and_eq_true] at h
  obtain ⟨hholds, -⟩ := h
  exact tableEntries_seqHolds hholds (selftestEntry_upper ch).1 rfl

section

variable {s t : State} {o : Operation}

/-! ### What a measurement leaves alone -/

@[simp] theorem State.measured_cfg (ch : BitVec 8) (todo : List Task) (res : Cells) (v : Word) :
    (s.measured o ch todo res v).cfg = s.cfg := rfl
@[simp] theorem State.measured_ic (ch : BitVec 8) (todo : List Task) (res : Cells) (v : Word) :
    (s.measured o ch todo res v).ic = s.ic := rfl
@[simp] theorem State.measured_cal (ch : BitVec 8) (todo : List Task) (res : Cells) (v : Word) :
    (s.measured o ch todo res v).cal = s.cal := rfl
@[simp] theorem State.measured_pins (ch : BitVec 8) (todo : List Task) (res : Cells) (v : Word) :
    (s.measured o ch todo res v).pins = s.pins := rfl
@[simp] theorem State.measured_adc (ch : BitVec 8) (todo : List Task) (res : Cells) (v : Word) :
    (s.measured o ch todo res v).adc = s.adc.measured s.cfg ch := rfl

/-! ### The tasks of an operation -/

theorem Operation.due_self (hp : o.phase = .task) {todo : List Task} (htodo : o.todo = todo) : o.due todo = o := by
  rw [Operation.due, ← hp, ← htodo]

theorem State.Inv.due_ready (hinv : s.Inv) {k : Task} {rest : List Task} (hop : s.port.op = some (o.due (k :: rest))) :
    Phase.task.holds s.adc ∧ k.tableReady s := by
  obtain ⟨hidle, hready⟩ := hinv.op_some hop
  exact ⟨hidle, hready k List.mem_cons_self⟩

/-- The step of an operation with a task due is that task (R56). -/
theorem runInput_task {k : Task} {rest : List Task} (hop : s.port.op = some (o.due (k :: rest))) :
    runInput .proceed s = .next (runTask k (o.due rest) s) := by
  rw [runInput_proceed hop]
  rfl

theorem runInputs_task {k : Task} {rest : List Task} (hop : s.port.op = some (o.due (k :: rest))) :
    runInputs s [.proceed] = .next (runTask k (o.due rest) s) :=
  runInputs_cons (runInput_task hop) []

/-! ### One measurement -/

/-- S1 to S3 of `measure(ch)` trigger a software pass over its table (R161). -/
theorem passing_measure (hinv : s.Inv) {ch : BitVec 8} {rest : List Task}
    (hop : s.port.op = some (o.due (.measure ch :: rest))) :
    runInputs s [.proceed, .proceed, .proceed] = .next (s.measureTriggered o ch rest) ∧
      Passing [selftestEntry ch] [selftestEntry ch] (s.measureTriggered o ch rest) := by
  obtain ⟨⟨-, -, hfl, -⟩, hready⟩ := hinv.due_ready hop
  have hrun : runInputs s [.proceed, .proceed, .proceed] = .next (s.measureTriggered o ch rest) :=
    runInputs_cons (runInput_task hop) _
  refine ⟨hrun, runInputs_inv hinv hrun, rfl, rfl, hfl, tableEntries_stTable hinv.cfg hready, rfl, fun e he => ?_⟩
  obtain rfl := List.mem_singleton.mp he
  exact (selftestEntry_upper ch).2.1

/-- When the flag of a pass is clear, two more steps hand the scratch word to the task after it (R161 S4, S5). -/
theorem runInputs_endMeasure {todo : List Task} (hop : s.port.op = some { o.due todo with phase := .swWait })
    (hne : todo ≠ []) (hstart : s.adc.start = false) {v : Word} (hread : s.readRes s.cfg.scratchBase.toNat = some v) :
    runInputs s [.proceed, .proceed] =
      .next (State.doing { s with adc := { s.adc with state := .idle } } ((o.sampled v).due todo)) := by
  obtain ⟨x, rest, rfl⟩ := List.exists_cons_of_ne_nil hne
  have hwait : runInput .proceed s = .next (s.advance .swFinish (o.due (x :: rest))) := by
    rw [runInput_proceed hop]
    simp only [runPhase, hstart]
    rfl
  have hfinish : runInput .proceed (s.advance .swFinish (o.due (x :: rest))) =
      .next (State.doing { s with adc := { s.adc with state := .idle } } ((o.sampled v).due (x :: rest))) := by
    rw [runInput_proceed (State.advance_port_op _ _ _)]
    exact withRes_next.mpr ⟨v, hread, rfl⟩
  rw [runInputs_cons hwait, runInputs_cons hfinish]
  rfl

/-- The one conversion of a `measure` from a quiet `Idle`, seen from the sequencer (R161). -/
theorem Sequencer.passed_measure {q : Sequencer} (hidle : Phase.task.holds q) (c : Config) (ch : BitVec 8) :
    { Sequencer.passed { q with
        sbase := BitVec.ofNat 16 (stTable c ch), dbase := c.scratchBase, idx := 0, ctrl := 0, state := .runSW
        fePowered := true, start := true } [selftestEntry ch] with state := .idle } = q.measured c ch := by
  obtain ⟨hstate, hctrl, hfl, hstart⟩ := hidle
  have href : entryRef (selftestEntry ch) ≠ refOff := by
    rw [(selftestEntry_upper ch).2.2]
    decide
  rw [Sequencer.passed_fresh rfl rfl (by simp)]
  simp [Sequencer.measured, hstate, hctrl, hfl, hstart, href]

/-- `measure(ch)` carried through (R161). -/
theorem runInputs_measure (hinv : s.Inv) {ch : BitVec 8} {todo : List Task}
    (hop : s.port.op = some (o.due (.measure ch :: todo))) (hne : todo ≠ []) (d : Word) :
    ∃ res v, runInputs s (measureInputs d) = .next (s.measured o ch todo res v) ∧
      SampleTaken ch d v s (s.measured o ch todo res v) := by
  obtain ⟨hidle, -⟩ := hinv.due_ready hop
  obtain ⟨hstart, hpassing⟩ := passing_measure hinv hop
  obtain ⟨w, hpass, hadc, hstored, hothers, -, hframe⟩ := hpassing.run (draws := [d]) (by simp) rfl
  have hop' : w.port.op = some { o.due todo with phase := .swWait } := by rw [hframe]; rfl
  have hcfg : w.cfg = s.cfg := by rw [hframe]; rfl
  obtain ⟨-, -, -, hscratch, -⟩ := Config.wf_sizes hinv.cfg
  obtain ⟨v, hread⟩ : ∃ v, w.readRes w.cfg.scratchBase.toNat = some v :=
    ⟨_, readRes_some.mpr ⟨by rw [hcfg]; omega, rfl⟩⟩
  have hend := runInputs_endMeasure hop' hne (by rw [hadc]; rfl) hread
  have hdone := (runInputs_append ((runInputs_append hstart _).trans hpass) _).trans hend
  rw [hadc] at hframe
  generalize w.res = res at hframe
  subst hframe
  refine ⟨res, v, hdone.trans (congrArg Host.Outcome.next ?_), hread, ?_, fun a ha => hothers a ?_⟩
  · rw [State.measured, ← Sequencer.passed_measure hidle s.cfg ch]
    rfl
  · have hvalue := hread.symm.trans (hstored 0 _ d rfl rfl)
    rw [entryCh_selftestEntry] at hvalue
    split at hvalue
    · exact (if_pos ‹_›).mpr hvalue.symm
    · exact (if_neg ‹_›).mpr (Option.some.inj hvalue)
  · show a < s.cfg.scratchBase.toNat + 0 ∨ s.cfg.scratchBase.toNat + 0 + 1 ≤ a
    omega

end

end Sys2Proof.Machine

open Sys2Proof Sys2Proof.Machine Sys2Proof.Claims

/-- Settles O45: the measurement is a software pass over the one entry of the channel's table. -/
theorem measureTakesOneSample : Obligations.MeasureTakesOneSample := by
  unfold Obligations.MeasureTakesOneSample
  intro s o ch x rest d hinv hop hphase htodo
  rw [← Operation.due_self hphase htodo] at hop
  obtain ⟨res, v, hrun, hread, hvalue, hothers⟩ := runInputs_measure hinv hop (List.cons_ne_nil x rest) d
  refine ⟨_, v, hrun, hread, hvalue, hothers, rfl, ?_, rfl, rfl, rfl, rfl⟩
  rw [State.measured, Operation.due, ← hphase]
  rfl

end

section
/-! How the calibration operations begin, and the validation of the offset (R160, R163 to R166, R169). -/

namespace Sys2Proof.Machine

open Sys2Proof.Claims

section

variable {s : State}

/-! ### The tasks an operation begins with -/

/-- A calibration operation without any task is over and answered at once (R163). -/
theorem issueTasks_nil (hbusy : s.adc.busyOp = false) : s.issueTasks [] .nothing =
    answered { s with port := { s.port with op := none } } 0 0 0 := by
  have hadc : { s.adc with busyOp := false } = s.adc := by rw [← hbusy]
  exact congrArg (fun q => answered { s with adc := q, port := { s.port with op := none } } 0 0 0) hadc

theorem issueTasks_of_ne_nil {todo : List Task} (h : todo ≠ []) (a : Answer) :
    s.issueTasks todo a = s.issueOp (Operation.fresh .task todo a) := by
  obtain ⟨x, rest, rfl⟩ := List.exists_cons_of_ne_nil h
  rfl

theorem pinTablesOk_iff : pinTablesOk s = true ↔
    ∀ p, p < s.cfg.nGpio → s.pins.gpioOe.getLsbD p = true → stTableOk s.cfg (chGpio p) = true := by
  simp [pinTablesOk, ← Bool.not_eq_true, Classical.or_iff_not_imp_left]

/-! ### The offset -/

/-- The measured offset is discarded for an available stored one more than 6 codes away, on either side (R165, R169). -/
theorem offsetImplausible_iff {k : Calibration} : offsetImplausible k = true ↔ k.storedValid = true ∧
    (k.storedOff.toNat + 6 < k.measOff.toNat ∨ k.measOff.toNat + 6 < k.storedOff.toNat) := by
  rw [offsetImplausible, Bool.and_eq_true, decide_eq_true_iff, offsetTol, codeDistance]
  refine and_congr_right fun _ => ?_
  omega

theorem validateOffset_of_implausible (h : offsetImplausible s.cal = true) :
    s.validateOffset.cal.zeroOff = s.cal.storedOff := if_pos h

theorem validateOffset_of_plausible (h : ¬ offsetImplausible s.cal = true) :
    s.validateOffset.cal.zeroOff = s.cal.measOff := if_neg h

end

end Sys2Proof.Machine

open Sys2Proof Sys2Proof.Machine Sys2Proof.Claims

/-- Settles O49: the offset chosen is that of the model's validation, as an operation and as a task. -/
theorem calValidateOffsetIsStrict : Obligations.CalValidateOffsetIsStrict := by
  unfold Obligations.CalValidateOffsetIsStrict
  intro s
  refine ⟨s.validateOffset.cal.zeroOff, fun hidle hbusy => exec_next.mpr ⟨hidle, hbusy, rfl⟩, ?_, ?_⟩
  · intro o _ hop hphase htodo hanswer
    rw [← Operation.due_self hphase htodo] at hop
    rw [runInput_task hop]
    simp only [runTask, State.nextTask, Operation.due, State.finishOp, hanswer]
    rfl
  · have himplausible := offsetImplausible_iff (k := s.cal)
    refine ⟨fun hvalid h => validateOffset_of_implausible (himplausible.mpr ⟨hvalid, .inl h⟩),
      fun hvalid h => validateOffset_of_implausible (himplausible.mpr ⟨hvalid, .inr h⟩),
      fun _ habove hbelow => validateOffset_of_plausible fun h => ?_,
      fun hinvalid => validateOffset_of_plausible fun h => ?_⟩
    · obtain ⟨-, hfar⟩ := himplausible.mp h
      omega
    · obtain ⟨hvalid, -⟩ := himplausible.mp h
      exact Bool.false_ne_true (hinvalid.symm.trans hvalid)

/-- Settles O50: the checks pass, and the list of tasks is empty only without pins. -/
theorem calPinsAndSelftestBegin : Obligations.CalPinsAndSelftestBegin := by
  unfold Obligations.CalPinsAndSelftestBegin
  intro s hidle hbusy htables
  have hpins := pinTablesOk_iff.mpr htables
  have hexec : exec .calPins s = .next (s.issueTasks (pinsTasks s.cfg) .nothing) :=
    exec_next.mpr ⟨hidle, hbusy, hpins, rfl⟩
  refine ⟨fun hnone => ?_, fun hsome => ?_, fun hrail0 hrail1 hzero => ?_⟩
  · have htasks : pinsTasks s.cfg = [] := by simp [pinsTasks, hnone]
    rw [hexec, htasks, issueTasks_nil hbusy]
  · have htasks : pinsTasks s.cfg ≠ [] := by simpa [pinsTasks] using Nat.one_le_iff_ne_zero.mp hsome
    rw [hexec, issueTasks_of_ne_nil htasks]
    rfl
  · refine exec_next.mpr ⟨hidle, hbusy, ⟨Bool.and_eq_true_iff.mpr ⟨hrail0, hrail1⟩, hpins, hzero⟩, ?_⟩
    rw [issueTasks_of_ne_nil (by simp [railsTasks]), List.append_assoc _ offsetTasks]
    rfl

end

section
/-! Two measurements in a row: the rails, and the offset with the driver stage forced (R162, R164). -/

namespace Sys2Proof.Machine

open Sys2Proof.Claims

section

variable {s t : State} {o : Operation}

/-! ### What is made of two samples -/

theorem bandHolds_iff {b : Band} {v : Word} : bandHolds b v = true ↔ b.lo ≤ v ∧ v ≤ b.hi := by
  simp [bandHolds]

/-- A rail outside its band sets the fault flag and logs one code (R162). -/
theorem recordRails_cal (v0 v1 : Word) : (s.recordRails v0 v1).cal =
    if (s.cfg.rail0.lo ≤ v0 ∧ v0 ≤ s.cfg.rail0.hi) ∧ (s.cfg.rail1.lo ≤ v1 ∧ v1 ≤ s.cfg.rail1.hi) then s.cal
    else { s.cal with elecFault := true, diagLog := s.cal.diagLog ++ [s.cfg.diagRail] } := by
  simp only [State.recordRails, Bool.and_eq_true, bandHolds_iff]
  split <;> rfl

theorem readRes_recordRails (v0 v1 : Word) (a : Nat) : (s.recordRails v0 v1).readRes a = s.readRes a :=
  readRes_congr (by simp) (by simp) a

/-- The average of two raw codes does not wrap (R164). -/
theorem averageCode_toNat (a b : Word) : (averageCode a b).toNat = (a.toNat + b.toNat) / 2 := by
  have := a.isLt
  have := b.isLt
  rw [averageCode, BitVec.toNat_ofNat]
  exact Nat.mod_eq_of_lt (by omega)

/-! ### Two samples -/

theorem SampleTaken.sample {ch : BitVec 8} {d v : Word} (h : SampleTaken ch d v s t) (hch : ch ≠ chNone) :
    v = sampleOf s.cfg d := by
  have hvalue := h.value
  rwa [if_neg hch] at hvalue

/-- From `s` to `t` two measurements with the draws `d0` and `d1` have given `v0` and `v1`: what one `measure` does, twice
(R161). -/
structure SamplesTaken (ch0 ch1 : BitVec 8) (d0 d1 v0 v1 : Word) (s t : State) : Prop where
  first : ch0 ≠ chNone → v0 = sampleOf s.cfg d0
  second : ch1 ≠ chNone → v1 = sampleOf s.cfg d1
  held : ch0 = chNone → ch1 = chNone → s.readRes s.cfg.scratchBase.toNat = some v0 ∧ v1 = v0
  read : t.readRes s.cfg.scratchBase.toNat = some v1
  others : ∀ a, a ≠ s.cfg.scratchBase.toNat → t.readRes a = s.readRes a

theorem SampleTaken.and_then {u : State} {ch0 ch1 : BitVec 8} {d0 d1 v0 v1 : Word} (h0 : SampleTaken ch0 d0 v0 s u)
    (h1 : SampleTaken ch1 d1 v1 u t) (hcfg : u.cfg = s.cfg) : SamplesTaken ch0 ch1 d0 d1 v0 v1 s t := by
  obtain ⟨hread1, hvalue1, hothers1⟩ := h1
  rw [hcfg] at hread1 hvalue1 hothers1
  refine ⟨h0.sample, fun hch => by rwa [if_neg hch] at hvalue1, fun hch0 hch1 => ?_, hread1,
    fun a ha => (hothers1 a ha).trans (h0.others a ha)⟩
  have hvalue0 := h0.value
  rw [if_pos hch0] at hvalue0
  rw [if_pos hch1, h0.read] at hvalue1
  exact ⟨hvalue0, (Option.some.inj hvalue1).symm⟩

/-- Two measurements one after the other; the task after them gets both results (R162, R164). -/
theorem runInputs_measureTwo (hinv : s.Inv) {ch0 ch1 : BitVec 8} {todo : List Task}
    (hop : s.port.op = some (o.due (.measure ch0 :: .measure ch1 :: todo))) (hne : todo ≠ []) (d0 d1 : Word) :
    ∃ v0 res v1, runInputs s (measureInputs d0 ++ measureInputs d1) =
        .next (s.measured (o.sampled v0) ch1 todo res v1) ∧
      SamplesTaken ch0 ch1 d0 d1 v0 v1 s (s.measured (o.sampled v0) ch1 todo res v1) := by
  obtain ⟨res0, v0, hrun0, h0⟩ := runInputs_measure hinv hop (by simp) d0
  obtain ⟨res1, v1, hrun1, h1⟩ := runInputs_measure (runInputs_inv hinv hrun0) rfl hne d1
  exact ⟨v0, res1, v1, (runInputs_append hrun0 _).trans hrun1, h0.and_then h1 rfl⟩

end

end Sys2Proof.Machine

open Sys2Proof Sys2Proof.Machine Sys2Proof.Claims

/-- Settles O46: two measurements, then the verdict on their results. -/
theorem calRailsChecksBothRails : Obligations.CalRailsChecksBothRails := by
  unfold Obligations.CalRailsChecksBothRails
  intro s d0 d1 hinv hidle hbusy htable0 htable1
  have hexec : exec .calRails s = .next (s.issueTasks railsTasks .nothing) :=
    exec_next.mpr ⟨hidle, hbusy, Bool.and_eq_true_iff.mpr ⟨htable0, htable1⟩, rfl⟩
  obtain ⟨v0, res, v1, hrun, hv0, hv1, -, hread, hothers⟩ :=
    runInputs_measureTwo (o := Operation.fresh .task [] .nothing) (exec_inv hinv hexec) rfl (by simp) d0 d1
  obtain rfl : v0 = sampleOf s.cfg d0 := hv0 (by decide)
  obtain rfl : v1 = sampleOf s.cfg d1 := hv1 (by decide)
  refine ⟨_, _, hexec, (runInputs_append hrun _).trans (runInputs_task rfl), recordRails_cal _ _,
    (readRes_recordRails _ _ _).trans hread, fun a ha => (readRes_recordRails _ _ a).trans (hothers a ha), ?_,
    by simp [runTask], by simp [runTask], by simp [runTask], rfl, rfl⟩
  show { State.adc (State.recordRails _ _ _) with busyOp := false } = _
  rw [State.recordRails_adc, ← hbusy]
  rfl

/-- Settles O48: two measurements with the driver forced, then its configuration put back and the average taken. -/
theorem calMeasureOffsetAveragesTwoSamples : Obligations.CalMeasureOffsetAveragesTwoSamples := by
  unfold Obligations.CalMeasureOffsetAveragesTwoSamples
  intro s d1 d2 hinv hidle hbusy htable
  have hexec : exec .calMeasureOffset s = .next (s.issueTasks offsetTasks .measOff) :=
    exec_next.mpr ⟨hidle, hbusy, htable, rfl⟩
  have hforce := runInputs_task (o := Operation.fresh .task [] .measOff) (s := s.issueTasks offsetTasks .measOff) rfl
  obtain ⟨x1, res, x2, hrun, hx1, hx2, hheld, -, hothers⟩ := runInputs_measureTwo
    (o := Operation.fresh .task [] .measOff) (runInputs_inv (exec_inv hinv hexec) hforce) rfl (by simp) d1 d2
  have hend := (runInputs_append hrun _).trans ((runInputs_cons (runInput_task rfl) _).trans (runInputs_task rfl))
  refine ⟨_, _, _, x1, x2, hexec, hforce, rfl, hend, fun hch => ⟨hx1 hch, hx2 hch⟩, fun hch => hheld hch hch,
    averageCode_toNat x1 x2, rfl, rfl, rfl, hothers, ?_, rfl, rfl, rfl⟩
  show { s.adc.measured s.cfg s.cfg.chZero with busyOp := false } = _
  rw [← hbusy]
  rfl


end

section
/-! One turn of the pin loop (R163): a pin that is an output is measured at both levels. -/

namespace Sys2Proof.Machine

open Sys2Proof.Claims

/-- The state after pin `p` is driven to `level` in the operation `o`: channel `ch` is to be measured, the pin's own level to
be put back, and `todo` follows (R163). -/
def State.driven (s : State) (o : Operation) (p : Nat) (level : Bool) (ch : BitVec 8) (todo : List Task) : State :=
  (s.drivePin p level).doing (o.due (.measure ch :: .drivePin p (s.pins.gpioOut.getLsbD p) :: todo))

/-- `w` is `s` but for the measurements of pin `p` (R161, R163). -/
structure PinMeasured (p : Nat) (s w : State) : Prop where
  cfg : w.cfg = s.cfg
  ic : w.ic = s.ic
  cal : w.cal = s.cal
  pins : w.pins = s.pins
  adc : w.adc = s.adc.measured s.cfg (chGpio p)
  others : ∀ a, a ≠ s.cfg.scratchBase.toNat → w.readRes a = s.readRes a

/-! ### The bits of the pin registers -/

/-- Writing one pin's bit changes no other pin's (R36, R163). -/
theorem setPin_getLsbD (v : BitVec 32) {p : Nat} (hp : p < 32) (level : Bool) (q : Nat) :
    (setPin v p level).getLsbD q = if q = p then level else v.getLsbD q := by
  have hbit : (1#32 <<< p).getLsbD q = decide (q = p) := (BitVec.getLsbD_twoPow p q).trans (by simp [hp, eq_comm])
  by_cases hq : q = p
  · cases level <;> simp [setPin, hq, hp]
  · cases level <;> simp [setPin, hbit, hq]
    exact BitVec.lt_of_getLsbD

/-- Driving a pin to a level and back to its own leaves every pin as it was (R163). -/
theorem setPin_restore (v : BitVec 32) {p : Nat} (hp : p < 32) (level : Bool) :
    setPin (setPin v p level) p (v.getLsbD p) = v := by
  apply BitVec.eq_of_getLsbD_eq
  intro q _
  rw [setPin_getLsbD _ hp, setPin_getLsbD _ hp]
  split
  · subst q; rfl
  · rfl

theorem chGpio_ne_chNone {p : Nat} (hp : p < 32) : chGpio p ≠ chNone := by
  simp only [chGpio, chNone]
  bv_omega

section

variable {s : State} {o : Operation}

/-! ### The verdict -/

/-- The verdict on a pin changes no level and no driver configuration (R163). -/
theorem recordPin_levels (p : Nat) (vh vl : Word) : (s.recordPin p vh vl).pins.gpioOut = s.pins.gpioOut ∧
    (s.recordPin p vh vl).pins.drvCfg = s.pins.drvCfg := by
  unfold State.recordPin
  split <;> exact ⟨rfl, rfl⟩

/-- What the verdict on a pin records: outside its bands it leaves output mode, alone, and its code is logged (R163). -/
theorem recordPin_verdict {p : Nat} (hp : p < 32) (vh vl : Word) :
    if (s.cfg.pinHigh.lo ≤ vh ∧ vh ≤ s.cfg.pinHigh.hi) ∧ (s.cfg.pinLow.lo ≤ vl ∧ vl ≤ s.cfg.pinLow.hi) then
      (s.recordPin p vh vl).pins.gpioOe = s.pins.gpioOe ∧ (s.recordPin p vh vl).cal = s.cal
    else
      (∀ q, (s.recordPin p vh vl).pins.gpioOe.getLsbD q = (!decide (q = p) && s.pins.gpioOe.getLsbD q)) ∧
        (s.recordPin p vh vl).cal = { s.cal with diagLog := s.cal.diagLog ++ [diagPinCode s.cfg p] } := by
  simp only [State.recordPin, Bool.and_eq_true, bandHolds_iff]
  split_ifs
  · exact ⟨rfl, rfl⟩
  · refine ⟨fun q => (setPin_getLsbD _ hp _ q).trans ?_, rfl⟩
    by_cases hq : q = p <;> simp [hq]

theorem readRes_recordPin (p : Nat) (vh vl : Word) (a : Nat) : (s.recordPin p vh vl).readRes a = s.readRes a :=
  readRes_congr (by simp) (by simp) a

theorem readRes_nextTask (o : Operation) (a : Nat) : (s.nextTask o).readRes a = s.readRes a :=
  readRes_congr (by simp) (by simp) a

/-! ### The steps of a turn -/

/-- After a task's last step the operation goes on with the tasks left, or is over and answered (R79, R120). -/
theorem nextTask_due (hbusy : s.adc.busyOp = true) (rest : List Task) :
    (s.nextTask (o.due rest)).adc = { s.adc with busyOp := decide (rest ≠ []) } ∧
      (rest = [] → (s.nextTask (o.due rest)).port.op = none ∧ (s.nextTask (o.due rest)).port.rsp.isSome) ∧
      (rest ≠ [] → (s.nextTask (o.due rest)).port.op = some (o.due rest)) := by
  cases rest with
  | nil => exact ⟨rfl, fun _ => ⟨rfl, rfl⟩, fun h => absurd rfl h⟩
  | cons x rest =>
    refine ⟨?_, nofun, fun _ => rfl⟩
    rw [State.nextTask_adc, hbusy]
    simp [Operation.due]

/-- A pin is driven, measured, and has its own level again: but for the measurement nothing has changed (R163). -/
theorem runInputs_driven (hinv : s.Inv) {p : Nat} (hp : p < 32) {level : Bool} {ch : BitVec 8} {x : Task}
    {rest : List Task}
    (hop : s.port.op = some (o.due
      (.drivePin p level :: .measure ch :: .drivePin p (s.pins.gpioOut.getLsbD p) :: x :: rest))) (d : Word) :
    runInputs s [.proceed] = .next (s.driven o p level ch (x :: rest)) ∧
      ∃ res v, runInputs (s.driven o p level ch (x :: rest)) (measureInputs d ++ [.proceed]) =
          .next (s.measured o ch (x :: rest) res v) ∧
        SampleTaken ch d v s (s.measured o ch (x :: rest) res v) := by
  have hdrive : runInputs s [.proceed] = .next (s.driven o p level ch (x :: rest)) := runInputs_task hop
  obtain ⟨res, v, hrun, hread, hvalue, hothers⟩ := runInputs_measure (runInputs_inv hinv hdrive) rfl (by simp) d
  refine ⟨hdrive, res, v, (runInputs_append hrun _).trans ((runInputs_task rfl).trans ?_), hread, hvalue, hothers⟩
  have hpins : { s.pins with gpioOut := setPin (setPin s.pins.gpioOut p level) p (s.pins.gpioOut.getLsbD p) } = s.pins := by
    rw [setPin_restore _ hp]
  exact congrArg (fun pins => Host.Outcome.next { s.measured o ch (x :: rest) res v with pins := pins }) hpins

/-- The turn of a pin that is an output begins its check (R163). -/
theorem runInputs_pin_output {p : Nat} {rest : List Task} (hop : s.port.op = some (o.due (.pin p :: rest)))
    (hoe : s.pins.gpioOe.getLsbD p = true) : runInputs s [.proceed] =
      .next (s.doing (o.due (pinCheck p (s.pins.gpioOut.getLsbD p) ++ rest))) := by
  rw [runInputs_task hop]
  simp only [runTask, hoe, if_true]
  rfl

/-- The turn of a pin that is no output is over at once (R163). -/
theorem runInput_pin_not_output {p : Nat} {rest : List Task} (hop : s.port.op = some (o.due (.pin p :: rest)))
    (hoe : s.pins.gpioOe.getLsbD p = false) : runInput .proceed s = .next (s.nextTask (o.due rest)) := by
  rw [runInput_task hop]
  simp only [runTask, hoe]
  rfl

/-- The check of a pin that is an output: it is driven and measured at both levels, its own level standing between and after,
and then judged (R163). -/
theorem runInputs_pinTurn (hinv : s.Inv) {p : Nat} (hp : p < 32) {rest : List Task}
    (hop : s.port.op = some (o.due (.pin p :: rest))) (hoe : s.pins.gpioOe.getLsbD p = true) (dh dl : Word) :
    ∃ h m l w, runInputs s [.proceed, .proceed] = .next h ∧ h.pins.gpioOut = setPin s.pins.gpioOut p true ∧
      runInputs h (measureInputs dh ++ [.proceed]) = .next m ∧ m.pins = s.pins ∧
      runInputs m [.proceed] = .next l ∧ l.pins.gpioOut = setPin s.pins.gpioOut p false ∧
      runInputs l (measureInputs dl ++ [.proceed, .proceed]) =
        .next ((w.recordPin p (sampleOf s.cfg dh) (sampleOf s.cfg dl)).nextTask
          (((o.sampled (sampleOf s.cfg dh)).sampled (sampleOf s.cfg dl)).due rest)) ∧
      PinMeasured p s w := by
  have hturn := runInputs_pin_output hop hoe
  have hinv1 := runInputs_inv hinv hturn
  obtain ⟨hhigh, res, vh, hrun, htaken⟩ := runInputs_driven hinv1 hp rfl dh
  have hinv2 := runInputs_inv (runInputs_inv hinv1 hhigh) hrun
  obtain ⟨hlow, res', vl, hrun', htaken'⟩ := runInputs_driven hinv2 hp rfl dl
  have hvh : vh = sampleOf s.cfg dh := htaken.sample (chGpio_ne_chNone hp)
  have hvl : vl = sampleOf s.cfg dl := htaken'.sample (chGpio_ne_chNone hp)
  subst hvh hvl
  have hverdict := (runInputs_append hrun' [.proceed]).trans (runInputs_task rfl)
  refine ⟨_, _, _, _, (runInputs_append hturn _).trans hhigh, rfl, hrun, rfl, hlow, rfl, hverdict, ?_⟩
  exact ⟨rfl, rfl, rfl, rfl, rfl, fun a ha => (htaken'.others a ha).trans (htaken.others a ha)⟩

end

end Sys2Proof.Machine

open Sys2Proof Sys2Proof.Machine Sys2Proof.Claims

/-- Settles O47: a pin that is an output is driven and measured at both levels, then judged on both results. -/
theorem pinTurnChecksAndRestores : Obligations.PinTurnChecksAndRestores := by
  unfold Obligations.PinTurnChecksAndRestores
  intro s o p rest dh dl hinv hp hop hphase htodo
  have hbusy := hinv.is_busy hop
  have hp : p < 32 := by
    obtain ⟨-, -, -, -, -, hgpio, -⟩ := Config.wf_sizes hinv.cfg
    omega
  rw [← Operation.due_self hphase htodo] at hop
  refine ⟨fun hoe => ?_, fun hoe => ?_⟩
  · obtain ⟨hadc, hend, hmore⟩ := nextTask_due (o := o) hbusy rest
    refine ⟨_, runInput_pin_not_output hop hoe, by simp, by simp, by simp, by simp, by simp, hadc, fun h => (hend h).1,
      fun h => ?_⟩
    rw [hmore h, Operation.due, ← hphase]
  · obtain ⟨h, m, l, w, hturn, hhigh, hmid, hpins, hdrive, hlow, hrun, hw⟩ := runInputs_pinTurn hinv hp hop hoe dh dl
    generalize sampleOf s.cfg dh = vh, sampleOf s.cfg dl = vl at hrun ⊢
    have hrecord : (w.recordPin p vh vl).adc = s.adc.measured s.cfg (chGpio p) := (State.recordPin_adc ..).trans hw.adc
    obtain ⟨hadc, hend, hmore⟩ := nextTask_due (o := (o.sampled vh).sampled vl) (by rw [hrecord]; exact hbusy) rest
    obtain ⟨hout, hdrv⟩ := recordPin_levels (s := w) p vh vl
    have hverdict := recordPin_verdict (s := w) hp vh vl
    rw [hw.cfg, hw.cal, hw.pins] at hverdict
    rw [hw.pins] at hout hdrv
    rw [hrecord] at hadc
    refine ⟨h, m, l, _, hturn, ?_, hmid, hpins, hdrive, ?_, hrun, ?_⟩
    · rw [hhigh, setPin_getLsbD _ hp, if_pos rfl]
    · rw [hlow, setPin_getLsbD _ hp, if_pos rfl]
    · simp only [State.nextTask_pins, State.nextTask_cal, State.nextTask_ic, State.nextTask_cfg, readRes_nextTask,
        State.recordPin_ic, State.recordPin_cfg, readRes_recordPin]
      exact ⟨hout, hdrv, hw.ic, hw.cfg, hverdict, hw.others, hadc, hend, fun h => ⟨_, hmore h, rfl, rfl, rfl⟩⟩


end

section
/-! The conversions (R168 to R182): what the getters answer, and when they are refused. -/

namespace Sys2Proof.Machine

open Sys2Proof.Claims

section

variable {s : State}

/-! ### Fields of the record and signed answers -/

theorem withField_of_some {offset : Nat} {raw : Word} (h : s.readRes (s.cfg.resultsBase.toNat + offset) = some raw)
    (k : Word → Result) : withField s offset k = k raw := by
  rw [withField, withRes, h]

theorem fitsSigned_iff {v : Int} : fitsSigned v = true ↔ -32768 ≤ v ∧ v ≤ 32767 := by
  simp [fitsSigned]

/-- A result that fits is its own 16-bit two's complement (R79). -/
theorem toInt_ofInt_of_fits {v : Int} (h : -32768 ≤ v ∧ v ≤ 32767) : (BitVec.ofInt 16 v).toInt = v :=
  BitVec.toInt_ofInt_eq_self (by decide) (by omega) (by omega)

theorem respondSigned_of_fits {v : Int} (h : -32768 ≤ v ∧ v ≤ 32767) :
    respondSigned s v = .next (answered s 0 (BitVec.ofInt 16 v) 0) :=
  respondSigned_next.mpr ⟨fitsSigned_iff.mpr h, rfl⟩

/-- A result that does not fit is refused (R182). -/
theorem respondSigned_of_not_fits {v : Int} (h : ¬ (-32768 ≤ v ∧ v ≤ 32767)) :
    respondSigned s v = .refused .resultRange :=
  if_neg (fitsSigned_iff.not.mpr h)

/-! ### Currents -/

theorem coilAField_eq (c : Config) : coilAField c = if c.curSrc = .unfiltered then 3 else 4 := by
  unfold coilAField
  split <;> simp [*]

theorem coilBField_eq (c : Config) : coilBField c = if c.curSrc = .unfiltered then 5 else 6 := by
  unfold coilBField
  split <;> simp [*]

/-- A coil's current is never below zero (R174). -/
theorem currentTerm_toNat (zeroOff raw : Word) : (currentTerm zeroOff raw).toNat = raw.toNat - zeroOff.toNat := by
  unfold currentTerm
  split
  · exact BitVec.toNat_sub_of_le ‹_›
  · bv_omega

/-- The sum of the coils wraps (R174). -/
theorem currentSum_toNat (coils : Coils) (zeroOff rawA rawB : Word) : (currentSum coils zeroOff rawA rawB).toNat =
    (if coils = .one then rawA.toNat - zeroOff.toNat
      else (rawA.toNat - zeroOff.toNat) + (rawB.toNat - zeroOff.toNat)) % 65536 := by
  cases coils with
  | one =>
    have := rawA.isLt
    simp only [currentSum, currentTerm_toNat, if_true]
    omega
  | two => simp [currentSum, currentTerm_toNat]

theorem fitsUnsigned_iff {v : Nat} : fitsUnsigned v = true ↔ v ≤ 65535 := decide_eq_true_iff

section

variable {top : BitVec 4} {topo : Topology} {rawA rawB : Word} (htopo : s.cfg.topologies[top.toNat]? = some topo)
  (hA : s.readRes (s.cfg.resultsBase.toNat + (if s.cfg.curSrc = .unfiltered then 3 else 4)) = some rawA)
  (hB : s.readRes (s.cfg.resultsBase.toNat + (if s.cfg.curSrc = .unfiltered then 5 else 6)) = some rawB)

include htopo hA hB

/-- The sum is of the two fields that `CUR_SRC` names (R174). -/
theorem withCurrentSum_of_some (k : Word → Result) :
    withCurrentSum top s k = k (currentSum topo.coils s.cal.zeroOff rawA rawB) := by
  rw [← coilAField_eq] at hA
  rw [← coilBField_eq] at hB
  rw [withCurrentSum, withTopology_of_some htopo, withField_of_some hA, withField_of_some hB]

theorem exec_getCurRaw : exec (.getCurRaw top) s =
    .next (answered s 0 (currentSum topo.coils s.cal.zeroOff rawA rawB) 0) :=
  withCurrentSum_of_some htopo hA hB fun sum => .next (s.respond sum 0)

theorem exec_getCurScaled : exec (.getCurScaled top) s =
    require (fitsUnsigned (scaledCurrent s.cfg (currentSum topo.coils s.cal.zeroOff rawA rawB))) .resultRange
      (.next (answered s 0 (BitVec.ofNat 16 (scaledCurrent s.cfg (currentSum topo.coils s.cal.zeroOff rawA rawB))) 0)) :=
  withCurrentSum_of_some htopo hA hB fun sum => require (fitsUnsigned (scaledCurrent s.cfg sum)) .resultRange
    (.next (s.respond (BitVec.ofNat 16 (scaledCurrent s.cfg sum)) 0))

end

/-! ### Temperature -/

/-- The two segments meet at the anchor code (R177). -/
theorem tempNaive_eq (k : TempConst) (raw : Word) : tempNaive k raw = k.anchorVal +
    (if k.anchorCode ≤ raw.toNat then rdiv ((raw.toNat - k.anchorCode) * k.hiNum) k.hiDen
      else rdiv ((raw.toNat - k.anchorCode) * k.loNum) k.loDen) := by
  simp only [tempNaive, Int.sub_nonneg]
  split <;> rfl

theorem exec_getChipTemp {raw : Word} (h : s.readRes (s.cfg.resultsBase.toNat + 2) = some raw) (first : Bool) :
    exec (.getChipTemp first) s = respondSigned
      { s with cal := { s.cal with lastTemp := BitVec.ofInt 16 (reportedTemp s first raw) } } (reportedTemp s first raw) :=
  withField_of_some h _

end

end Sys2Proof.Machine

open Sys2Proof Sys2Proof.Machine Sys2Proof.Claims

/-- Settles O51: the rounded quotient is a floor, whose remainder is not below zero and below the divisor. -/
theorem roundingIsHalfUp : Obligations.RoundingIsHalfUp := by
  unfold Obligations.RoundingIsHalfUp
  intro n d hd
  have hpos : 0 < 2 * (d : Int) := by omega
  refine ⟨Int.mul_ediv_self_le hpos.ne', ?_⟩
  rw [mul_add, mul_one]
  exact Int.lt_mul_ediv_self_add hpos

/-- Settles O52: each getter reads its field and answers its own conversion of it. -/
theorem voltageGettersConvertTheirField : Obligations.VoltageGettersConvertTheirField := by
  unfold Obligations.VoltageGettersConvertTheirField
  intro s i word k offset hrow
  have hgetter : encode i = word ∧ exec i s = withField s offset fun raw => respondSigned s (convVolt k raw) := by
    simp only [List.mem_cons, Prod.mk.injEq, List.not_mem_nil, or_false] at hrow
    rcases hrow with ⟨rfl, rfl, rfl, rfl⟩ | ⟨rfl, rfl, rfl, rfl⟩ | ⟨rfl, rfl, rfl, rfl⟩ <;> exact ⟨rfl, rfl⟩
  obtain ⟨hword, hexec⟩ := hgetter
  refine ⟨hword, fun raw hraw => ?_⟩
  rw [hexec, withField_of_some hraw]
  exact ⟨fun hfits => ⟨_, respondSigned_of_fits hfits, toInt_ofInt_of_fits hfits⟩, respondSigned_of_not_fits⟩

/-- Settles O53: both getters take the clamped, wrapping sum; the scaled one is checked against 16 bits. -/
theorem currentGettersClampEachCoil : Obligations.CurrentGettersClampEachCoil := by
  unfold Obligations.CurrentGettersClampEachCoil
  intro s t
  refine ⟨rfl, rfl, fun hout => ?_, fun topo rawA rawB sum htopo hA hB hsum => ?_⟩
  · have herror : s.cfg.topologyError t = some .badTopology := if_neg (Nat.not_lt.mpr hout)
    exact ⟨withTopology_of_error herror, withTopology_of_error herror⟩
  · obtain rfl : currentSum topo.coils s.cal.zeroOff rawA rawB = sum :=
      BitVec.eq_of_toNat_eq ((currentSum_toNat _ _ _ _).trans hsum.symm)
    rw [exec_getCurScaled htopo hA hB]
    exact ⟨exec_getCurRaw htopo hA hB, fun hfits => if_pos (fitsUnsigned_iff.mpr hfits),
      fun hout => if_neg (fitsUnsigned_iff.not.mpr (Nat.not_le.mpr hout))⟩

/-- Settles O54, by the two comparisons of the limiter. -/
theorem limiterMovesOneUnit : Obligations.LimiterMovesOneUnit := by
  unfold Obligations.LimiterMovesOneUnit
  intro jump prev new
  unfold tempLimit
  refine ⟨fun h => ?_, fun h hup => ?_, fun h hdown => ?_⟩
  · rw [if_neg (by omega), if_neg (by omega)]
  · rw [if_pos (by omega)]
  · rw [if_neg (by omega), if_pos (by omega)]

/-- Settles O55: the value reported is the naive temperature or the limited one, and it is answered as it is remembered. -/
theorem chipTempReportsAndRemembers : Obligations.ChipTempReportsAndRemembers := by
  unfold Obligations.ChipTempReportsAndRemembers
  refine fun s first => ⟨by cases first <;> rfl, fun raw naive r hraw hnaive hr => ?_⟩
  obtain rfl : reportedTemp s first raw = r := by rw [hr, hnaive, ← tempNaive_eq]; rfl
  rw [exec_getChipTemp hraw]
  exact ⟨fun hfits => ⟨_, toInt_ofInt_of_fits hfits, respondSigned_of_fits hfits⟩, respondSigned_of_not_fits⟩

end

section
/-! What an operation is refused for, and the output lines bit by bit (R192, R204). -/

namespace Sys2Proof.Machine

open Sys2Proof.Claims

section

variable {s : State} {r : Refusal}

/-! ### The reasons of the shared checks -/

/-- A check that stands last refuses for its own reason (R74). -/
theorem require_last_refused {c : Bool} {q : Refusal} {t : State} (h : require c q (.next t) = .refused r) : q = r := by
  rcases require_refused.mp h with ⟨-, hr⟩ | ⟨-, ⟨⟩⟩
  exact hr

theorem requireIdle_table_refused {table : Bool} {t : State}
    (h : requireIdle s (require table .badTable (.next t)) = .refused r) : .badState = r ∨ .badTable = r := by
  rcases requireIdle_refused.mp h with ⟨-, hr⟩ | ⟨-, -, h⟩
  · exact .inl hr
  · exact .inr (require_last_refused h)

theorem startLoop_refused {table dest : Word} (h : startLoop table dest s = .refused r) :
    .badState = r ∨ .badTable = r := by
  unfold startLoop at h
  dsimp only at h
  split at h <;> exact requireIdle_table_refused h

theorem withCurrentSum_refused {top : BitVec 4} {k : Word → Result} (h : withCurrentSum top s k = .refused r) :
    .badTopology = r ∨ ∃ sum, k sum = .refused r := by
  rcases withTopology_refused.mp h with ⟨-, hr⟩ | ⟨topo, -, h⟩
  · exact .inl hr
  · obtain ⟨rawA, -, h⟩ := withRes_refused.mp h
    obtain ⟨rawB, -, h⟩ := withRes_refused.mp h
    exact .inr ⟨_, h⟩

/-! ### The reasons of an operation -/

/-- R204 gives the operation `i` the reason `r`, and the reason its code. -/
def HasReason (c : Config) (i : Instr) (r : Refusal) : Prop := ∃ code, refusalCode r = some code ∧ mayRefuse c r code i

/-- The refusals of `exec`, operation by operation, in the order of its checks (R74, R204). -/
theorem exec_refused {i : Instr} (h : exec i s = .refused r) : HasReason s.cfg i r := by
  cases i with
  | icInit | adcEocIe _ | adcEocAck | adcRdstat => cases h
  | icEnable _ _ | icDisable _ _ | icAck _ _ =>
    rcases withSource_refused.mp h with ⟨-, rfl⟩ | ⟨_, -, ⟨-, rfl⟩ | ⟨-, ⟨⟩⟩⟩ <;>
      exact ⟨_, rfl, rfl, by simp [Instr.mnemonic]⟩
  | icVector _ | icRdpend _ | icRdmask _ =>
    rcases withGroup_refused.mp h with ⟨-, rfl⟩ | ⟨_, -, ⟨⟩⟩
    exact ⟨_, rfl, rfl, by simp [Instr.mnemonic]⟩
  | adcInit | calValidateOffset =>
    rcases requireIdle_refused.mp h with ⟨-, rfl⟩ | ⟨-, -, ⟨⟩⟩
    exact ⟨_, rfl, rfl, by simp [Instr.mnemonic]⟩
  | adcConfigure _ _ | adcStartSw _ _ | calRails | calPins | calMeasureOffset | calSelftest =>
    rcases requireIdle_table_refused h with rfl | rfl <;> exact ⟨_, rfl, rfl, by simp [Instr.mnemonic]⟩
  | adcStartHw _ _ =>
    rcases startLoop_refused h with rfl | rfl <;> exact ⟨_, rfl, rfl, by simp [Instr.mnemonic]⟩
  | adcStart _ _ =>
    rcases withTopology_refused.mp h with ⟨-, rfl⟩ | ⟨_, -, h⟩
    · exact ⟨_, rfl, rfl, by simp [Instr.mnemonic]⟩
    · rcases startLoop_refused h with rfl | rfl <;> exact ⟨_, rfl, rfl, by simp [Instr.mnemonic]⟩
  | adcStop =>
    rcases requireStoppable_refused.mp h with ⟨-, rfl⟩ | ⟨-, -, ⟨⟩⟩
    exact ⟨_, rfl, rfl, by simp [Instr.mnemonic]⟩
  | adcPowerOff =>
    rcases requireStoppable_refused.mp h with ⟨-, rfl⟩ | ⟨-, -, h⟩
    · exact ⟨_, rfl, rfl, by simp [Instr.mnemonic]⟩
    · obtain rfl := require_last_refused h
      exact ⟨_, rfl, rfl, by simp [Instr.mnemonic]⟩
  | adcSelectTable _ _ _ =>
    rcases withTopology_refused.mp h with ⟨-, rfl⟩ | ⟨_, -, h⟩
    · exact ⟨_, rfl, rfl, by simp [Instr.mnemonic]⟩
    · rcases requireSelectable_refused.mp h with ⟨⟨hselect, -⟩, rfl⟩ | ⟨-, ⟨⟩⟩
      exact ⟨_, rfl, rfl, .inr ⟨rfl, hselect⟩⟩
  | adcRdres _ =>
    simp only [exec, execAdcRdres] at h
    split at h <;> cases h
    exact ⟨_, rfl, rfl, rfl⟩
  | getSupplyV | getMotorV | getPhaseV | getChipTemp _ =>
    obtain ⟨_, -, h⟩ := withRes_refused.mp h
    obtain rfl := require_last_refused h
    exact ⟨_, rfl, rfl, by simp [Instr.mnemonic]⟩
  | getCurRaw _ =>
    unfold exec execGetCurRaw at h
    rcases withCurrentSum_refused h with rfl | ⟨_, ⟨⟩⟩
    exact ⟨_, rfl, rfl, by simp [Instr.mnemonic]⟩
  | getCurScaled _ =>
    unfold exec execGetCurScaled at h
    rcases withCurrentSum_refused h with rfl | ⟨_, h⟩
    · exact ⟨_, rfl, rfl, by simp [Instr.mnemonic]⟩
    · obtain rfl := require_last_refused h
      exact ⟨_, rfl, rfl, by simp [Instr.mnemonic]⟩

/-! ### The bits a line depends on -/

/-- A source reads pending and enabled exactly when it is implemented and both its bits are set (R15). -/
theorem active_getLsbD_iff {g : Group} {b : BitVec 4} : (s.readPend g &&& s.readMask g).getLsbD b.toNat = true ↔
    b.toNat < s.cfg.srcCount.get g ∧ (s.ic.pend.get g).getLsbD b.toNat = true ∧
      (s.ic.mask.get g).getLsbD b.toNat = true := by
  rw [BitVec.getLsbD_and, readPend_getLsbD, readMask_getLsbD]
  simp only [Bool.and_eq_true, decide_eq_true_eq]
  exact and_and_left.symm

end

end Sys2Proof.Machine

open Sys2Proof Sys2Proof.Machine

/-- Settles O7: the decoder gives the operation back, and the reason `exec` refuses it for has a code, which is answered. -/
theorem refusalsAnswerAndChangeNothing : Obligations.RefusalsAnswerAndChangeNothing := by
  unfold Obligations.RefusalsAnswerAndChangeNothing
  intro i s r h
  obtain ⟨code, hcode, hmay⟩ := exec_refused h
  refine ⟨code, hmay, ?_⟩
  rw [runCommand_of_refused (decodeOfEncodeIsTheOperation i) h, answerRefused_of_code hcode]

/-- Settles O19: a group line by the bits of its two registers as they are read; the completion line is a conjunction. -/
theorem linesFollowPendingAndEnabled : Obligations.LinesFollowPendingAndEnabled := by
  unfold Obligations.LinesFollowPendingAndEnabled
  exact fun s => ⟨fun grp => irqOut_iff.trans (exists_congr fun _ => active_getLsbD_iff), Bool.and_eq_true_iff⟩

end

section
/-! After a hardware reset (R40, R220): the line and the engine. -/

namespace Sys2Proof.Machine

/-- The completion line is low while no end of a pass is pending, whatever its enable bit (R192). -/
theorem irqAdc_of_not_eocPend {s : State} (h : s.adc.eocPend = false) : s.irqAdc = false := by
  simp [State.irqAdc, h]

/-- `Idle` begins no conversion, and none is in flight to complete (R40, R134, R135). -/
theorem State.AfterReset.engineQuiet {s : State} (h : s.AfterReset) : s.engineQuiet :=
  engineQuiet_of (mayBegin_idle h.state) h.inflight

end Sys2Proof.Machine

open Sys2Proof Sys2Proof.Machine

/-- Settles O57: no end of a pass is pending, and an idle sequencer with no conversion in flight is quiet. -/
theorem engineIsQuietAfterReset : Obligations.EngineIsQuietAfterReset := by
  unfold Obligations.EngineIsQuietAfterReset
  exact fun _ h => ⟨irqAdc_of_not_eocPend h.eocPend, h.engineQuiet⟩

end
